-- ==== Sys2Proof/Word.lean ====
section
/-!
DEFINITION. The words of audio_saturator_core: every port and register is a whole word carried in parallel (R54),
and a binary64 value is its 64-bit pattern (R72), so that the sign of zero and a NaN's payload are kept (R52).
-/
namespace Sys2Proof

/-- A raw 64-bit word: the format of `din_wdata` and `dout_rdata` (R71). -/
abbrev Word64 := BitVec 64

/-- An IEEE 754 binary64 value as its bit pattern: bit 63 the sign, 62:52 the biased exponent, 51:0 the fraction (R72). -/
abbrev F64 := BitVec 64

/-- A 32-bit command word (R70), and the `u32` of the dither generator (R7). -/
abbrev Word32 := BitVec 32

end Sys2Proof
end

