-- ==== Sys2Proof/Config.lean ====
section
/-!
DEFINITION. What an implementation fixes: the parameters of R5, the datapath constants of R6, and the free values the
spec leaves OPEN. A free value is a constant without a body: no proof can learn what it is, so whatever is proved holds
for every configuration.
-/
namespace Sys2Proof

/-- The four arithmetic operations and five transcendental primitives that can produce a NaN (R8, R11). -/
inductive FloatOp where
  | add | sub | mul | div | sin | cos | tan | asin | pow
  deriving DecidableEq, Repr

/-- Parameter NUMERATOR_FORM (R5): which numerator coefficients the biquads use. -/
inductive NumeratorForm where
  /-- `b1 = −b0`, `b2 = +0.0`. -/
  | doc
  /-- `b1 = +0.0`, `b2 = −b0`. -/
  | origin
  deriving DecidableEq, Repr

namespace Config

/-! ### Parameters with a value this hardware takes (R5) -/

/-- NUMERATOR_FORM = DOC (R5, R121; 90_conflicts.md C1). -/
def numeratorForm : NumeratorForm := .doc

/-- INPUT_FINITE_GUARD = false (R5, R103). -/
def inputFiniteGuard : Bool := false

/-- DITHER_SEED = 17 (R5, R34). -/
def ditherSeed : Word32 := 17

/-- FREXP_NONFINITE = 0 (R5, R13). -/
def frexpNonfinite : Int := 0

/-! ### OPEN parameters (R5): free values -/

/-- The configured SIN before R11's properties are imposed (log 5). -/
opaque freeSin : F64 → F64

/-- The configured COS before R11's properties are imposed (log 5). -/
opaque freeCos : F64 → F64

/-- The configured TAN before R11's properties are imposed (log 5). -/
opaque freeTan : F64 → F64

/-- The configured ASIN before R11's properties are imposed (log 5). -/
opaque freeAsin : F64 → F64

/-- The configured POW before R11's properties are imposed (log 5). -/
opaque freePow : F64 → F64 → F64

/-- NAN_BITS (R5, K6): the pattern of the NaN an operation produces from its operands, before it is made a quiet NaN
(log 7). A one-operand primitive gives +0 as its second operand. -/
opaque freeNaN : FloatOp → F64 → F64 → F64

/-! ### Datapath constants (R6) -/

/-- 2⁻¹⁶. -/
def gainCut : F64 := 0x3EF0000000000000
/-- 2¹⁶. -/
def gainBoost : F64 := 0x40F0000000000000
/-- 1.18e-43. -/
def floorThresh : F64 := 0x37050D498BAF1663
/-- 1.18e-43. -/
def floorScale : F64 := 0x37050D498BAF1663
/-- 44100. -/
def refRate : F64 := 0x40E5888000000000
/-- 0.0072. -/
def midFreq : F64 := 0x3F7D7DBF487FCB92
/-- 0.0009. -/
def midQ : F64 := 0x3F4D7DBF487FCB92
/-- 0.032. -/
def highFreq : F64 := 0x3FA0624DD2F1A9FC
/-- 0.0007. -/
def highQ : F64 := 0x3F46F0068DB8BAC7
/-- 0.12. -/
def headBumpBase : F64 := 0x3FBEB851EB851EB8
/-- 0.618033988749894848204586. -/
def softness : F64 := 0x3FE3C6EF372FE950
/-- 0.05. -/
def bumpDrive : F64 := 0x3FA999999999999A
/-- 0.1. -/
def bumpMix : F64 := 0x3FB999999999999A
/-- 1.2533141373155. -/
def spiralBound : F64 := 0x3FF40D931FF62704
/-- 0.00013. -/
def suppressK : F64 := 0x3F210A137F38C543
/-- 0.99. -/
def limit : F64 := 0x3FEFAE147AE147AE
/-- 1.1e-44. -/
def ditherK : F64 := 0x36CF66424E2C32BF
/-- 0x7fffffff as a binary64 value. -/
def ditherOffset : F64 := 0x41DFFFFFFFC00000
/-- DITHER_EXP_BIAS, the integer 62. -/
def ditherExpBias : Int := 62
/-- The binary64 value nearest π. -/
def pi : F64 := 0x400921FB54442D18
/-- PI / 2. -/
def halfPi : F64 := 0x3FF921FB54442D18
/-- 24, GAIN_RANGE_DB. -/
def gainRangeDb : F64 := 0x4038000000000000
/-- 20, DB_DIV. -/
def dbDiv : F64 := 0x4034000000000000
/-- 0.5, GAIN_CENTER. -/
def gainCenter : F64 := 0x3FE0000000000000

/-! ### Small literals of the rules' pseudocode (R10) -/

/-- +0.0. -/
def zero : F64 := 0x0000000000000000
/-- 1.0. -/
def one : F64 := 0x3FF0000000000000
/-- 2.0. -/
def two : F64 := 0x4000000000000000
/-- 10.0. -/
def ten : F64 := 0x4024000000000000

end Config

end Sys2Proof
end

