-- ==== Sys2Proof/Machine/State.lean ====
section
/-!
DEFINITION. The state of one instance (R20): ProcessorState and STATUS, every register with its reset value (R34); the
values on the input ports (R71); and, as plain data of the model's own, what the host has issued and not yet had executed,
the responses so far, and the fault log (log 1, 3, 4).
-/
namespace Sys2Proof.Machine

/-- The two history values of a biquad block (R23). -/
structure History where
  s1 : F64
  s2 : F64
  deriving DecidableEq, Repr

/-- One path's copy of the filter state (R21, R22, R23). -/
structure PathState where
  /-- MR[p], the mid-roller's accumulator (R21). -/
  mr : F64
  /-- HB[p], the head-bump accumulator (R22). -/
  hb : F64
  /-- BQM[p], the mid/head biquad's history (R23). -/
  bqm : History
  /-- BQH[p], the highs biquad's history (R23). -/
  bqh : History
  deriving DecidableEq, Repr

/-- ProcessorState, the first of the two groups of state (R20). -/
structure ProcessorState where
  /-- Path A, index 0. -/
  pathA : PathState
  /-- Path B, index 1. -/
  pathB : PathState
  /-- LAST_OUT, the limiter's result before the final clamp and the dither (R26). -/
  lastOut : F64
  /-- PATH_SEL: 0 selects path A, 1 path B (R25). -/
  pathSel : BitVec 1
  /-- DITHER, the generator's state (R27). -/
  dither : Word32
  deriving DecidableEq, Repr

/-- The values on the input ports of one instance when a command is issued (R71). -/
structure Ports where
  cmd : Word32
  dinSample : F64
  dinRate : F64
  dinControl : F64
  dinWdata : Word64
  /-- The reset request `rst` is asserted (R230). -/
  rst : Bool
  deriving DecidableEq, Repr

/-- A response that carries data (R81); NOP, INIT, WRST and illegal words give none. -/
inductive Response where
  /-- PROC: `dout_sample`. -/
  | sample (v : F64)
  /-- RDST: `dout_rdata`. -/
  | data (w : Word64)
  deriving DecidableEq, Repr

/-- The synchronous events of the block (R213). There is one, code 0. -/
inductive FaultEvent where
  /-- ILLEGAL_COMMAND: a `cmd` word that fails R74. -/
  | illegalCommand
  deriving DecidableEq, Repr

/-- The state of one instance with its host interface. -/
structure State where
  /-- ProcessorState (R20). -/
  core : ProcessorState
  /-- STATUS.ILL, the one live bit of STATUS (R28); bits 63:1 are hardwired to 0 and hold nothing. -/
  ill : BitVec 1
  /-- The values on the input ports (R71) for the command being executed, or executed last. -/
  ports : Ports
  /-- What the host has issued and the block has not yet executed, oldest first (R58, R242; log 1). -/
  pending : List Ports
  /-- The responses given so far, oldest first (R242 (a); log 3). -/
  responses : List Response
  /-- The model's fault log: no command and no reset clears it (R212; 93 K14; log 4). -/
  faultLog : List FaultEvent
  deriving DecidableEq, Repr

/-- Why a step stops with a fault. Nothing stops this block: an illegal word sets STATUS.ILL and the next command is accepted
(R212), no legal command raises anything (R210), and there is no stuck state (R241). So there is no fault, and a step
that claims one cannot be built (safe: no behaviour of the hardware is left out). -/
inductive Fault where
  deriving DecidableEq, Repr

/-- Why an instruction is refused. -/
inductive Refusal where
  /-- Raised by `exec`'s arm for an instruction that has no meaning yet; no arm raises it any more (safe). -/
  | notModelled (mnemonic : String)
  deriving DecidableEq, Repr

/-- A biquad's history at reset (R34). -/
def History.reset : History := { s1 := 0, s2 := 0 }

/-- A path's registers at reset (R34). -/
def PathState.reset : PathState := { mr := 0, hb := 0, bqm := History.reset, bqh := History.reset }

/-- ProcessorState at reset (R34): all +0.0, path A first, DITHER the seed. -/
def ProcessorState.reset : ProcessorState :=
  { pathA := PathState.reset, pathB := PathState.reset, lastOut := 0, pathSel := 0, dither := Config.ditherSeed }

/-- Input ports with nothing on them (log 2). -/
def Ports.idle : Ports := { cmd := 0, dinSample := 0, dinRate := 0, dinControl := 0, dinWdata := 0, rst := false }

/-- The machine right after reset, no command issued yet (R34, R230; log 1, 2, 3, 4). -/
def State.reset : State :=
  { core := ProcessorState.reset, ill := 0, ports := Ports.idle, pending := [], responses := [], faultLog := [] }

end Sys2Proof.Machine
end

