-- ==== Sys2Proof/Machine/Float.lean ====
section
/-!
DEFINITION. IEEE 754 binary64 arithmetic as R8, R9, R12 and R13 use it: round to nearest, ties to even, gradual
underflow, no traps, no flags.

Every finite binary64 value is a whole number of least subnormals 2⁻¹⁰⁷⁴ (`units`). An operation computes its exact
result in that unit, as an integer or as a quotient of integers, and one function (`roundMag`) narrows it.
-/
namespace Sys2Proof.Machine

/-! ### The fields of a binary64 value (R72) -/

/-- The sign, bit 63. -/
def signBit (x : F64) : Bool := decide (2 ^ 63 ≤ x.toNat)

/-- The pattern without its sign, bits 62:0. Patterns without sign are ordered as the magnitudes they stand for. -/
def magBits (x : F64) : Nat := x.toNat % 2 ^ 63

/-- The biased exponent, bits 62:52. -/
def expField (x : F64) : Nat := magBits x / 2 ^ 52

/-- The fraction, bits 51:0. -/
def fracField (x : F64) : Nat := magBits x % 2 ^ 52

/-- The magnitude bits of an infinity: exponent field 0x7FF, fraction 0. -/
def infMag : Nat := 0x7FF0000000000000

def isNaN (x : F64) : Bool := decide (infMag < magBits x)
def isInf (x : F64) : Bool := decide (magBits x = infMag)
def isFinite (x : F64) : Bool := decide (magBits x < infMag)
def isZero (x : F64) : Bool := decide (magBits x = 0)

/-- A value from its sign and its magnitude bits. -/
def ofSignMag (neg : Bool) (mag : Nat) : F64 := BitVec.ofNat 64 (if neg then 2 ^ 63 + mag else mag)

/-- The magnitude of a finite value as a number of least subnormals 2⁻¹⁰⁷⁴. -/
def unitsMag (x : F64) : Nat :=
  if expField x = 0 then fracField x else (2 ^ 52 + fracField x) * 2 ^ (expField x - 1)

/-- A finite value, exactly, as a number of least subnormals 2⁻¹⁰⁷⁴. -/
def units (x : F64) : Int := if signBit x then -(unitsMag x : Int) else (unitsMag x : Int)

/-! ### Rounding (R8: to nearest, ties to even, gradual underflow, overflow to infinity) -/

/-- `n / d` rounded to the nearest integer, ties to even. -/
def roundQuot (n d : Nat) : Nat :=
  if 2 * (n % d) < d then n / d
  else if d < 2 * (n % d) then n / d + 1
  else n / d + n / d % 2

/-- The exponent of the unit in the last place of `n / d`, both counted in least subnormals: the last place of a
binary64 value of that magnitude is `2 ^ ulpExp n d` least subnormals. -/
def ulpExp (n d : Nat) : Nat := Nat.log2 (n / d) - 52

/-- The magnitude bits of the binary64 value nearest to `n / d` least subnormals. A rounding that carries into the next
binade, out of the subnormals, or past the largest finite value lands on the right pattern, since patterns are consecutive. -/
def roundMag (n d : Nat) : Nat :=
  min (ulpExp n d * 2 ^ 52 + roundQuot n (d * 2 ^ ulpExp n d)) infMag

/-- The binary64 value nearest to an integer number of least subnormals; the sign of a zero result is `zeroNeg`. -/
def roundUnits (zeroNeg : Bool) (u : Int) : F64 :=
  if u = 0 then ofSignMag zeroNeg 0 else ofSignMag (decide (u < 0)) (roundMag u.natAbs 1)

/-! ### NaN (R8, R211; parameter NAN_BITS of R5, K6) -/

/-- A quiet NaN: all exponent bits and the leading fraction bit are set, the rest is kept. -/
def quieten (x : F64) : F64 := x ||| 0x7FF8000000000000

/-- The NaN an operation produces from its operands: any quiet NaN (log 7). -/
def producedNaN (op : FloatOp) (a b : F64) : F64 := quieten (Config.freeNaN op a b)

/-! ### Sign operations (R8): they touch the sign bit of any value, a NaN included -/

/-- `−a` flips the sign bit. -/
def fneg (a : F64) : F64 := ofSignMag (!signBit a) (magBits a)

/-- `fabs(a)` clears the sign bit. -/
def fabs (a : F64) : F64 := ofSignMag false (magBits a)

/-! ### The four operations (R8) -/

/-- `a + b`. -/
@[irreducible] def fadd (a b : F64) : F64 :=
  if isNaN a || isNaN b || (isInf a && isInf b && signBit a != signBit b) then producedNaN .add a b
  else if isInf a then a
  else if isInf b then b
  else roundUnits (signBit a && signBit b) (units a + units b)

/-- `a − b`. -/
@[irreducible] def fsub (a b : F64) : F64 :=
  if isNaN a || isNaN b || (isInf a && isInf b && signBit a == signBit b) then producedNaN .sub a b
  else fadd a (fneg b)

/-- `a × b`. -/
@[irreducible] def fmul (a b : F64) : F64 :=
  if isNaN a || isNaN b || (isInf a && isZero b) || (isZero a && isInf b) then producedNaN .mul a b
  else if isInf a || isInf b then ofSignMag (signBit a != signBit b) infMag
  else ofSignMag (signBit a != signBit b) (roundMag (unitsMag a * unitsMag b) (2 ^ 1074))

/-- `a / b`. -/
@[irreducible] def fdiv (a b : F64) : F64 :=
  if isNaN a || isNaN b || (isInf a && isInf b) || (isZero a && isZero b) then producedNaN .div a b
  else if isInf a || isZero b then ofSignMag (signBit a != signBit b) infMag
  else if isInf b then ofSignMag (signBit a != signBit b) 0
  else ofSignMag (signBit a != signBit b) (roundMag (unitsMag a * 2 ^ 1074) (unitsMag b))

/-! ### Comparisons (R12): ordered, false with a NaN, `+0 == −0` -/

/-- The signed magnitude bits: they order the non-NaN values, and both zeros give 0. -/
def orderKey (x : F64) : Int := if signBit x then -(magBits x : Int) else (magBits x : Int)

/-- `a < b`. -/
def flt (a b : F64) : Bool := !isNaN a && !isNaN b && decide (orderKey a < orderKey b)

/-- `a ≤ b`. -/
def fle (a b : F64) : Bool := !isNaN a && !isNaN b && decide (orderKey a ≤ orderKey b)

/-- `a > b`. -/
def fgt (a b : F64) : Bool := flt b a

/-- `a ≥ b`. -/
def fge (a b : F64) : Bool := fle b a

/-- `a == b`. -/
def feq (a b : F64) : Bool := !isNaN a && !isNaN b && decide (orderKey a = orderKey b)

/-- `CLAMP(v, lo, hi)`: the upper test first, then the lower; a NaN passes (R12). -/
def clamp (v lo hi : F64) : F64 :=
  let r := if fgt v hi then hi else v
  if flt r lo then lo else r

/-! ### Conversions -/

/-- An integer as a binary64 value, rounded (exact for a `u32` and for every integer the rules convert; R7). -/
@[irreducible] def ofInt (i : Int) : F64 := roundUnits false (i * 2 ^ 1074)

/-- `to_f64(u)` of a `u32` (R7). -/
def toF64 (u : Word32) : F64 := ofInt (u.toNat : Int)

/-- `FREXP_EXP(v)`: the `e` with `|v| = m × 2^e`, `0.5 ≤ m < 1`; 0 for ±0; FREXP_NONFINITE for ±∞ and NaN (R13). -/
def frexpExp (v : F64) : Int :=
  if isZero v then 0
  else if isFinite v then (Nat.log2 (unitsMag v) : Int) + 1 - 1074
  else Config.frexpNonfinite

end Sys2Proof.Machine
end

