-- ==== Sys2Proof/Machine/Elementary.lean ====
section
/-!
DEFINITION. Where the exact values of sin, cos, tan, asin and a^b lie (R11 (b)): a rational approximation of each, for
every finite binary64 argument, computed with integers only. R11 leaves the configured function free within one unit in
the last place of the exact result; these approximations are what that distance is measured from (log 6).

Every series is summed in fixed point with `fixBits` fraction bits, on an argument already reduced to a small interval.
-/
namespace Sys2Proof.Machine

/-- A rational approximation `±num/den` of a real number, within about 2⁻¹⁹⁰ of its size and on the same side of every
binary64 value and of every power of two as the number itself (log 6). -/
structure Approx where
  neg : Bool
  num : Nat
  den : Nat
  deriving DecidableEq, Repr

/-- Fraction bits of the fixed-point sums. -/
def fixBits : Nat := 256

/-- `⌊π · 2¹²⁸⁰⌋`: enough bits to reduce the largest binary64 argument. -/
def piFixed : Nat :=
  0x3243f6a8885a308d313198a2e03707344a4093822299f31d0082efa98ec4e6c89452821e638d01377be5466cf34e90c6cc0ac29b7c97c50dd3f84d5b5b54709179216d5d98979fb1bd1310ba698dfb5ac2ffd72dbd01adfb7b8e1afed6a267e96ba7c9045f12c7f9924a19947b3916cf70801f2e2858efc16636920d871574e69a458fea3f4933d7e0d95748f728eb658718bcd5882154aee7b54a41dc25a59b5

/-- `⌊ln 2 · 2²⁵⁶⌋`. -/
def ln2Fixed : Nat := 0xb17217f7d1cf79abc9e3b39803f2f6af40f343267298b62d8a0d175b8baafa2b

/-! ### Sums -/

/-- `t − t₁ + t₂ − …` with `tⱼ₊₁ = tⱼ · z / ((2j+1+a)(2j+2+a))`: with `t = 1` the series of cos r (`a = 0`) and of
sin r / r (`a = 1`) in `z = r²`. The terms fall, so no subtraction is cut off. -/
def altSeries (a : Nat) : Nat → Nat → Nat → Nat → Nat
  | 0, _, _, _ => 0
  | fuel + 1, j, z, t =>
    t - altSeries a fuel (j + 1) z (t * z / 2 ^ fixBits / ((2 * j + 1 + a) * (2 * j + 2 + a)))

/-- The series of asin y / y in `z = y²`; `b` is the central binomial coefficient `C(2k,k)/4ᵏ · zᵏ`. -/
def asinSeries : Nat → Nat → Nat → Nat → Nat
  | 0, _, _, _ => 0
  | fuel + 1, k, z, b =>
    b / (2 * k + 1) + asinSeries fuel (k + 1) z (b * z * (2 * k + 1) / ((2 * k + 2) * 2 ^ fixBits))

/-- The series of atanh s in `z = s²`; `t` is `s · zᵏ`. -/
def atanhSeries : Nat → Nat → Nat → Nat → Nat
  | 0, _, _, _ => 0
  | fuel + 1, k, z, t => t / (2 * k + 1) + atanhSeries fuel (k + 1) z (t * z / 2 ^ fixBits)

/-- The series of eᵍ; `t` is `gʲ/j!`. -/
def expSeries : Nat → Nat → Nat → Nat → Nat
  | 0, _, _, _ => 0
  | fuel + 1, j, g, t => t + expSeries fuel (j + 1) g (t * g / 2 ^ fixBits / (j + 1))

/-- The integer square root of `n`, its `bits` low bits found from the top one down. -/
def sqrtBits : Nat → Nat → Nat → Nat
  | 0, _, acc => acc
  | bit + 1, n, acc => sqrtBits bit n (if (acc + 2 ^ bit) * (acc + 2 ^ bit) ≤ n then acc + 2 ^ bit else acc)

/-! ### sin, cos, tan -/

/-- Fraction bits of a reduced argument. -/
def redBits : Nat := 1281

/-- An argument `|x|` modulo π/2: `|x| = quadrant · π/2 ± rho / 2 ^ redBits`, the remainder at most π/4. -/
structure Reduced where
  quadrant : Nat
  neg : Bool
  rho : Nat
  deriving DecidableEq, Repr

/-- The reduction of `u` least subnormals. -/
def reduce (u : Nat) : Reduced :=
  let x := u * 2 ^ (redBits - 1074)
  let k := (2 * x + piFixed) / (2 * piFixed)
  { quadrant := k % 4
    neg := decide (x < k * piFixed)
    rho := if x < k * piFixed then k * piFixed - x else x - k * piFixed }

/-- `z = r²` in fixed point, for `r = rho / 2 ^ redBits`. -/
def redSquare (rho : Nat) : Nat := rho * rho / 2 ^ (2 * redBits - fixBits)

/-- `sin r` for `r = rho / 2 ^ redBits`, with `redBits + fixBits` fraction bits. sin r is below r, so the factor stays
below 1 even where it would round to 1. -/
def sinSmall (rho : Nat) : Nat := rho * min (altSeries 1 32 0 (redSquare rho) (2 ^ fixBits)) (2 ^ fixBits - 1)

/-- `cos r` for `r = rho / 2 ^ redBits`, with `redBits + fixBits` fraction bits. cos r is below 1, and below sin r / r, so
it stays there even where it would round to 1. -/
def cosSmall (rho : Nat) : Nat := min (altSeries 0 32 0 (redSquare rho) (2 ^ fixBits)) (2 ^ fixBits - 2) * 2 ^ redBits

/-- `sin |x|` by quadrant: sin r, cos r, −sin r, −cos r. -/
def sinOfReduced (r : Reduced) : Approx :=
  { neg := if r.quadrant % 2 = 0 then r.neg != decide (2 ≤ r.quadrant) else decide (2 ≤ r.quadrant)
    num := if r.quadrant % 2 = 0 then sinSmall r.rho else cosSmall r.rho
    den := 2 ^ (redBits + fixBits) }

/-- `cos |x|` by quadrant: cos r, −sin r, −cos r, sin r. -/
def cosOfReduced (r : Reduced) : Approx :=
  { neg := if r.quadrant % 2 = 0 then decide (r.quadrant = 2) else r.neg != decide (r.quadrant = 1)
    num := if r.quadrant % 2 = 0 then cosSmall r.rho else sinSmall r.rho
    den := 2 ^ (redBits + fixBits) }

/-- `sin x`. -/
def sinApprox (x : F64) : Approx :=
  let a := sinOfReduced (reduce (unitsMag x))
  { a with neg := a.neg != signBit x }

/-- `cos x`. -/
def cosApprox (x : F64) : Approx := cosOfReduced (reduce (unitsMag x))

/-- `tan x = sin x / cos x`. -/
def tanApprox (x : F64) : Approx :=
  let s := sinApprox x
  let c := cosApprox x
  { neg := s.neg != c.neg, num := s.num, den := c.num }

/-! ### asin -/

/-- `asin y` for `y = rho / 2 ^ scale`, `y ≤ 1/2`, with `scale + fixBits` fraction bits. asin y is above y, so the factor
stays above 1 even where it would round to 1. -/
def asinSmall (rho scale : Nat) : Nat :=
  rho * max (asinSeries 110 0 (rho * rho * 2 ^ fixBits / 2 ^ (2 * scale)) (2 ^ fixBits)) (2 ^ fixBits + 1)

/-- `asin x` for `|x| ≤ 1`: the series up to 1/2, and `π/2 − 2·asin √((1−|x|)/2)` above. -/
def asinApprox (x : F64) : Approx :=
  let u := unitsMag x
  if u ≤ 2 ^ 1073 then { neg := signBit x, num := asinSmall u 1074, den := 2 ^ (1074 + fixBits) }
  else
    let y := sqrtBits fixBits ((2 ^ 1074 - u) * 2 ^ (2 * fixBits) / 2 ^ 1075) 0
    { neg := signBit x
      num := piFixed / 2 ^ (redBits - 2 * fixBits) - 2 * asinSmall y fixBits
      den := 2 ^ (2 * fixBits) }

/-! ### a^b -/

/-- `log₂` of `u` least subnormals (`u ≠ 0`) in fixed point: with `m = u / 2ˡ` in [1, 2),
`l − 1074 + 2·atanh((m−1)/(m+1)) / ln 2`. -/
def log2Fixed (u : Nat) : Int :=
  let l := Nat.log2 u
  let s := (u - 2 ^ l) * 2 ^ fixBits / (u + 2 ^ l)
  ((l : Int) - 1074) * 2 ^ fixBits
    + (2 * atanhSeries 90 0 (s * s / 2 ^ fixBits) s * 2 ^ fixBits / ln2Fixed : Nat)

/-- `|a|^b` by its logarithm, as `2^(b·log₂ |a|)`. Every step rounds down, and the last unit added keeps a result above 1
there. A result outside 2⁻¹²⁰⁰ … 2¹¹⁰⁰ is given as one at that end, far below half a least subnormal or far beyond the
largest finite value. -/
def powBySeries (a b : F64) : Approx :=
  let t := units b * log2Fixed (unitsMag a) / 2 ^ 1074
  let k := min (max (t / 2 ^ fixBits) (-1200)) 1100
  let f := (t % 2 ^ fixBits).toNat
  let e := expSeries 64 0 (f * ln2Fixed / 2 ^ fixBits) (2 ^ fixBits) + 1
  { neg := false, num := e * 2 ^ (k + 1200).toNat, den := 2 ^ (fixBits + 1200) }

/-! ### a^b where it is a binary fraction

A result that lies on the grid of binary64 values is exactly one unit from its neighbours, so there the approximation must be
the result itself. Of `|a| = m · 2ᵉ`, m odd, and `b = k / 2ᵈ`, that is a power of two (m = 1), or a power of a root of |a|
so small that its odd part has no more than 54 bits. -/

/-- The odd part of `m`, and the exponent that goes with it. -/
def oddPart : Nat → Nat → Int → Nat × Int
  | 0, m, e => (m, e)
  | fuel + 1, m, e => if m % 2 = 0 then oddPart fuel (m / 2) (e + 1) else (m, e)

/-- `(m · 2ᵉ)ⁿ`, where m is 1 or the odd part of the result may have 54 bits or fewer. -/
def exactPower (m : Nat) (e n : Int) : Option Approx :=
  if m = 1 then
    some { neg := false, num := 2 ^ (min (max (e * n) (-1200)) 1100 + 1200).toNat, den := 2 ^ 1200 }
  else if 0 ≤ n ∧ n ≤ 34 then
    some { neg := false, num := m ^ n.toNat * 2 ^ (e * n).toNat, den := 2 ^ (-(e * n)).toNat }
  else none

/-- `(m · 2ᵉ) ^ (±u / 2ᵈ)`: while the exponent is not whole, the square root of the base is taken, if it has one. -/
def exactRoots : Nat → Nat → Int → Bool → Nat → Nat → Option Approx
  | 0, _, _, _, _, _ => none
  | fuel + 1, m, e, neg, u, d =>
    if u % 2 ^ d = 0 then exactPower m e (if neg then -((u / 2 ^ d : Nat) : Int) else ((u / 2 ^ d : Nat) : Int))
    else
      let r := sqrtBits 27 m 0
      if m = 1 ∧ e = 0 then exactPower 1 0 0
      else if r * r = m ∧ e % 2 = 0 then exactRoots fuel r (e / 2) neg u (d - 1)
      else none

/-- `|a|^b` where it is a binary fraction. -/
def powExact (a b : F64) : Option Approx :=
  let p := if expField a = 0 then oddPart 52 (fracField a) (-1074)
    else oddPart 52 (2 ^ 52 + fracField a) ((expField a : Int) - 1075)
  exactRoots 12 p.1 p.2 (signBit b) (unitsMag b) 1074

/-- A finite value is an integer. -/
def isInteger (b : F64) : Bool := decide (unitsMag b % 2 ^ 1074 = 0)

/-- A finite value is an odd integer. -/
def isOddInteger (b : F64) : Bool := isInteger b && decide (unitsMag b / 2 ^ 1074 % 2 = 1)

/-- `a^b` for finite nonzero `a` and `b`; with a negative base, for an integer `b`. -/
def powApprox (a b : F64) : Approx :=
  let p := (powExact a b).getD (powBySeries a b)
  { p with neg := signBit a && isOddInteger b }

end Sys2Proof.Machine
end

