-- ==== Sys2Proof/Machine/Transcendental.lean ====
section
/-!
DEFINITION. The transcendental primitives SIN, COS, TAN, ASIN and POW (R11). They are OPEN: configuration functions of
which only R11's properties (a) to (f) hold. Each is a free function (an argument here; `Config.freeSin` … in the
configured machine) with those properties imposed on it: the special cases first, and elsewhere the free function's
value wherever it lies within one unit in the last place of the exact result (log 5, 6).
-/
namespace Sys2Proof.Machine

/-- The five primitives of one configuration (R5). -/
structure Transcendentals where
  sin : F64 → F64
  cos : F64 → F64
  tan : F64 → F64
  asin : F64 → F64
  pow : F64 → F64 → F64

/-! ### R11 (b): within one unit in the last place -/

/-- The binary64 value nearest to an approximated result. -/
def nearest (a : Approx) : F64 := ofSignMag a.neg (roundMag (a.num * 2 ^ 1074) a.den)

/-- A finite value within one unit in the last place of an approximated result: the unit is that of the result's own
binade (log 6). -/
def withinOneUlp (a : Approx) (v : F64) : Bool :=
  let n : Nat := a.num * 2 ^ 1074
  let exact : Int := if a.neg then -(n : Int) else (n : Int)
  isFinite v && decide ((units v * a.den - exact).natAbs ≤ a.den * 2 ^ ulpExp n a.den)

/-- A free value kept within one unit in the last place of the exact result. (A result that overflows has no finite value
so near, and is then `nearest`, an infinity, by R8.) -/
def keepWithin (a : Approx) (v : F64) : F64 := if withinOneUlp a v then v else nearest a

/-! ### The primitives -/

/-- A sine or cosine of a nonzero argument is below 1 in magnitude, so nothing beyond ±1 lies within one unit in its last
place (R11 (b)); this says so once, whatever the approximation. -/
def keepWithinOne (a : Approx) (v : F64) : F64 := clamp (keepWithin a v) (fneg Config.one) Config.one

/-- SIN (R11 (b), (c), (f)). -/
@[irreducible] def sinOf (free : F64 → F64) (x : F64) : F64 :=
  if !isFinite x then producedNaN .sin x Config.zero
  else if isZero x then x
  else keepWithinOne (sinApprox x) (free x)

/-- COS (R11 (b), (c), (f)). -/
@[irreducible] def cosOf (free : F64 → F64) (x : F64) : F64 :=
  if !isFinite x then producedNaN .cos x Config.zero
  else if isZero x then Config.one
  else keepWithinOne (cosApprox x) (free x)

/-- TAN (R11 (b), (f)); TAN(±0) = ±0, the exact result, by C99 Annex F (log 8). -/
@[irreducible] def tanOf (free : F64 → F64) (x : F64) : F64 :=
  if !isFinite x then producedNaN .tan x Config.zero
  else if isZero x then x
  else keepWithin (tanApprox x) (free x)

/-- ASIN (R11 (b), (c), (d), (f)): NaN beyond ±1, ±HALF_PI at ±1, and never outside [−HALF_PI, HALF_PI]. -/
@[irreducible] def asinOf (free : F64 → F64) (x : F64) : F64 :=
  if isNaN x || fgt (fabs x) Config.one then producedNaN .asin x Config.zero
  else if isZero x then x
  else if fabs x = Config.one then ofSignMag (signBit x) (magBits Config.halfPi)
  else clamp (keepWithin (asinApprox x) (free x)) (fneg Config.halfPi) Config.halfPi

/-- 2ⁿ, exactly, where it is representable; +0 below the subnormal range, +∞ above the largest finite value (R11 (e)). -/
def powTwo (n : Int) : F64 :=
  if n < -1074 then Config.zero
  else if 1023 < n then ofSignMag false infMag
  else ofSignMag false (roundMag (2 ^ (n + 1074).toNat) 1)

/-- POW with an infinite exponent: toward 0 or ∞ by whether |a| is below or above 1; 1 where it is 1. -/
def powInfExponent (a b : F64) : F64 :=
  if magBits a = magBits Config.one then Config.one
  else if (fgt (fabs a) Config.one) != signBit b then ofSignMag false infMag
  else Config.zero

/-- POW with a finite exponent and a base that is zero or infinite: 0 or ∞, with the base's sign for an odd integer. -/
def powExtremeBase (a b : F64) : F64 :=
  ofSignMag (signBit a && isOddInteger b) (if isInf a != signBit b then infMag else 0)

/-- POW (R11 (b), (e), (f)). The rules call it as POW(10, b) (R106) and POW(2, n) (R192). An exponent of ±0 gives 1 (R106),
and so does a base of 1. The special cases that R11 (f) does not list are C99 Annex F's (log 8). -/
@[irreducible] def powOf (free : F64 → F64 → F64) (a b : F64) : F64 :=
  if isNaN a || isNaN b then producedNaN .pow a b
  else if isZero b || decide (a = Config.one) then Config.one
  else if isInf b then powInfExponent a b
  else if isZero a || isInf a then powExtremeBase a b
  else if signBit a && !isInteger b then producedNaN .pow a b
  else if a = Config.two && isInteger b then powTwo (units b / 2 ^ 1074)
  else keepWithin (powApprox a b) (free a b)

/-! ### Configurations -/

/-- The primitives of a configuration, from its five free functions. -/
def Transcendentals.ofFree (sin cos tan asin : F64 → F64) (pow : F64 → F64 → F64) : Transcendentals :=
  { sin := sinOf sin, cos := cosOf cos, tan := tanOf tan, asin := asinOf asin, pow := powOf pow }

/-- The primitives of this hardware: whatever its configuration makes them (R5, R11). -/
def Transcendentals.configured : Transcendentals :=
  .ofFree Config.freeSin Config.freeCos Config.freeTan Config.freeAsin Config.freePow

/-- One concrete configuration, for evaluation in tests only: every primitive rounds the exact result to the nearest
binary64 value. (A NaN is never within one unit in the last place, so the free functions drop out.) -/
def Transcendentals.nearestRounding : Transcendentals :=
  let nan : F64 := 0x7FF8000000000000
  .ofFree (fun _ => nan) (fun _ => nan) (fun _ => nan) (fun _ => nan) (fun _ _ => nan)

end Sys2Proof.Machine
end

