-- ==== Sys2Proof/Machine/BiquadFilterBank.lean ====
section
/-!
DEFINITION. The biquad_filter_bank sub-block (41_biquad_filter_bank.md): coefficients (R120 to R126), mid-roller (R129, R130),
biquad tick (R131), head-bump resonator (R132, R133) and input biquad (R134), each on one path's copy of the state (R135).
-/
namespace Sys2Proof.Machine

/-- A biquad's coefficient record (R121). -/
structure Coefs where
  b0 : F64
  b1 : F64
  b2 : F64
  a1 : F64
  a2 : F64
  deriving DecidableEq, Repr

/-- The coefficients of one PROC, shared by both paths and not retained (R126, R24). -/
structure CoefSet where
  mid : Coefs
  high : Coefs
  /-- HeadBumpFreq (R124). -/
  hbf : F64
  /-- RollAmount (R125). -/
  roll : F64
  deriving DecidableEq, Repr

/-- `BQCOEF(f, Q)` (R121). -/
def bqcoef (L : Transcendentals) (form : NumeratorForm) (f q : F64) : Coefs :=
  let k := L.tan (fmul Config.pi f)
  let norm := fdiv Config.one (fadd (fadd Config.one (fdiv k q)) (fmul k k))
  let b0 := fmul (fdiv k q) norm
  let a1 := fmul (fmul Config.two (fsub (fmul k k) Config.one)) norm
  let a2 := fmul (fadd (fsub Config.one (fdiv k q)) (fmul k k)) norm
  match form with
  | .doc => { b0 := b0, b1 := fneg b0, b2 := Config.zero, a1 := a1, a2 := a2 }
  | .origin => { b0 := b0, b1 := Config.zero, b2 := fneg b0, a1 := a1, a2 := a2 }

/-- `COEFFS(sr)` (R120, R122 to R126), computed as those rules are written for every rate. DESIGN CHOICE (log 15): R238 names a
non-finite rate as one that gives a NaN coefficient set, and R120 to R125 give that for a NaN and for ±0 but finite
coefficients for ±∞ (TAN(±0) = ±0, so b0 is ±0, a1 is −2, a2 is 1). The formulas are followed. -/
def coeffs (L : Transcendentals) (form : NumeratorForm) (sr : F64) : CoefSet :=
  let scale := fdiv sr Config.refRate
  { mid := bqcoef L form (fdiv Config.midFreq scale) Config.midQ
    high := bqcoef L form (fdiv Config.highFreq scale) Config.highQ
    hbf := fdiv Config.headBumpBase scale
    roll := fdiv (fsub Config.one Config.softness) scale }

/-- The mid-roller's new accumulator (R129). -/
def midRoller (mr x roll : F64) : F64 := fadd (fmul mr (fsub Config.one roll)) (fmul x roll)

/-- `BQTICK(v, c, B)`: the output `t` and the new history; the new s1 uses the old s2 (R131). -/
def bqtick (v : F64) (c : Coefs) (h : History) : F64 × History :=
  let t := fadd (fmul v c.b0) h.s1
  (t, { s1 := fadd (fsub (fmul v c.b1) (fmul t c.a1)) h.s2
        s2 := fsub (fmul v c.b2) (fmul t c.a2) })

/-- The head bump's drive, cubic damping and sine (R132). -/
def headBumpDrive (L : Transcendentals) (hb x hbf : F64) : F64 :=
  let h := fadd hb (fmul x Config.bumpDrive)
  L.sin (fsub h (fmul (fmul (fmul h h) h) hbf))

/-- `ASIN(CLAMP(t, −1, 1))` (R133, R134). -/
def clampedAsin (L : Transcendentals) (t : F64) : F64 := L.asin (clamp t (fneg Config.one) Config.one)

/-- MID_ROLLER's state change on the active path (R129). -/
def midRollerStage (c : CoefSet) (x : F64) (p : PathState) : PathState := { p with mr := midRoller p.mr x c.roll }

/-- The highs split, from the mid-roller just updated (R130). -/
def highsOf (x : F64) (p : PathState) : F64 := fsub x p.mr

/-- HEAD_BUMP on the active path (R132, R133). -/
def headBumpStage (L : Transcendentals) (c : CoefSet) (x : F64) (p : PathState) : PathState :=
  let r := bqtick (headBumpDrive L p.hb x c.hbf) c.mid p.bqm
  { p with hb := clampedAsin L r.1, bqm := r.2 }

/-- INPUT_BIQUAD on the active path: the processed sample and the new state (R134). -/
def inputBiquadStage (L : Transcendentals) (c : CoefSet) (x : F64) (p : PathState) : F64 × PathState :=
  let r := bqtick (L.sin x) c.high p.bqh
  (clampedAsin L r.1, { p with bqh := r.2 })

end Sys2Proof.Machine
end

