-- ==== Sys2Proof/Machine/GainStager.lean ====
section
/-!
DEFINITION. The top-level stages of PROC (40_core_commands.md): input guard, headroom cut, near-zero floor, GainStager
(R103 to R107), and the output restore (R110).
-/
namespace Sys2Proof.Machine

/-- INPUT_GUARD: with the guard on, a non-finite sample becomes +0.0 (R103). -/
def inputGuard (guard : Bool) (xin : F64) : F64 := if guard && !isFinite xin then Config.zero else xin

/-- The headroom cut, `x0 × GAIN_CUT` (R104). -/
def headroomCut (x0 : F64) : F64 := fmul x0 Config.gainCut

/-- FLOOR: a near-zero cut sample is replaced by DITHER × FLOOR_SCALE (R105). -/
def nearZeroFloor (x1 : F64) (dither : Word32) : F64 :=
  if flt (fabs x1) Config.floorThresh then fmul (toF64 dither) Config.floorScale else x1

/-- INPUT_GAIN: `POW(10, ((ctl − 0.5) × 24) / 20)` (R106). -/
def inputGain (L : Transcendentals) (ctl : F64) : F64 :=
  L.pow Config.ten (fdiv (fmul (fsub ctl Config.gainCenter) Config.gainRangeDb) Config.dbDiv)

/-- PRE_ATTENUATE: a gain below 1 is applied at once (R107). -/
def preAttenuate (x2 g : F64) : F64 := if flt g Config.one then fmul x2 g else x2

/-- The output restore, `y × GAIN_BOOST` (R110). -/
def outputRestore (y : F64) : F64 := fmul y Config.gainBoost

end Sys2Proof.Machine
end

