-- ==== Sys2Proof/Machine/HysteresisLimiter.lean ====
section
/-!
DEFINITION. The hysteresis_limiter sub-block (44_hysteresis_limiter.md): the four steps R180 to R183 in order, each seeing what
the steps before it wrote, and the safety clamp R185. LAST_OUT stores the y after R183 (R184).
-/
namespace Sys2Proof.Machine

/-- −LIMIT. -/
def negLimit : F64 := fneg Config.limit

/-- The blend `a × S + b × (1 − S)` of R180 to R183, with the unscaled SOFTNESS. -/
def blend (a b : F64) : F64 := fadd (fmul a Config.softness) (fmul b (fsub Config.one Config.softness))

/-- Upper look-back release: the new L (R180). -/
def upperRelease (l y : F64) : F64 :=
  if fge l Config.limit then (if flt y Config.limit then blend Config.limit y else Config.limit) else l

/-- Lower look-back release: the new L (R181). -/
def lowerRelease (l y : F64) : F64 :=
  if fle l negLimit then (if fgt y negLimit then blend negLimit y else negLimit) else l

/-- Upper ceiling: the new y (R182). -/
def upperCeiling (l y : F64) : F64 :=
  if fgt y Config.limit then (if flt l Config.limit then blend Config.limit l else Config.limit) else y

/-- Lower ceiling: the new y (R183). -/
def lowerCeiling (l y : F64) : F64 :=
  if flt y negLimit then (if fgt l negLimit then blend negLimit l else negLimit) else y

/-- The look-back value after R180 and R181. -/
def lookBack (lastOut y : F64) : F64 := lowerRelease (upperRelease lastOut y) y

/-- HYSTERESIS: the y after R183, which is also the new LAST_OUT (R180 to R184). -/
def hysteresis (lastOut y : F64) : F64 :=
  let l := lookBack lastOut y
  lowerCeiling l (upperCeiling l y)

/-- The safety clamp to ±LIMIT (R185). -/
def safetyClamp (y : F64) : F64 := clamp y negLimit Config.limit

end Sys2Proof.Machine
end

