-- ==== Sys2Proof/Machine/LfsrDitherInject.lean ====
section
/-!
DEFINITION. The lfsr_dither_inject sub-block (45_lfsr_dither_inject.md): the xorshift generator, the noise scaled to the
sample's exponent, and its injection.
-/
namespace Sys2Proof.Machine

/-- XS: `s ^= s<<13; s ^= s>>17; s ^= s<<5`, 32-bit unsigned (R191). -/
def xorshift32 (s : Word32) : Word32 :=
  let s := s ^^^ (s <<< 13)
  let s := s ^^^ (s >>> 17)
  s ^^^ (s <<< 5)

/-- NOISE: `((to_f64(s) − 0x7fffffff) × 1.1e-44) × POW(2, e + 62)`, s the generator's new state (R192). -/
def noiseOf (L : Transcendentals) (s : Word32) (e : Int) : F64 :=
  fmul (fmul (fsub (toF64 s) Config.ditherOffset) Config.ditherK) (L.pow Config.two (ofInt (e + Config.ditherExpBias)))

/-- The injection, `y + noise` (R193). -/
def inject (y noise : F64) : F64 := fadd y noise

end Sys2Proof.Machine
end

