-- ==== Sys2Proof/Machine/NonlinearSaturator.lean ====
section
/-!
DEFINITION. The nonlinear_saturator sub-block (43_nonlinear_saturator.md): ground and deferred boost before the soft knee
(R160, R161); spiral, head-bump restraint and the add-backs after it (R162 to R167).
-/
namespace Sys2Proof.Machine

/-- The ground residual, `dry − y` (R160). -/
def groundOf (dry y : F64) : F64 := fsub dry y

/-- BOOST: a gain above 1 is applied here (R161). -/
def deferredBoost (y g : F64) : F64 := if fgt g Config.one then fmul y g else y

/-- The spiral's domain clamp (R162). -/
def spiralClamp (y : F64) : F64 := clamp y (fneg Config.spiralBound) Config.spiralBound

/-- SPIRAL: `SIN(y × |y|) / |y|`, the divisor guarded to 1 where `|y| == 0` (R163). -/
def spiral (L : Transcendentals) (y : F64) : F64 :=
  let ay := fabs y
  fdiv (L.sin (fmul y ay)) (if feq ay Config.zero then Config.one else ay)

/-- The suppress amount (R164). -/
def suppressOf (y : F64) : F64 := fmul (fsub Config.one (fabs y)) Config.suppressK

/-- The restraint of one head-bump accumulator: strictly above suppress it loses suppress, then strictly below −suppress it
gains it, otherwise it is left as it is (R165). -/
def restrain (suppress hb : F64) : F64 :=
  let hb := if fgt hb suppress then fsub hb suppress else hb
  if flt hb (fneg suppress) then fadd hb suppress else hb

/-- RESTRAIN_HEAD_BUMP: both accumulators, whichever path is active (R164, R165). -/
def restrainHeadBump (y : F64) (st : ProcessorState) : ProcessorState :=
  let suppress := suppressOf y
  { st with
    pathA := { st.pathA with hb := restrain suppress st.pathA.hb }
    pathB := { st.pathB with hb := restrain suppress st.pathB.hb } }

/-- The ground add-back (R166). -/
def groundAddBack (y ground : F64) : F64 := fadd y ground

/-- The head-bump mix, `y + (HB[0] + HB[1]) × BUMP_MIX` (R167). -/
def headBumpMix (y hb0 hb1 : F64) : F64 := fadd y (fmul (fadd hb0 hb1) Config.bumpMix)

end Sys2Proof.Machine
end

