-- ==== Sys2Proof/Machine/Flags.lean ====
section
/-!
DEFINITION. The two flag-like bits (R31): PATH_SEL, which PROC toggles, and STATUS.ILL, which an illegal command sets.
There are no condition codes and no floating-point flags (R31, R211).
-/
namespace Sys2Proof.Machine

/-- `st.PATH_SEL <- 1 − p` (R128). -/
def togglePath (st : ProcessorState) : ProcessorState := { st with pathSel := 1 - st.pathSel }

/-- `STATUS.ILL <- 1` (R212). -/
def setIll (s : State) : State := { s with ill := 1 }

/-- `STATUS.ILL <- 0`. -/
def clearIll (s : State) : State := { s with ill := 0 }

/-- A write to STATUS clears ILL when bit 0 of the word is 1 and changes nothing otherwise; bits 63:1 are ignored (R28, R52). -/
def writeStatus (w : Word64) (s : State) : State := if w.extractLsb' 0 1 = 1 then clearIll s else s

/-- The STATUS word: ILL in bit 0, bits 63:1 zero (R28, R52). -/
def statusWord (s : State) : Word64 := s.ill.zeroExtend 64

end Sys2Proof.Machine
end

