-- ==== Sys2Proof/Machine/Operands.lean ====
section
/-!
DEFINITION. The operands of a command (R76): PROC's three values and WRST's word come from the input ports, unchanged, not
rounded, clamped or checked. The register index of RDST and WRST is the decoder's (`regOfIndex`).
-/
namespace Sys2Proof.Machine

/-- The operands of one PROC. -/
structure ProcOperands where
  /-- `xin = f64_of_bits(din_sample)`. -/
  sample : F64
  /-- `sr = f64_of_bits(din_rate)`. -/
  rate : F64
  /-- `ctl = f64_of_bits(din_control)`. -/
  control : F64
  deriving DecidableEq, Repr

/-- PROC's operands, from its ports (R76, R101). -/
def procOperands (p : Ports) : ProcOperands :=
  { sample := p.dinSample, rate := p.dinRate, control := p.dinControl }

/-- WRST's word, `w = din_wdata` (R76, R113). -/
def wrstWord (p : Ports) : Word64 := p.dinWdata

end Sys2Proof.Machine
end

