-- ==== Sys2Proof/Syntax.lean ====
section
/-!
DEFINITION. The five commands of the command interface (R73) and the names of the sixteen state registers (R51).
The operand values of PROC and WRST come on ports, not in the command word (R76), so no constructor carries them.
-/
namespace Sys2Proof

/-- The state registers the host reaches by index, in the order of the index map (R51). -/
inductive StateReg where
  | mrA | mrB | hbA | hbB
  | bqmAS1 | bqmAS2 | bqmBS1 | bqmBS2
  | bqhAS1 | bqhAS2 | bqhBS1 | bqhBS2
  | lastOut | pathSel | dither | status
  deriving DecidableEq, Repr

/-- The commands (R73), one constructor per row of the opcode table. -/
inductive Instr where
  /-- NOP: no operation (R100). -/
  | nop
  /-- PROC: process one sample (R101). -/
  | proc
  /-- INIT: reinitialise the instance (R111). -/
  | init
  /-- RDST: read one state register (R112). -/
  | rdst (r : StateReg)
  /-- WRST: write one state register (R113). -/
  | wrst (r : StateReg)
  deriving DecidableEq, Repr

end Sys2Proof
end

