-- ==== Sys2Proof/Machine/Ops.lean ====
section
/-!
DEFINITION. The named operations over the state: selecting a path's copy, the state access primitives StateRead and
StateWrite (R52), responses (R81), reset (R230), the one synchronous event (R212), and the observation of a run (R242).
-/
namespace Sys2Proof.Machine

/-! ### The two paths (R25, R127): index 0 is path A, index 1 is path B -/

/-- The path-p copies of MR, HB, BQM and BQH. -/
def pathOf (st : ProcessorState) (p : BitVec 1) : PathState := if p = 0 then st.pathA else st.pathB

/-- Replaces the path-p copies and leaves the other path's alone (R135). -/
def setPathOf (st : ProcessorState) (p : BitVec 1) (v : PathState) : ProcessorState :=
  if p = 0 then { st with pathA := v } else { st with pathB := v }

/-! ### State access primitives (R52, R53) -/

/-- `StateRead(i)`: the whole word of a register, the narrow ones zero-extended. -/
def stateRead (r : StateReg) (s : State) : Word64 :=
  match r with
  | .mrA => s.core.pathA.mr
  | .mrB => s.core.pathB.mr
  | .hbA => s.core.pathA.hb
  | .hbB => s.core.pathB.hb
  | .bqmAS1 => s.core.pathA.bqm.s1
  | .bqmAS2 => s.core.pathA.bqm.s2
  | .bqmBS1 => s.core.pathB.bqm.s1
  | .bqmBS2 => s.core.pathB.bqm.s2
  | .bqhAS1 => s.core.pathA.bqh.s1
  | .bqhAS2 => s.core.pathA.bqh.s2
  | .bqhBS1 => s.core.pathB.bqh.s1
  | .bqhBS2 => s.core.pathB.bqh.s2
  | .lastOut => s.core.lastOut
  | .pathSel => s.core.pathSel.zeroExtend 64
  | .dither => s.core.dither.zeroExtend 64
  | .status => statusWord s

/-- Changes path A's registers. -/
def mapPathA (f : PathState → PathState) (s : State) : State := { s with core := { s.core with pathA := f s.core.pathA } }

/-- Changes path B's registers. -/
def mapPathB (f : PathState → PathState) (s : State) : State := { s with core := { s.core with pathB := f s.core.pathB } }

/-- `StateWrite(i, w)`: all 64 bits of a binary64 register, bit 0 of PATH_SEL, bits 31:0 of DITHER, write 1 to clear for
STATUS. Nothing else changes. -/
def stateWrite (r : StateReg) (w : Word64) (s : State) : State :=
  match r with
  | .mrA => mapPathA (fun p => { p with mr := w }) s
  | .mrB => mapPathB (fun p => { p with mr := w }) s
  | .hbA => mapPathA (fun p => { p with hb := w }) s
  | .hbB => mapPathB (fun p => { p with hb := w }) s
  | .bqmAS1 => mapPathA (fun p => { p with bqm := { p.bqm with s1 := w } }) s
  | .bqmAS2 => mapPathA (fun p => { p with bqm := { p.bqm with s2 := w } }) s
  | .bqmBS1 => mapPathB (fun p => { p with bqm := { p.bqm with s1 := w } }) s
  | .bqmBS2 => mapPathB (fun p => { p with bqm := { p.bqm with s2 := w } }) s
  | .bqhAS1 => mapPathA (fun p => { p with bqh := { p.bqh with s1 := w } }) s
  | .bqhAS2 => mapPathA (fun p => { p with bqh := { p.bqh with s2 := w } }) s
  | .bqhBS1 => mapPathB (fun p => { p with bqh := { p.bqh with s1 := w } }) s
  | .bqhBS2 => mapPathB (fun p => { p with bqh := { p.bqh with s2 := w } }) s
  | .lastOut => { s with core := { s.core with lastOut := w } }
  | .pathSel => { s with core := { s.core with pathSel := w.extractLsb' 0 1 } }
  | .dither => { s with core := { s.core with dither := w.extractLsb' 0 32 } }
  | .status => writeStatus w s

/-! ### Responses, reset, the illegal-command event -/

/-- Gives one response (R81). -/
def respond (r : Response) (s : State) : State := { s with responses := s.responses ++ [r] }

/-- Every register at its reset value (R34, R230): what `rst` and INIT both do (R231). The input ports, what the host
has yet to issue, the responses already given and the fault log are not the block's registers. -/
def resetRegisters (s : State) : State := clearIll { s with core := ProcessorState.reset }

/-- `raise IllegalCommand` (R7, R212): the block's one exceptional outcome. STATUS.ILL is set and no other register
changes; there is no response, nothing is saved and control goes nowhere (R216), so there is nothing to return from (R217).
The event goes into the model's fault log. -/
def raiseIllegalCommand (s : State) : State := setIll { s with faultLog := s.faultLog ++ [.illegalCommand] }

/-- The code of an event in the cause table (R213); no register holds it. -/
def causeCode (e : FaultEvent) : Nat :=
  match e with
  | .illegalCommand => 0

/-! ### Observation (R242) -/

/-- All sixteen registers in index order (R51). -/
def allRegs : List StateReg :=
  [.mrA, .mrB, .hbA, .hbB, .bqmAS1, .bqmAS2, .bqmBS1, .bqmBS2,
    .bqhAS1, .bqhAS2, .bqhBS1, .bqhBS2, .lastOut, .pathSel, .dither, .status]

/-- What can be seen of a run at its end: the responses in order, and the sixteen registers (R242). -/
def observation (s : State) : List Response × List Word64 := (s.responses, allRegs.map (fun r => stateRead r s))

end Sys2Proof.Machine
end

