-- ==== Sys2Proof/Machine/SoftKneeCompressor.lean ====
section
/-!
DEFINITION. The soft_knee_compressor sub-block (42_soft_knee_compressor.md): a memoryless knee driven by the highs signal.
-/
namespace Sys2Proof.Machine

/-- The knee amount, `1 − COS(min(|highs| × π/2, π/2))` (R150). -/
def kneeAmount (L : Transcendentals) (highs : F64) : F64 :=
  let a := fmul (fabs highs) Config.halfPi
  let a := if fgt a Config.halfPi then Config.halfPi else a
  fsub Config.one (L.cos a)

/-- Polarity: subtracted for `highs > 0`, added for `highs < 0`, otherwise not applied (R151). -/
def applyKnee (y highs soft : F64) : F64 :=
  let y := if fgt highs Config.zero then fsub y soft else y
  if flt highs Config.zero then fadd y soft else y

/-- SOFT_KNEE (R150, R151). -/
def softKnee (L : Transcendentals) (y highs : F64) : F64 := applyKnee y highs (kneeAmount L highs)

end Sys2Proof.Machine
end

