-- ==== Sys2Proof/Machine/Proc.lean ====
section
/-!
DEFINITION. PROC's stages in their fixed order (R101), as a function of a configuration, the ProcessorState and the
operands. A temporary of the sample is a value of these functions and is kept nowhere (R32).
-/
namespace Sys2Proof.Machine

/-- The parameters PROC depends on (R5). -/
structure ProcConfig where
  lib : Transcendentals
  form : NumeratorForm
  guard : Bool

/-- This hardware's parameters (R5). -/
def ProcConfig.hardware : ProcConfig :=
  { lib := Transcendentals.configured, form := Config.numeratorForm, guard := Config.inputFiniteGuard }

/-- The front end: guard, cut, floor and pre-attenuation; `x`, which is also `dry` (R103 to R108). -/
def frontEnd (cfg : ProcConfig) (dither : Word32) (o : ProcOperands) : F64 :=
  let x0 := inputGuard cfg.guard o.sample
  let x1 := headroomCut x0
  let x2 := nearZeroFloor x1 dither
  preAttenuate x2 (inputGain cfg.lib o.control)

/-- What the filter bank gives: the highs, the processed sample and the changed state. -/
structure BankResult where
  highs : F64
  y : F64
  st : ProcessorState
  deriving DecidableEq, Repr

/-- The filter bank on the active path, and the path toggle (R120 to R134, R128). -/
def filterBank (cfg : ProcConfig) (sr x : F64) (st : ProcessorState) : BankResult :=
  let c := coeffs cfg.lib cfg.form sr
  let p := st.pathSel
  let rolled := midRollerStage c x (pathOf st p)
  let bumped := headBumpStage cfg.lib c x rolled
  let r := inputBiquadStage cfg.lib c x bumped
  { highs := highsOf x rolled, y := r.1, st := togglePath (setPathOf st p r.2) }

/-- The sample after the spiral (R161, R150, R151, R162, R163). -/
def saturated (cfg : ProcConfig) (g : F64) (b : BankResult) : F64 :=
  spiral cfg.lib (spiralClamp (softKnee cfg.lib (deferredBoost b.y g) b.highs))

/-- The sample after the ground and head-bump add-backs, the limiter's input; `st` holds the restrained accumulators
(R166, R167). -/
def addBacks (y ground : F64) (st : ProcessorState) : F64 :=
  headBumpMix (groundAddBack y ground) st.pathA.hb st.pathB.hb

/-- The dithered sample before the output restore (R190, R192, R193); `s` is the generator's new state. -/
def dithered (cfg : ProcConfig) (s : Word32) (y : F64) : F64 := inject y (noiseOf cfg.lib s (frexpExp y))

/-- What one sample leaves: the output, and ProcessorState after it. -/
structure ProcResult where
  out : F64
  st : ProcessorState
  deriving DecidableEq, Repr

/-- PROC: one sample through every stage, in R101's order. -/
def process (cfg : ProcConfig) (st : ProcessorState) (o : ProcOperands) : ProcResult :=
  let g := inputGain cfg.lib o.control
  let x := frontEnd cfg st.dither o
  let b := filterBank cfg o.rate x st
  let y := saturated cfg g b
  let st' := restrainHeadBump y b.st
  let y := addBacks y (groundOf x b.y) st'
  let lastOut := hysteresis st.lastOut y
  let s := xorshift32 st.dither
  { out := outputRestore (dithered cfg s (safetyClamp lastOut))
    st := { st' with lastOut := lastOut, dither := s } }

end Sys2Proof.Machine
end

