-- ==== Sys2Proof/Machine/Commands.lean ====
section
/-!
DEFINITION. The meaning of each command (40_core_commands.md). No command raises anything (R210) or transfers control
(R114), so each answers a next state.
-/
namespace Sys2Proof.Machine

/-- NOP: no effect, no response (R100). -/
def execNop (s : State) : Host.Outcome State Fault Refusal := .next s

/-- PROC under a configuration: ProcessorState after one sample, and the output as response (R101). -/
def procCommand (cfg : ProcConfig) (s : State) : State :=
  let r := process cfg s.core (procOperands s.ports)
  respond (.sample r.out) { s with core := r.st }

/-- PROC: process one sample, on this hardware's configuration (R101, R115). -/
def execProc (s : State) : Host.Outcome State Fault Refusal := .next (procCommand ProcConfig.hardware s)

/-- INIT: every register to its reset value (R111, R231). -/
def execInit (s : State) : Host.Outcome State Fault Refusal := .next (resetRegisters s)

/-- RDST: the register's word as response (R112). -/
def execRdst (r : StateReg) (s : State) : Host.Outcome State Fault Refusal := .next (respond (.data (stateRead r s)) s)

/-- WRST: `StateWrite(i, din_wdata)` (R113). -/
def execWrst (r : StateReg) (s : State) : Host.Outcome State Fault Refusal := .next (stateWrite r (wrstWord s.ports) s)

end Sys2Proof.Machine
end

