-- ==== Sys2Proof/Machine/Dispatch.lean ====
section
/-!
DEFINITION. One arm per command.
-/
namespace Sys2Proof.Machine

/-- The effect of a legal command, its operands on the ports. -/
def exec (i : Instr) (s : State) : Host.Outcome State Fault Refusal :=
  match i with
  | .nop => Sys2Proof.Machine.execNop s
  | .proc => Sys2Proof.Machine.execProc s
  | .init => Sys2Proof.Machine.execInit s
  | .rdst r => Sys2Proof.Machine.execRdst r s
  | .wrst r => Sys2Proof.Machine.execWrst r s

end Sys2Proof.Machine
end

