-- ==== Sys2Proof/WellFormed.lean ====
section
/-!
DEFINITION. What makes a command word well formed: the legality predicate of R74, one check per conjunct.
A term of `Instr` needs no check of its own: its only field is a register name, and all sixteen are mapped (R55).
-/
namespace Sys2Proof

/-- OP, bits 3:0 of the command word (R70). -/
def opField (cmd : Word32) : BitVec 4 := cmd.extractLsb' 0 4

/-- IDX, bits 7:4 of the command word (R70). -/
def idxField (cmd : Word32) : BitVec 4 := cmd.extractLsb' 4 4

/-- RSV, bits 31:8 of the command word (R70). -/
def rsvField (cmd : Word32) : BitVec 24 := cmd.extractLsb' 8 24

/-- RSV must be 0 in every command (R70). -/
def rsvOk (cmd : Word32) : Bool := rsvField cmd == 0

/-- OP must name one of the five commands; 0x5 to 0xF are reserved (R75). -/
def opOk (cmd : Word32) : Bool := decide ((opField cmd).toNat ≤ 4)

/-- IDX must be 0 unless OP is RDST (3) or WRST (4) (R70). -/
def idxOk (cmd : Word32) : Bool := opField cmd == 3 || opField cmd == 4 || idxField cmd == 0

/-- The legality predicate `legal(cmd)` (R74). -/
def legal (cmd : Word32) : Bool := rsvOk cmd && opOk cmd && idxOk cmd

end Sys2Proof
end

