-- ==== Sys2Proof/Decode.lean ====
section
/-!
DEFINITION. From a command word to a command and back (R70, R73, R74, R76). Decoding is total: a word that R74 calls
illegal is rejected under the name of the first check it fails. The encoder follows it.
-/
namespace Sys2Proof

/-- Why a command word is illegal (R75). The block itself does not tell these apart: each sets STATUS.ILL (R212, R213). -/
inductive IllegalWord where
  /-- RSV, bits 31:8, is not 0. -/
  | nonzeroRsv
  /-- OP is 0x5 to 0xF, reserved for future commands. -/
  | reservedOp
  /-- IDX is not 0 on NOP, PROC or INIT. -/
  | nonzeroIdx
  deriving DecidableEq, Repr

/-- The register an index selects (R51); all sixteen indices are mapped (R55). -/
def regOfIndex (i : BitVec 4) : StateReg :=
  match i.toNat with
  | 0 => .mrA | 1 => .mrB | 2 => .hbA | 3 => .hbB
  | 4 => .bqmAS1 | 5 => .bqmAS2 | 6 => .bqmBS1 | 7 => .bqmBS2
  | 8 => .bqhAS1 | 9 => .bqhAS2 | 10 => .bqhBS1 | 11 => .bqhBS2
  | 12 => .lastOut | 13 => .pathSel | 14 => .dither | _ => .status

/-- The index of a register (R51). -/
def indexOfReg (r : StateReg) : BitVec 4 :=
  match r with
  | .mrA => 0 | .mrB => 1 | .hbA => 2 | .hbB => 3
  | .bqmAS1 => 4 | .bqmAS2 => 5 | .bqmBS1 => 6 | .bqmBS2 => 7
  | .bqhAS1 => 8 | .bqhAS2 => 9 | .bqhBS1 => 10 | .bqhBS2 => 11
  | .lastOut => 12 | .pathSel => 13 | .dither => 14 | .status => 15

/-- A command whose IDX field must be 0 (R70). -/
def withoutIdx (cmd : Word32) (i : Instr) : Except IllegalWord Instr :=
  if idxField cmd = 0 then .ok i else .error .nonzeroIdx

/-- The command a word stands for, or why it is illegal (R73, R74, R75). -/
def decode (cmd : Word32) : Except IllegalWord Instr :=
  if rsvField cmd ≠ 0 then .error .nonzeroRsv
  else
    match (opField cmd).toNat with
    | 0 => withoutIdx cmd .nop
    | 1 => withoutIdx cmd .proc
    | 2 => withoutIdx cmd .init
    | 3 => .ok (.rdst (regOfIndex (idxField cmd)))
    | 4 => .ok (.wrst (regOfIndex (idxField cmd)))
    | _ => .error .reservedOp

/-- A command word with RSV = 0: `idx << 4 | op` (R70, R73). -/
def cmdWord (op idx : BitVec 4) : Word32 := (0#24) ++ idx ++ op

/-- The word of a command (R73). -/
def encode (i : Instr) : Word32 :=
  match i with
  | .nop => cmdWord 0 0
  | .proc => cmdWord 1 0
  | .init => cmdWord 2 0
  | .rdst r => cmdWord 3 (indexOfReg r)
  | .wrst r => cmdWord 4 (indexOfReg r)

/-- The decoder on a word given as a number, bit 0 the least significant bit of the command word; the bits from `nbits`
up are 0. Every command is one 32-bit word (R78). -/
def decodeTableWord (nbits w : Nat) : Option Instr :=
  if nbits ≤ 32 then (decode (BitVec.ofNat 32 (w % 2 ^ nbits))).toOption else none

end Sys2Proof
end

