-- ==== Sys2Proof/Machine/Fetch.lean ====
section
/-!
DEFINITION. How a command reaches the block: the host's next port values are put on the input ports (R71), one set per
command, in the order issued (R58; log 1).
-/
namespace Sys2Proof.Machine

/-- Takes one command off the host's list and puts its values on the input ports. -/
def present (p : Ports) (rest : List Ports) (s : State) : State := { s with ports := p, pending := rest }

/-- Adds commands at the end of what the host has issued. -/
def issue (ps : List Ports) (s : State) : State := { s with pending := s.pending ++ ps }

/-- Port values whose command word is the `nbits` low bits of `w`, the data ports as in `p`, `rst` not asserted. -/
def portsForWord (p : Ports) (nbits w : Nat) : Ports := { p with cmd := BitVec.ofNat 32 (w % 2 ^ nbits), rst := false }

/-- Puts a command word at the head of the host's list, with the data words now on the ports, so that the next step
executes it. -/
def placeWord (s : State) (nbits w : Nat) : State := { s with pending := portsForWord s.ports nbits w :: s.pending }

end Sys2Proof.Machine
end

