-- ==== Sys2Proof/Machine/Sequencer.lean ====
section
/-!
DEFINITION. What becomes of the next command the host has issued (R58, R212, R215, R230, R243).
-/
namespace Sys2Proof.Machine

/-- A command now on the ports of `s`. `rst` with it resets, and it is not executed (R215, R230); an illegal word raises
IllegalCommand (R212); a legal one is executed. -/
def runCommand (p : Ports) (s : State) : Host.Outcome State Fault Refusal :=
  if p.rst then .next (resetRegisters s)
  else
    match decode p.cmd with
    | .ok i => exec i s
    | .error _ => .next (raiseIllegalCommand s)

/-- The oldest issued command is presented and run; with nothing issued the block holds its state (R224, R243). -/
def runNext (s : State) : Host.Outcome State Fault Refusal :=
  match s.pending with
  | [] => .next s
  | p :: rest => runCommand p (present p rest s)

end Sys2Proof.Machine
end

