-- ==== Sys2Proof/Machine/Assembler.lean ====
section
/-!
DEFINITION. The lines of the assembler syntax (R79) and the pseudo-commands (R80), as the port values they put on the
block. A line here holds its operands as bits; Machine/AsmText.lean reads them from text.
-/
namespace Sys2Proof.Machine

/-- One assembler line (R79, R80). -/
inductive AsmLine where
  | nop
  | proc (sample rate control : F64)
  | init
  | rdst (r : StateReg)
  | wrst (r : StateReg) (w : Word64)
  /-- `.word`: a raw command word, legal or not. -/
  | word (cmd : Word32)
  /-- `CLRILL`. -/
  | clrill
  /-- `SEED <n>`. -/
  | seed (n : Word64)
  /-- `SETPATH <0|1>`. -/
  | setpath (p : BitVec 1)
  /-- `PROC0 <rate>, <control>`. -/
  | proc0 (rate control : F64)
  deriving DecidableEq, Repr

/-- The expansion of a pseudo-command (R80); any other line stands for itself. -/
def expandLine (l : AsmLine) : AsmLine :=
  match l with
  | .clrill => .wrst .status 1
  | .seed n => .wrst .dither n
  | .setpath p => .wrst .pathSel (p.zeroExtend 64)
  | .proc0 rate control => .proc Config.zero rate control
  | .nop => .nop
  | .proc sample rate control => .proc sample rate control
  | .init => .init
  | .rdst r => .rdst r
  | .wrst r w => .wrst r w
  | .word cmd => .word cmd

/-- The port values of a line that is no pseudo-command; a data port the line does not use is left at 0, and is ignored by
the command (R71). -/
def assembleCore (l : AsmLine) : Ports :=
  match l with
  | .nop => { Ports.idle with cmd := encode .nop }
  | .proc sample rate control =>
    { Ports.idle with cmd := encode .proc, dinSample := sample, dinRate := rate, dinControl := control }
  | .init => { Ports.idle with cmd := encode .init }
  | .rdst r => { Ports.idle with cmd := encode (.rdst r) }
  | .wrst r w => { Ports.idle with cmd := encode (.wrst r), dinWdata := w }
  | .word cmd => { Ports.idle with cmd := cmd }
  | .clrill | .seed _ | .setpath _ | .proc0 _ _ => Ports.idle

/-- The port values of a line. -/
def assemble (l : AsmLine) : Ports := assembleCore (expandLine l)

end Sys2Proof.Machine
end

