-- ==== Sys2Proof/Machine/AsmText.lean ====
section
/-!
DEFINITION. Reading the text of the assembler syntax (R79, R80): one command per line, `;` starts a comment, a decimal
operand is the nearest binary64 (R10). A text is a list of characters; a line that R79 and R80 do not allow is `none`.
What R79 leaves open about spelling (blanks, signs, exponents) is fixed in log 13.
-/
namespace Sys2Proof.Machine

/-! ### Characters -/

def isBlank (c : Char) : Bool := c == ' ' || c == '\t' || c == '\r'

/-- Without the blanks at both ends. -/
def trim (cs : List Char) : List Char := ((cs.dropWhile isBlank).reverse.dropWhile isBlank).reverse

/-- The pieces between the separators; there is always at least one. -/
def splitAtSep (sep : Char) : List Char → List (List Char)
  | [] => [[]]
  | c :: cs =>
    if c == sep then [] :: splitAtSep sep cs
    else
      match splitAtSep sep cs with
      | [] => [[c]]
      | piece :: rest => (c :: piece) :: rest

/-! ### Numbers -/

def digitValue (c : Char) : Option Nat :=
  if 48 ≤ c.toNat ∧ c.toNat ≤ 57 then some (c.toNat - 48)
  else if 65 ≤ c.toNat ∧ c.toNat ≤ 70 then some (c.toNat - 55)
  else if 97 ≤ c.toNat ∧ c.toNat ≤ 102 then some (c.toNat - 87)
  else none

/-- Digits of a base, read from the left onto an accumulator. -/
def digitsOnto (base : Nat) : Nat → List Char → Option Nat
  | acc, [] => some acc
  | acc, c :: cs =>
    match digitValue c with
    | some d => if d < base then digitsOnto base (acc * base + d) cs else none
    | none => none

/-- A number of one digit or more. -/
def parseNat (base : Nat) (cs : List Char) : Option Nat := if cs.isEmpty then none else digitsOnto base 0 cs

/-- `0x` and between `least` and `most` hex digits. -/
def parseHex (least most : Nat) (cs : List Char) : Option Nat :=
  match cs with
  | '0' :: 'x' :: ds => if least ≤ ds.length ∧ ds.length ≤ most then parseNat 16 ds else none
  | _ => none

/-- A sign, and what follows it. -/
def splitSign (cs : List Char) : Bool × List Char :=
  match cs with
  | '-' :: rest => (true, rest)
  | '+' :: rest => (false, rest)
  | rest => (false, rest)

/-- A decimal exponent; a number without one has exponent 0. -/
def parseExponent (cs : List Char) : Option Int :=
  let s := splitSign cs
  (parseNat 10 s.2).map (fun n => if s.1 then -(n : Int) else (n : Int))

/-- The binary64 value nearest to `±m × 10^e` (R10). -/
def decimalValue (neg : Bool) (m : Nat) (e : Int) : F64 :=
  ofSignMag neg (if 0 ≤ e then roundMag (m * 10 ^ e.toNat * 2 ^ 1074) 1 else roundMag (m * 2 ^ 1074) (10 ^ (-e).toNat))

/-- A decimal literal: sign, digits, an optional fraction, an optional exponent after `e`. -/
def parseDecimal (cs : List Char) : Option F64 :=
  let s := splitSign cs
  let read (mantissa : List Char) (e : Int) : Option F64 :=
    match splitAtSep '.' mantissa with
    | [whole] => (parseNat 10 whole).map (fun m => decimalValue s.1 m e)
    | [whole, fraction] =>
      if whole.isEmpty || fraction.isEmpty then none
      else (parseNat 10 (whole ++ fraction)).map (fun m => decimalValue s.1 m (e - (fraction.length : Int)))
    | _ => none
  match splitAtSep 'e' s.2 with
  | [mantissa] => read mantissa 0
  | [mantissa, e] => (parseExponent e).bind (fun k => read mantissa k)
  | _ => none

/-- A binary64 operand: `0x` and 16 hex digits, or a decimal literal. -/
def parseF64 (cs : List Char) : Option F64 :=
  match parseHex 16 16 cs with
  | some n => some (BitVec.ofNat 64 n)
  | none => parseDecimal cs

/-- An unsigned integer that fits a 64-bit word, in decimal. -/
def parseInteger (cs : List Char) : Option Word64 :=
  (parseNat 10 cs).bind (fun n => if n < 2 ^ 64 then some (BitVec.ofNat 64 n) else none)

/-! ### Registers (R51) -/

/-- The name of a register. -/
def regName (r : StateReg) : String :=
  match r with
  | .mrA => "MR_A" | .mrB => "MR_B" | .hbA => "HB_A" | .hbB => "HB_B"
  | .bqmAS1 => "BQM_A_S1" | .bqmAS2 => "BQM_A_S2" | .bqmBS1 => "BQM_B_S1" | .bqmBS2 => "BQM_B_S2"
  | .bqhAS1 => "BQH_A_S1" | .bqhAS2 => "BQH_A_S2" | .bqhBS1 => "BQH_B_S1" | .bqhBS2 => "BQH_B_S2"
  | .lastOut => "LAST_OUT" | .pathSel => "PATH_SEL" | .dither => "DITHER" | .status => "STATUS"

/-- A register, by name or by index. -/
def parseReg (cs : List Char) : Option StateReg :=
  match allRegs.find? (fun r => (regName r).toList == cs) with
  | some r => some r
  | none => (parseNat 10 cs).bind (fun n => allRegs[n]?)

/-- `<word>` for a register: raw hex, or a decimal that is a binary64 value for indices 0 to 12 and an integer for 13 to
15 (R79). -/
def parseWordFor (r : StateReg) (cs : List Char) : Option Word64 :=
  match parseHex 1 16 cs with
  | some n => some (BitVec.ofNat 64 n)
  | none =>
    match r with
    | .pathSel | .dither | .status => parseInteger cs
    | .mrA | .mrB | .hbA | .hbB | .bqmAS1 | .bqmAS2 | .bqmBS1 | .bqmBS2
    | .bqhAS1 | .bqhAS2 | .bqhBS1 | .bqhBS2 | .lastOut => parseDecimal cs

/-! ### Lines -/

/-- A line from its mnemonic and its operands. -/
def parseCommand (mnemonic : List Char) (operands : List (List Char)) : Option AsmLine :=
  if mnemonic == "NOP".toList then
    match operands with
    | [] => some .nop
    | _ => none
  else if mnemonic == "INIT".toList then
    match operands with
    | [] => some .init
    | _ => none
  else if mnemonic == "CLRILL".toList then
    match operands with
    | [] => some .clrill
    | _ => none
  else if mnemonic == "PROC".toList then
    match operands with
    | [a, b, c] => (parseF64 a).bind (fun x => (parseF64 b).bind (fun y => (parseF64 c).map (fun z => .proc x y z)))
    | _ => none
  else if mnemonic == "PROC0".toList then
    match operands with
    | [b, c] => (parseF64 b).bind (fun y => (parseF64 c).map (fun z => .proc0 y z))
    | _ => none
  else if mnemonic == "RDST".toList then
    match operands with
    | [a] => (parseReg a).map .rdst
    | _ => none
  else if mnemonic == "WRST".toList then
    match operands with
    | [a, b] => (parseReg a).bind (fun r => (parseWordFor r b).map (fun w => .wrst r w))
    | _ => none
  else if mnemonic == "SEED".toList then
    match operands with
    | [a] => (parseWordFor .dither a).map .seed
    | _ => none
  else if mnemonic == "SETPATH".toList then
    match operands with
    | [['0']] => some (.setpath 0)
    | [['1']] => some (.setpath 1)
    | _ => none
  else if mnemonic == ".word".toList then
    match operands with
    | [a] => (parseHex 8 8 a).map (fun n => .word (BitVec.ofNat 32 n))
    | _ => none
  else none

/-- A line without its comment and outer blanks. -/
def codeOf (line : List Char) : List Char := trim (line.takeWhile (· != ';'))

/-- A line that holds a command. -/
def parseLine (line : List Char) : Option AsmLine :=
  let code := codeOf line
  let mnemonic := code.takeWhile (fun c => !isBlank c)
  let rest := trim (code.dropWhile (fun c => !isBlank c))
  parseCommand mnemonic (if rest.isEmpty then [] else (splitAtSep ',' rest).map trim)

/-- Reads lines in order; the first line that holds no valid command makes the text invalid. -/
def parseLines : List (List Char) → Option (List AsmLine)
  | [] => some []
  | line :: lines => (parseLine line).bind (fun l => (parseLines lines).map (fun ls => l :: ls))

/-- A program text as the port values it issues, in order; lines with nothing but a comment issue nothing. -/
def assembleText (text : List Char) : Option (List Ports) :=
  (parseLines ((splitAtSep '\n' text).filter (fun line => !(codeOf line).isEmpty))).map (fun ls => ls.map assemble)

end Sys2Proof.Machine
end

