-- ==== Sys2Proof/Machine/Instances.lean ====
section
/-!
DEFINITION. Several instances of the block (R35, R62, R222): one per channel, each a whole State of its own, nothing shared.
Stereo is a list of two. Which is left and which is right is not said (91 N20; log 11).
-/
namespace Sys2Proof.Machine

/-- The state a step leaves; a step that stopped leaves the state as it was (no step of this block stops). -/
def stepState (s : State) : State :=
  match step s with
  | .next t => t
  | .fault _ => s
  | .refused _ => s

/-- Instance `k` of a system executes its next command; the others do nothing. -/
def stepAt (k : Nat) (system : List State) : List State := system.modify k stepState

end Sys2Proof.Machine
end

