-- ==== Sys2Proof/Safety.lean ====
section
/-!
DEFINITION. What claims call a good host and a clean run: the host preconditions of R233 as predicates on the port values of
a command, and a run without an illegal word. The block checks none of them (R115, R225); they are hypotheses of claims.
-/
namespace Sys2Proof

open Sys2Proof.Machine

/-- 0.01. -/
def ctlLow : F64 := 0x3F847AE147AE147B
/-- 0.99. -/
def ctlHigh : F64 := 0x3FEFAE147AE147AE
/-- 8422.35, the rate above which the mid-roller decays (R125, R233). -/
def rateFloor : F64 := 0x40C0732CCCCCCCCD
/-- 7e108, the magnitude below which the head-bump cube does not overflow (R132, R233). -/
def sampleCeiling : F64 := 0x5687D83612F2E450

/-- The command is a PROC that is executed: what P-CTL, P-RATE and P-FIN speak of. A command that comes with `rst` is not
executed (R230), and no other command reads the operands of PROC. -/
def runsProc (p : Ports) : Bool := !p.rst && decide (p.cmd = encode .proc)

/-- P-CTL: the control of a PROC lies in [0.01, 0.99] (R233). -/
def dutyControl (p : Ports) : Bool := !runsProc p || (fle ctlLow p.dinControl && fle p.dinControl ctlHigh)

/-- P-RATE: the rate of a PROC is finite and above 8422.35 Hz (R233). -/
def dutyRate (p : Ports) : Bool := !runsProc p || (isFinite p.dinRate && fgt p.dinRate rateFloor)

/-- P-FIN: the sample of a PROC is finite and below about 7e108 in magnitude (R233). -/
def dutyFinite (p : Ports) : Bool := !runsProc p || (isFinite p.dinSample && flt (fabs p.dinSample) sampleCeiling)

/-- P-SEED: the command is not a write of 0 to DITHER (R233). A command that comes with `rst` is not executed (R230). -/
def dutySeed (p : Ports) : Bool :=
  p.rst || decide (p.cmd ≠ encode (.wrst .dither)) || decide (p.dinWdata.extractLsb' 0 32 ≠ 0)

/-- Every duty of R233 that a single command can show: P-CTL, P-RATE and P-FIN on a PROC, P-SEED on a WRST. (P-RATE's "constant
within a run", P-CHAN and P-ONE are about several commands.) -/
def dutiful (p : Ports) : Bool := dutyControl p && dutyRate p && dutyFinite p && dutySeed p

/-- The host has issued only legal words (a claim over a command stream assumes no illegal word: R212, 93 K14). -/
def legalStream (s : State) : Bool := s.pending.all (fun p => legal p.cmd)

/-- No illegal word has been executed so far: the fault log is empty (93 K14). -/
def cleanRun (s : State) : Bool := s.faultLog.isEmpty

/-- The generator is not locked at zero, and the host has issued nothing that would lock it (R194, R237, P-SEED). -/
def seedAlive (s : State) : Bool := decide (s.core.dither ≠ 0) && s.pending.all dutySeed

/-- A binary64 value within ±LIMIT, or a NaN (R186 (b)). -/
def boundedOrNaN (y : F64) : Bool := isNaN y || (fle negLimit y && fle y Config.limit)

/-- The command does not write LAST_OUT, or writes a value within ±LIMIT or a NaN, or is not executed. -/
def keepsLastOut (p : Ports) : Bool :=
  p.rst || decide (p.cmd ≠ encode (.wrst .lastOut)) || boundedOrNaN p.dinWdata

/-- LAST_OUT is within ±LIMIT or NaN, and the host has issued nothing that would write it out of that range (R186 (a)). -/
def lastOutBounded (s : State) : Bool := boundedOrNaN s.core.lastOut && s.pending.all keepsLastOut

/-- A set ILL has an event in the fault log behind it: the host can clear ILL and never set it (R28, R212, 93 K14). -/
def illLogged (s : State) : Bool := decide (s.ill = 0) || !s.faultLog.isEmpty

end Sys2Proof
end

