-- ==== Sys2Proof/Certificates/Slice0/Obligations.lean ====
section
/-!
DEFINITION. The statements for the provers, from the numbered rules of spec/. Each docstring names what it formalises.
-/

open Sys2Proof Sys2Proof.Machine

/-! ### Encoding and decoding -/

/-- 30_encoding.md section 5 and 95 V-ENC: the worked words decode to the commands the spec gives, or to nothing. -/
def Obligations.ExampleWordsDecode : Prop :=
  decode 0x00000000 = .ok .nop ∧ decode 0x00000001 = .ok .proc ∧ decode 0x00000002 = .ok .init ∧
  decode 0x00000003 = .ok (.rdst .mrA) ∧ decode 0x000000C3 = .ok (.rdst .lastOut) ∧
  decode 0x000000D3 = .ok (.rdst .pathSel) ∧ decode 0x000000E3 = .ok (.rdst .dither) ∧
  decode 0x000000F3 = .ok (.rdst .status) ∧ decode 0x000000C4 = .ok (.wrst .lastOut) ∧
  decode 0x000000E4 = .ok (.wrst .dither) ∧ decode 0x000000F4 = .ok (.wrst .status) ∧
  decode 0x00000005 = .error .reservedOp ∧ decode 0x0000000F = .error .reservedOp ∧
  decode 0x00000010 = .error .nonzeroIdx ∧ decode 0x00000011 = .error .nonzeroIdx ∧
  decode 0x00000012 = .error .nonzeroIdx ∧ decode 0x00000100 = .error .nonzeroRsv ∧
  decode 0x80000003 = .error .nonzeroRsv ∧ decode 0xFFFFFFFF = .error .nonzeroRsv

/-- R70, R73: every command's word decodes to it, and no other word does. -/
def Obligations.DecodeAndEncodeAgree : Prop :=
  (∀ i : Instr, decode (encode i) = .ok i) ∧ (∀ (w : Word32) (i : Instr), decode w = .ok i → encode i = w)

/-- R74: a word decodes exactly when the legality predicate holds; 35 words do, and 2³² − 35 do not. -/
def Obligations.LegalWordsAreThirtyFive : Prop :=
  (∀ w : Word32, (∃ i, decode w = .ok i) ↔
    (w.extractLsb' 8 24 = 0 ∧
      ((((w.extractLsb' 0 4).toNat = 0 ∨ (w.extractLsb' 0 4).toNat = 1 ∨ (w.extractLsb' 0 4).toNat = 2) ∧
          w.extractLsb' 4 4 = 0) ∨
        ((w.extractLsb' 0 4).toNat = 3 ∨ (w.extractLsb' 0 4).toNat = 4)))) ∧
  Nat.card { w : Word32 // ∃ i, decode w = .ok i } = 35 ∧
  Nat.card { w : Word32 // ¬ ∃ i, decode w = .ok i } = 2 ^ 32 - 35

/-! ### The step -/

/-- R58, R71: when the oldest issued command is legal and `rst` is not asserted, a step is `exec` of that command, with its
port values on the ports and it taken off the host's list. -/
def Obligations.StepRunsTheDecodedCommand : Prop :=
  ∀ (s : State) (p : Ports) (rest : List Ports) (i : Instr),
    s.pending = p :: rest → p.rst = false → decode p.cmd = .ok i →
      step s = exec i { s with ports := p, pending := rest }

/-- R224, R243: with nothing issued the block holds its state. -/
def Obligations.IdleStepHoldsTheState : Prop :=
  ∀ s : State, s.pending = [] → step s = .next s

/-- R215, R230: `rst` with a command puts every register at its reset value; the command is not executed and gives no
response. That the command leaves the list of issued commands (log 1), and that the fault log is kept (log 4, 93 K14), is
the model's choice. -/
def Obligations.ResetSkipsTheCommand : Prop :=
  ∀ (s : State) (p : Ports) (rest : List Ports), s.pending = p :: rest → p.rst = true →
    ∃ t, step s = .next t ∧ (∀ r, stateRead r t = stateRead r State.reset) ∧
      t.pending = rest ∧ t.responses = s.responses ∧ t.faultLog = s.faultLog

/-- R75, R212: an illegal word sets STATUS.ILL; every other register keeps its value and there is no response. The event
goes into the model's fault log (93 K14). -/
def Obligations.IllegalWordSetsOnlyIll : Prop :=
  ∀ (s : State) (p : Ports) (rest : List Ports), s.pending = p :: rest → p.rst = false →
    (∀ i, decode p.cmd ≠ .ok i) →
    ∃ t, step s = .next t ∧ stateRead .status t = 1 ∧ (∀ r, r ≠ .status → stateRead r t = stateRead r s) ∧
      t.pending = rest ∧ t.responses = s.responses ∧ t.faultLog = s.faultLog ++ [.illegalCommand]

/-- R210, R241: no state stops the block. -/
def Obligations.StepNeverStops : Prop :=
  ∀ s : State, ∃ t, step s = .next t

/-- R58, R242, 93 K14: a step takes exactly the oldest issued command, adds at most one response, and never takes anything out
of the responses or the fault log. -/
def Obligations.StepTakesTheOldestCommand : Prop :=
  ∀ s t : State, step s = .next t →
    t.pending = s.pending.tail ∧
    (t.responses = s.responses ∨ ∃ r, t.responses = s.responses ++ [r]) ∧
    (t.faultLog = s.faultLog ∨ t.faultLog = s.faultLog ++ [.illegalCommand])

/-- R28, R212: a set ILL is cleared only by `rst`, by INIT, or by a write of STATUS with bit 0 set. -/
def Obligations.OnlyThreeThingsClearIll : Prop :=
  ∀ s t : State, step s = .next t → s.ill = 1 → t.ill ≠ 1 →
    ∃ p rest, s.pending = p :: rest ∧
      (p.rst = true ∨ decode p.cmd = .ok .init ∨
        (decode p.cmd = .ok (.wrst .status) ∧ p.dinWdata.extractLsb' 0 1 = 1))

/-- R28, R212: ILL is set only by an illegal word. -/
def Obligations.OnlyAnIllegalWordSetsIll : Prop :=
  ∀ s t : State, step s = .next t → s.ill ≠ 1 → t.ill = 1 →
    ∃ p rest, s.pending = p :: rest ∧ p.rst = false ∧ ∀ i, decode p.cmd ≠ .ok i

/-- R25, R128, R191: PATH_SEL and DITHER change only by `rst`, PROC, INIT, or a write of that register. -/
def Obligations.OnlyFourThingsMoveTheSequence : Prop :=
  ∀ s t : State, step s = .next t →
    (t.core.pathSel ≠ s.core.pathSel →
      ∃ p rest, s.pending = p :: rest ∧
        (p.rst = true ∨ decode p.cmd = .ok .proc ∨ decode p.cmd = .ok .init ∨ decode p.cmd = .ok (.wrst .pathSel))) ∧
    (t.core.dither ≠ s.core.dither →
      ∃ p rest, s.pending = p :: rest ∧
        (p.rst = true ∨ decode p.cmd = .ok .proc ∨ decode p.cmd = .ok .init ∨ decode p.cmd = .ok (.wrst .dither)))

/-! ### Invariants every step keeps -/

/-- R194, R237, D28: DITHER never becomes 0 unless the host writes it. -/
def Obligations.GeneratorStaysAlive : Prop :=
  ∀ s t : State, seedAlive s = true → step s = .next t → seedAlive t = true

/-- R186 (a): LAST_OUT stays within ±0.99 unless a NaN arrives or the host writes it. -/
def Obligations.LastOutStaysBounded : Prop :=
  ∀ s t : State, lastOutBounded s = true → step s = .next t → lastOutBounded t = true

/-- R28, R212, 93 K14: a set ILL always has a fault event behind it, which CLRILL, INIT and `rst` leave in the log. -/
def Obligations.IllIsAlwaysLogged : Prop :=
  ∀ s t : State, illLogged s = true → step s = .next t → illLogged t = true

/-- R34: the three invariants hold after reset. -/
def Obligations.ResetMeetsTheInvariants : Prop :=
  seedAlive State.reset = true ∧ lastOutBounded State.reset = true ∧ illLogged State.reset = true

/-! ### Reset and INIT -/

/-- R34: the registers after reset, after a step with `rst`, and after INIT, from any state. (That `rst` comes with an issued
command is the model's form of it, log 1.) -/
def Obligations.ResetValues : Prop :=
  (∀ r, stateRead r State.reset = if r = .dither then 17 else 0) ∧
  (∀ (s : State) (p : Ports) (rest : List Ports), s.pending = p :: rest → p.rst = true →
    ∃ t, step s = .next t ∧ ∀ r, stateRead r t = if r = .dither then 17 else 0) ∧
  (∀ s : State, ∃ t, exec .init s = .next t ∧ ∀ r, stateRead r t = if r = .dither then 17 else 0)

/-- R111, R231: INIT leaves the registers bit-identical to those after `rst`, whatever they were; neither gives a response;
the ports, the host's list and the fault log, which are the model's (log 1, 2, 4), are left alone. -/
def Obligations.InitIsEquivalentToReset : Prop :=
  ∀ (s u : State) (p : Ports) (rest : List Ports), u.pending = p :: rest → p.rst = true →
    ∃ t v, exec .init s = .next t ∧ step u = .next v ∧ t.core = v.core ∧ t.ill = v.ill ∧
      t.responses = s.responses ∧ v.responses = u.responses ∧
      t.ports = s.ports ∧ t.pending = s.pending ∧ t.faultLog = s.faultLog

/-! ### NOP, RDST, WRST -/

/-- R100: the word 0x00000000, and no other, is NOP; it leaves the state unchanged and gives no response. -/
def Obligations.NopChangesNothing : Prop :=
  (∀ w : Word32, decode w = .ok .nop ↔ w = 0x00000000) ∧ ∀ s : State, exec .nop s = .next s

/-- R112: `0x00000003 | (i << 4)` is RDST of register i; it responds with the register's word and changes nothing else, for
every register; after reset, RDST DITHER responds 0x11. (The list of responses is the model's, log 3.) -/
def Obligations.RdstRespondsWithTheRegister : Prop :=
  (∀ i : BitVec 4, decode (0x00000003 ||| (i.zeroExtend 32 <<< 4)) = .ok (.rdst (regOfIndex i))) ∧
  (∀ (r : StateReg) (s : State),
    exec (.rdst r) s = .next { s with responses := s.responses ++ [.data (stateRead r s)] }) ∧
  (∃ t, step (issue [{ Ports.idle with cmd := 0x000000E3 }] State.reset) = .next t ∧
    t.responses = [.data 0x0000000000000011])

/-- R52, R53: what StateRead gives for each index. -/
def Obligations.StateReadGivesEachWord : Prop :=
  ∀ s : State,
    stateRead (regOfIndex 0) s = (pathOf s.core 0).mr ∧ stateRead (regOfIndex 1) s = (pathOf s.core 1).mr ∧
    stateRead (regOfIndex 2) s = (pathOf s.core 0).hb ∧ stateRead (regOfIndex 3) s = (pathOf s.core 1).hb ∧
    stateRead (regOfIndex 4) s = (pathOf s.core 0).bqm.s1 ∧ stateRead (regOfIndex 5) s = (pathOf s.core 0).bqm.s2 ∧
    stateRead (regOfIndex 6) s = (pathOf s.core 1).bqm.s1 ∧ stateRead (regOfIndex 7) s = (pathOf s.core 1).bqm.s2 ∧
    stateRead (regOfIndex 8) s = (pathOf s.core 0).bqh.s1 ∧ stateRead (regOfIndex 9) s = (pathOf s.core 0).bqh.s2 ∧
    stateRead (regOfIndex 10) s = (pathOf s.core 1).bqh.s1 ∧ stateRead (regOfIndex 11) s = (pathOf s.core 1).bqh.s2 ∧
    stateRead (regOfIndex 12) s = s.core.lastOut ∧
    (stateRead (regOfIndex 13) s).toNat = s.core.pathSel.toNat ∧
    (stateRead (regOfIndex 14) s).toNat = s.core.dither.toNat ∧
    (stateRead (regOfIndex 15) s).toNat = s.ill.toNat

/-- R113, R52: `0x00000004 | (i << 4)` is WRST of register i; it completes; the written register then reads as the word (indices 0 to 12), as its bit 0 (PATH_SEL), as its
bits 31:0 (DITHER), or as 0 if bit 0 was set and as before if not (STATUS); every other register reads as before, and nothing
else changes. (The lists in the last line are the model's, log 1, 3, 4.) -/
def Obligations.WrstWritesOneRegister : Prop :=
  (∀ i : BitVec 4, decode (0x00000004 ||| (i.zeroExtend 32 <<< 4)) = .ok (.wrst (regOfIndex i))) ∧
  ∀ (r : StateReg) (s : State), ∃ t, exec (.wrst r) s = .next t ∧
    stateRead r t =
      (if r = .pathSel then (s.ports.dinWdata.extractLsb' 0 1).zeroExtend 64
       else if r = .dither then (s.ports.dinWdata.extractLsb' 0 32).zeroExtend 64
       else if r = .status then (if s.ports.dinWdata.extractLsb' 0 1 = 1 then 0 else stateRead .status s)
       else s.ports.dinWdata) ∧
    (∀ q, q ≠ r → stateRead q t = stateRead q s) ∧
    t.ports = s.ports ∧ t.pending = s.pending ∧ t.responses = s.responses ∧ t.faultLog = s.faultLog

/-- R53: the upper bits of PATH_SEL, DITHER and STATUS read as zero and are ignored when written. -/
def Obligations.NarrowRegistersIgnoreUpperBits : Prop :=
  (∀ s : State, (stateRead .pathSel s).toNat < 2 ∧ (stateRead .dither s).toNat < 2 ^ 32 ∧ (stateRead .status s).toNat < 2) ∧
  (∀ (w w' : Word64) (s : State), w.toNat % 2 = w'.toNat % 2 →
    stateWrite .pathSel w s = stateWrite .pathSel w' s ∧ stateWrite .status w s = stateWrite .status w' s) ∧
  (∀ (w w' : Word64) (s : State), w.toNat % 2 ^ 32 = w'.toNat % 2 ^ 32 →
    stateWrite .dither w s = stateWrite .dither w' s)

/-- R56: RDST is idempotent in the registers, and repeating a WRST leaves the same state. -/
def Obligations.AccessesAreIdempotent : Prop :=
  (∀ (r : StateReg) (w : Word64) (s : State), stateWrite r w (stateWrite r w s) = stateWrite r w s) ∧
  (∀ (r q : StateReg) (s t : State), exec (.rdst r) s = .next t → stateRead q t = stateRead q s)

/-- R234: writes of different registers are independent of their order. -/
def Obligations.WritesOfDifferentRegistersCommute : Prop :=
  ∀ (r q : StateReg) (w v : Word64) (s : State), r ≠ q →
    stateWrite r w (stateWrite q v s) = stateWrite q v (stateWrite r w s)

/-- R234, R223: writing every register with the words read from a saved state restores ProcessorState exactly, whatever
the state before. -/
def Obligations.SavedStateIsRestored : Prop :=
  ∀ saved s : State,
    (allRegs.foldl (fun u r => stateWrite r (stateRead r saved) u) s).core = saved.core

/-! ### PROC -/

/-- R101 with the stage rules R104 to R193 it lists: PROC, written out operation by operation in R101's order. Every operation is
a binary64 operation of its own (R9); CLAMP is R12's and FREXP_EXP R13's. `L` is this hardware's configuration of R11's
primitives, and the numerator is R121's DOC form (log 9). The lists in the last line are the model's (log 1, 3, 4). -/
def Obligations.ProcIsTheStageSequence : Prop :=
  ∀ s : State,
    let L := Transcendentals.configured
    let xin := s.ports.dinSample
    let sr := s.ports.dinRate
    let ctl := s.ports.dinControl
    -- R104 to R107
    let x1 := fmul xin Config.gainCut
    let x2 := if flt (fabs x1) Config.floorThresh then fmul (toF64 s.core.dither) Config.floorScale else x1
    let g := L.pow Config.ten (fdiv (fmul (fsub ctl Config.gainCenter) Config.gainRangeDb) Config.dbDiv)
    let x := if flt g Config.one then fmul x2 g else x2
    -- R120 to R125
    let scale := fdiv sr Config.refRate
    let bqcoef : F64 → F64 → Coefs := fun f q =>
      let k := L.tan (fmul Config.pi f)
      let norm := fdiv Config.one (fadd (fadd Config.one (fdiv k q)) (fmul k k))
      { b0 := fmul (fdiv k q) norm
        b1 := fneg (fmul (fdiv k q) norm)
        b2 := Config.zero
        a1 := fmul (fmul Config.two (fsub (fmul k k) Config.one)) norm
        a2 := fmul (fadd (fsub Config.one (fdiv k q)) (fmul k k)) norm }
    let mid := bqcoef (fdiv Config.midFreq scale) Config.midQ
    let high := bqcoef (fdiv Config.highFreq scale) Config.highQ
    let hbf := fdiv Config.headBumpBase scale
    let roll := fdiv (fsub Config.one Config.softness) scale
    -- R127, R129, R130
    let p := s.core.pathSel
    let old := pathOf s.core p
    let mr := fadd (fmul old.mr (fsub Config.one roll)) (fmul x roll)
    let highs := fsub x mr
    -- R132, R131, R133
    let h := fadd old.hb (fmul x Config.bumpDrive)
    let v := L.sin (fsub h (fmul (fmul (fmul h h) h) hbf))
    let t := fadd (fmul v mid.b0) old.bqm.s1
    let bqm : History :=
      { s1 := fadd (fsub (fmul v mid.b1) (fmul t mid.a1)) old.bqm.s2, s2 := fsub (fmul v mid.b2) (fmul t mid.a2) }
    let hb := L.asin (clamp t (fneg Config.one) Config.one)
    -- R134, R131
    let u := L.sin x
    let t' := fadd (fmul u high.b0) old.bqh.s1
    let bqh : History :=
      { s1 := fadd (fsub (fmul u high.b1) (fmul t' high.a1)) old.bqh.s2, s2 := fsub (fmul u high.b2) (fmul t' high.a2) }
    let y0 := L.asin (clamp t' (fneg Config.one) Config.one)
    -- R160, R161
    let ground := fsub x y0
    let y1 := if fgt g Config.one then fmul y0 g else y0
    -- R150, R151
    let a := fmul (fabs highs) Config.halfPi
    let soft := fsub Config.one (L.cos (if fgt a Config.halfPi then Config.halfPi else a))
    let y2 := if fgt highs Config.zero then fsub y1 soft else y1
    let y3 := if flt highs Config.zero then fadd y2 soft else y2
    -- R162, R163
    let y4 := clamp y3 (fneg Config.spiralBound) Config.spiralBound
    let ay := fabs y4
    let y5 := fdiv (L.sin (fmul y4 ay)) (if feq ay Config.zero then Config.one else ay)
    -- R164, R165
    let suppress := fmul (fsub Config.one (fabs y5)) Config.suppressK
    let restrained : F64 → F64 := fun b =>
      let b' := if fgt b suppress then fsub b suppress else b
      if flt b' (fneg suppress) then fadd b' suppress else b'
    let other := pathOf s.core (1 - p)
    let hbA := restrained (if p = 0 then hb else other.hb)
    let hbB := restrained (if p = 0 then other.hb else hb)
    -- R166, R167
    let y6 := fadd y5 ground
    let y7 := fadd y6 (fmul (fadd hbA hbB) Config.bumpMix)
    -- R180 to R184
    let S := Config.softness
    let lim := Config.limit
    let l0 := s.core.lastOut
    let l1 := if fge l0 lim then (if flt y7 lim then fadd (fmul lim S) (fmul y7 (fsub Config.one S)) else lim) else l0
    let l2 := if fle l1 (fneg lim)
      then (if fgt y7 (fneg lim) then fadd (fmul (fneg lim) S) (fmul y7 (fsub Config.one S)) else fneg lim) else l1
    let c1 := if fgt y7 lim then (if flt l2 lim then fadd (fmul lim S) (fmul l2 (fsub Config.one S)) else lim) else y7
    let last := if flt c1 (fneg lim)
      then (if fgt l2 (fneg lim) then fadd (fmul (fneg lim) S) (fmul l2 (fsub Config.one S)) else fneg lim) else c1
    -- R185
    let y8 := clamp last (fneg lim) lim
    -- R190 to R193, R110
    let e := frexpExp y8
    let d1 := s.core.dither ^^^ (s.core.dither <<< 13)
    let d2 := d1 ^^^ (d1 >>> 17)
    let d := d2 ^^^ (d2 <<< 5)
    let noise := fmul (fmul (fsub (toF64 d) Config.ditherOffset) Config.ditherK) (L.pow Config.two (ofInt (e + 62)))
    let out := fmul (fadd y8 noise) Config.gainBoost
    ∃ t, exec .proc s = .next t ∧
      pathOf t.core p = { mr := mr, hb := (if p = 0 then hbA else hbB), bqm := bqm, bqh := bqh } ∧
      pathOf t.core (1 - p) = { other with hb := (if p = 0 then hbB else hbA) } ∧
      t.core.pathSel = 1 - p ∧ t.core.lastOut = last ∧ t.core.dither = d ∧
      t.responses = s.responses ++ [.sample out] ∧
      t.ill = s.ill ∧ t.ports = s.ports ∧ t.pending = s.pending ∧ t.faultLog = s.faultLog

/-- R129: PROC's mid-roller update of the active path; the inactive path's MR is untouched; a NaN x makes MR[p] NaN, and a
PROC on that path keeps it NaN. -/
def Obligations.MidRollerUpdatesTheActivePath : Prop :=
  ∀ s : State, ∃ t, exec .proc s = .next t ∧
    (let o := procOperands s.ports
     let x := frontEnd ProcConfig.hardware s.core.dither o
     let roll := (coeffs Transcendentals.configured .doc o.rate).roll
     let p := s.core.pathSel
     (pathOf t.core p).mr = fadd (fmul (pathOf s.core p).mr (fsub Config.one roll)) (fmul x roll) ∧
     (pathOf t.core (1 - p)).mr = (pathOf s.core (1 - p)).mr ∧
     (isNaN x = true ∨ isNaN (pathOf s.core p).mr = true → isNaN (pathOf t.core p).mr = true))

/-- R135: PROC reads and writes only the active path's MR, BQM and BQH. The inactive path keeps its own, and replacing them
by anything changes neither the response nor any register of the active path nor the shared registers. -/
def Obligations.PathsAreIsolated : Prop :=
  ∀ (s : State) (mr : F64) (bqm bqh : History),
    let p := s.core.pathSel
    let other := pathOf s.core (1 - p)
    let s' := { s with core := setPathOf s.core (1 - p) { mr := mr, hb := other.hb, bqm := bqm, bqh := bqh } }
    ∃ t t', exec .proc s = .next t ∧ exec .proc s' = .next t' ∧
      (pathOf t.core (1 - p)).mr = other.mr ∧ (pathOf t.core (1 - p)).bqm = other.bqm ∧
      (pathOf t.core (1 - p)).bqh = other.bqh ∧
      pathOf t'.core p = pathOf t.core p ∧ (pathOf t'.core (1 - p)).hb = (pathOf t.core (1 - p)).hb ∧
      t'.responses = t.responses ∧ t'.core.lastOut = t.core.lastOut ∧ t'.core.dither = t.core.dither ∧
      t'.core.pathSel = t.core.pathSel

/-- R128: every PROC toggles PATH_SEL, so after a run of N PROCs, with any operands, it is its first value plus N modulo 2. The
run is that of the commands the host has issued (log 1). -/
def Obligations.PathSelAlternates : Prop :=
  (∀ s : State, ∃ t, exec .proc s = .next t ∧ t.core.pathSel = 1 - s.core.pathSel) ∧
  (∀ s : State, (∀ p ∈ s.pending, p.rst = false ∧ decode p.cmd = .ok .proc) →
    (stepState^[s.pending.length] s).core.pathSel.toNat = (s.core.pathSel.toNat + s.pending.length) % 2)

/-- R101, R115, R210: PROC completes for every bit pattern on its operand ports, gives one sample as response, and leaves STATUS
alone. That it also leaves the ports, the issued commands and the fault log alone speaks of the model's own fields (log 1, 2,
4), and the list of responses is the model's (log 3). -/
def Obligations.ProcFrame : Prop :=
  ∀ (s : State) (sample rate control : F64),
    ∃ t out, exec .proc { s with ports := { s.ports with dinSample := sample, dinRate := rate, dinControl := control } } =
        .next t ∧
      t.responses = s.responses ++ [.sample out] ∧ t.ill = s.ill ∧ stateRead .status t = stateRead .status s ∧
      t.pending = s.pending ∧ t.faultLog = s.faultLog ∧
      t.ports = { s.ports with dinSample := sample, dinRate := rate, dinControl := control }

/-- R238, R120: a NaN or infinite sample, and a rate that is NaN or ±0, make the active path's HB, BQM and BQH, LAST_OUT and the
output NaN, whatever the state and the other operands. MR becomes NaN with a NaN sample or a NaN rate, and with rate ±0 if it
was zero; with an infinite sample it becomes an infinity where the gain is not zero and 0 < roll ≤ 2, and in any case an
infinity or a NaN. An infinite rate is not among these (log 15). -/
def Obligations.NaNSamplePoisonsTheActivePath : Prop :=
  ∀ s : State,
    let o := procOperands s.ports
    let old := pathOf s.core s.core.pathSel
    let roll := (coeffs Transcendentals.configured .doc o.rate).roll
    ∃ t out, exec .proc s = .next t ∧ t.responses = s.responses ++ [.sample out] ∧
      (let q := pathOf t.core s.core.pathSel
       (isFinite o.sample = false ∨ isNaN o.rate = true ∨ isZero o.rate = true →
         isNaN out = true ∧ isNaN t.core.lastOut = true ∧ isNaN q.hb = true ∧ isNaN q.bqm.s1 = true ∧
           isNaN q.bqm.s2 = true ∧ isNaN q.bqh.s1 = true ∧ isNaN q.bqh.s2 = true) ∧
       (isNaN o.sample = true ∨ isNaN o.rate = true → isNaN q.mr = true) ∧
       (isZero o.rate = true → isZero old.mr = true → isNaN q.mr = true) ∧
       (isInf o.sample = true → isInf q.mr = true ∨ isNaN q.mr = true) ∧
       (isInf o.sample = true → isFinite old.mr = true → isZero (inputGain Transcendentals.configured o.control) = false →
         flt Config.zero roll = true → fle roll Config.two = true → isInf q.mr = true))

/-- R167, R238: while either head-bump accumulator is NaN, every PROC on either path answers NaN and leaves that accumulator
NaN. -/
def Obligations.NaNHeadBumpPoisonsEveryOutput : Prop :=
  ∀ (s : State) (q : BitVec 1), isNaN (pathOf s.core q).hb = true →
    ∃ t out, exec .proc s = .next t ∧ t.responses = s.responses ++ [.sample out] ∧ isNaN out = true ∧
      isNaN (pathOf t.core q).hb = true

/-- R106, R107, R161: a NaN control applies no gain: PROC then does exactly what it does with control 0.5, where the gain
is exactly 1. -/
def Obligations.NaNControlActsAsUnityGain : Prop :=
  Transcendentals.configured.pow Config.ten
      (fdiv (fmul (fsub 0x3FE0000000000000 Config.gainCenter) Config.gainRangeDb) Config.dbDiv) = Config.one ∧
  ∀ (st : ProcessorState) (sample rate ctl : F64), isNaN ctl = true →
    process ProcConfig.hardware st { sample := sample, rate := rate, control := ctl } =
      process ProcConfig.hardware st { sample := sample, rate := rate, control := 0x3FE0000000000000 }

/-- R105: the floor. A NaN and a value at or above the threshold pass; below it the value becomes DITHER × FLOOR_SCALE, never
negative, at most 5.0680614081e-34, and +0.0 when DITHER is 0. -/
def Obligations.FloorReplacesNearZeroSamples : Prop :=
  (∀ (x : F64) (d : Word32), isNaN x = true ∨ fge (fabs x) Config.floorThresh = true → nearZeroFloor x d = x) ∧
  (∀ (x : F64) (d : Word32), flt (fabs x) Config.floorThresh = true →
    nearZeroFloor x d = fmul (toF64 d) Config.floorScale ∧ signBit (nearZeroFloor x d) = false ∧
    fle (nearZeroFloor x d) 0x39050D498B9A0919 = true ∧ nearZeroFloor x 0 = Config.zero) ∧
  nearZeroFloor Config.zero 17 = 0x37465E1E246A07C9

/-- R110: the output restore is exact: it multiplies the value by 2¹⁶, for every finite y with |y| ≤ 1. -/
def Obligations.OutputRestoreIsExact : Prop :=
  ∀ y : F64, fle (fabs y) Config.one = true →
    isFinite (outputRestore y) = true ∧ units (outputRestore y) = units y * 2 ^ 16 ∧
      signBit (outputRestore y) = signBit y

/-- C7 of 90_conflicts.md, R186, R192, R193: whatever the state and the operands, PROC's output is a NaN or lies within
±64880.64000000001. -/
def Obligations.OutputIsBounded : Prop :=
  ∀ s : State, ∃ t out, exec .proc s = .next t ∧ t.responses = s.responses ++ [.sample out] ∧
    (isNaN out = true ∨ fle (fabs out) 0x40EFAE147AE147AF = true)

/-! ### Stages -/

/-- R151: the knee is subtracted for positive highs and added for negative highs; ±0 and NaN highs leave y unchanged. -/
def Obligations.KneeFollowsTheSignOfTheHighs : Prop :=
  (∀ y highs soft : F64,
    (fgt highs Config.zero = true → applyKnee y highs soft = fsub y soft) ∧
    (flt highs Config.zero = true → applyKnee y highs soft = fadd y soft) ∧
    (isZero highs = true ∨ isNaN highs = true → applyKnee y highs soft = y)) ∧
  applyKnee 0x3FE999999999999A 0xBFE0000000000000 0x3FD2BEC333018866 = 0x3FF17C7D998D2EE6

/-- R150: the knee amount lies in [0, 1] for every highs that is not a NaN, and is 0 for ±0, whatever the configured COS. -/
def Obligations.KneeAmountIsAFraction : Prop :=
  (∀ highs : F64, isNaN highs = false →
    fle Config.zero (kneeAmount Transcendentals.configured highs) = true ∧
      fle (kneeAmount Transcendentals.configured highs) Config.one = true) ∧
  (∀ highs : F64, isZero highs = true → kneeAmount Transcendentals.configured highs = Config.zero)

/-- R163: the spiral keeps ±0 and NaN, and a nonzero y whose y × |y| underflows to zero gives a zero. -/
def Obligations.SpiralKeepsZerosAndNaN : Prop :=
  (∀ y : F64, isZero y = true → spiral Transcendentals.configured y = y) ∧
  (∀ y : F64, isNaN y = true → isNaN (spiral Transcendentals.configured y) = true) ∧
  (∀ y : F64, isFinite y = true → isZero (fmul y (fabs y)) = true →
    isZero (spiral Transcendentals.configured y) = true)

/-- R164, R165, D19: with suppress not negative, an accumulator strictly above suppress loses suppress, one strictly below
−suppress gains it, any other is left as it is, a NaN included; it never crosses zero. A NaN suppress, which is what a NaN y
gives, changes no accumulator. -/
def Obligations.RestraintNeverCrossesZero : Prop :=
  (∀ suppress hb : F64, fle Config.zero suppress = true →
    (fgt hb suppress = true → restrain suppress hb = fsub hb suppress ∧ fle Config.zero (restrain suppress hb) = true) ∧
    (flt hb (fneg suppress) = true →
      restrain suppress hb = fadd hb suppress ∧ fle (restrain suppress hb) Config.zero = true) ∧
    (fgt hb suppress = false → flt hb (fneg suppress) = false → restrain suppress hb = hb)) ∧
  (∀ suppress hb : F64, isNaN suppress = true → restrain suppress hb = hb) ∧
  (∀ y : F64, isNaN y = true → isNaN (suppressOf y) = true)

/-- R186 (a), (b): for every look-back value and every y that is not NaN, the sample leaving R183 lies in [−LIMIT, LIMIT], and the
safety clamp of R185 changes nothing. -/
def Obligations.LimiterBoundsEverySample : Prop :=
  ∀ l y : F64, isNaN y = false →
    fle negLimit (hysteresis l y) = true ∧ fle (hysteresis l y) Config.limit = true ∧
      safetyClamp (hysteresis l y) = hysteresis l y

/-- R180 to R183, as the rules' if and else chain for every L and y, and the branch table of 44_hysteresis_limiter.md, rows of
(L in, y in, L after R181, y out). -/
def Obligations.LimiterFollowsTheBranchTable : Prop :=
  (∀ L y : F64,
    let S := Config.softness
    let lim := Config.limit
    let L1 := if fge L lim then (if flt y lim then fadd (fmul lim S) (fmul y (fsub Config.one S)) else lim) else L
    let L2 := if fle L1 (fneg lim)
      then (if fgt y (fneg lim) then fadd (fmul (fneg lim) S) (fmul y (fsub Config.one S)) else fneg lim) else L1
    let y1 := if fgt y lim then (if flt L2 lim then fadd (fmul lim S) (fmul L2 (fsub Config.one S)) else lim) else y
    let y2 := if flt y1 (fneg lim)
      then (if fgt L2 (fneg lim) then fadd (fmul (fneg lim) S) (fmul L2 (fsub Config.one S)) else fneg lim) else y1
    lookBack L y = L2 ∧ hysteresis L y = y2) ∧
  (lookBack 0x0000000000000000 0x3FE0000000000000 = 0x0000000000000000 ∧ hysteresis 0x0000000000000000 0x3FE0000000000000 = 0x3FE0000000000000) ∧
  (lookBack 0x0000000000000000 0x4000000000000000 = 0x0000000000000000 ∧ hysteresis 0x0000000000000000 0x4000000000000000 = 0x3FE3944E1A79AC19) ∧
  (lookBack 0x0000000000000000 0xC000000000000000 = 0x0000000000000000 ∧ hysteresis 0x0000000000000000 0xC000000000000000 = 0xBFE3944E1A79AC19) ∧
  (lookBack 0x3FEFAE147AE147AE 0x3FE0000000000000 = 0x3FE9B0D67EE1B771 ∧ hysteresis 0x3FEFAE147AE147AE 0x3FE0000000000000 = 0x3FE0000000000000) ∧
  (lookBack 0x3FEFAE147AE147AE 0x4000000000000000 = 0x3FEFAE147AE147AE ∧ hysteresis 0x3FEFAE147AE147AE 0x4000000000000000 = 0x3FEFAE147AE147AE) ∧
  (lookBack 0x3FE0000000000000 0x3FEFAE147AE147AE = 0x3FE0000000000000 ∧ hysteresis 0x3FE0000000000000 0x3FEFAE147AE147AE = 0x3FEFAE147AE147AE) ∧
  (lookBack 0x3FE0000000000000 0x3FEFD70A3D70A3D7 = 0x3FE0000000000000 ∧ hysteresis 0x3FE0000000000000 0x3FEFD70A3D70A3D7 = 0x3FE9B0D67EE1B771) ∧
  (lookBack 0x3FEFAE147AE147AE 0xC000000000000000 = 0xBFC3774DDC9A051C ∧ hysteresis 0x3FEFAE147AE147AE 0xC000000000000000 = 0xBFE5702B154823B8) ∧
  (lookBack 0x3FEFAE147AE147AE 0xC024000000000000 = 0xBFEFAE147AE147AE ∧ hysteresis 0x3FEFAE147AE147AE 0xC024000000000000 = 0xBFEFAE147AE147AE) ∧
  (lookBack 0xBFEFAE147AE147AE 0x4024000000000000 = 0x4009A9966F69CDB2 ∧ hysteresis 0xBFEFAE147AE147AE 0x4024000000000000 = 0x3FEFAE147AE147AE) ∧
  (lookBack 0xBFEFAE147AE147AE 0x0000000000000000 = 0xBFE3944E1A79AC19 ∧ hysteresis 0xBFEFAE147AE147AE 0x0000000000000000 = 0x0000000000000000) ∧
  (lookBack 0x3FF8000000000000 0x3FF0000000000000 = 0x3FEFAE147AE147AE ∧ hysteresis 0x3FF8000000000000 0x3FF0000000000000 = 0x3FEFAE147AE147AE) ∧
  (lookBack 0xBFF8000000000000 0xBFF0000000000000 = 0xBFEFAE147AE147AE ∧ hysteresis 0xBFF8000000000000 0xBFF0000000000000 = 0xBFEFAE147AE147AE) ∧
  (lookBack 0x7FF8000000000000 0x4000000000000000 = 0x7FF8000000000000 ∧ hysteresis 0x7FF8000000000000 0x4000000000000000 = 0x3FEFAE147AE147AE) ∧
  (lookBack 0x7FF8000000000000 0x3FD3333333333333 = 0x7FF8000000000000 ∧ hysteresis 0x7FF8000000000000 0x3FD3333333333333 = 0x3FD3333333333333) ∧
  (lookBack 0x3FC999999999999A 0x7FF8000000000000 = 0x3FC999999999999A ∧ hysteresis 0x3FC999999999999A 0x7FF8000000000000 = 0x7FF8000000000000)

/-! ### The generator -/

/-- R191: every PROC advances DITHER by the three-step xorshift, and no other command advances it; the sequence from the
reset seed 17 and the single steps the rule gives. -/
def Obligations.GeneratorStepsOncePerProc : Prop :=
  (∀ s : State, ∃ t, exec .proc s = .next t ∧
    t.core.dither.toNat =
      (let a := s.core.dither.toNat
       let b := a ^^^ (a * 2 ^ 13 % 2 ^ 32)
       let c := b ^^^ (b / 2 ^ 17)
       c ^^^ (c * 2 ^ 5 % 2 ^ 32))) ∧
  (∀ (i : Instr) (s t : State), exec i s = .next t → i ≠ .proc → i ≠ .init → i ≠ .wrst .dither →
    t.core.dither = s.core.dither) ∧
  (List.range 11).map (fun n => xorshift32^[n] 17) =
    [17, 0x00462210, 0x448C4252, 0x540AE211, 0x01500095, 0x2916A6B4, 0x45CB52D4, 0xDDA9669C, 0xDE295A01, 0x58491615,
      0x2BFAE150] ∧
  xorshift32 1 = 0x00042021 ∧ xorshift32 0xFFFFFFFF = 0x0003E01F ∧ xorshift32 0x80000000 = 0x80084000 ∧
  xorshift32 0x00003C00 = 0xF787C7C0

/-- R194 (a): the generator step is a bijection on u32 values, and 0 is its only fixed point. -/
def Obligations.XorshiftIsABijection : Prop :=
  Function.Bijective xorshift32 ∧ ∀ s : Word32, xorshift32 s = s ↔ s = 0

/-- R194 (b): from seed 17 the generator returns to 17 after exactly 2³² − 1 steps, and every nonzero state lies on that
cycle. -/
def Obligations.XorshiftHasFullPeriod : Prop :=
  Function.minimalPeriod xorshift32 17 = 2 ^ 32 - 1 ∧ ∀ s : Word32, s ≠ 0 → ∃ n : Nat, xorshift32^[n] 17 = s

/-- R194 (c), R237: with DITHER = 0 it stays 0 over any run of commands without `rst`, INIT and a WRST of a nonzero value to
DITHER, PROCs with any operands and illegal words included; a cut sample below the floor's threshold becomes exactly +0.0. The
run is that of the commands the host has issued (log 1). -/
def Obligations.ZeroLockIsForGood : Prop :=
  (∀ (n : Nat) (s : State), s.core.dither = 0 →
    (∀ p ∈ s.pending, p.rst = false ∧ decode p.cmd ≠ .ok .init ∧
      (decode p.cmd = .ok (.wrst .dither) → p.dinWdata.extractLsb' 0 32 = 0)) →
    (stepState^[n] s).core.dither = 0) ∧
  (∀ s : State, s.core.dither = 0 → ∃ t, exec .proc s = .next t ∧ t.core.dither = 0) ∧
  (∀ x : F64, flt (fabs x) Config.floorThresh = true → nearZeroFloor x 0 = Config.zero)

/-- R237, 95 P4: with DITHER = 0, zero filter state and a zero sample at 44100 Hz and control 0.5, PROC answers the constant
0xBD9F66424DED663A and leaves every register but PATH_SEL as it was, whatever the configured primitives. -/
def Obligations.ZeroLockOutputIsConstant : Prop :=
  ∀ s : State, s.core.pathA = PathState.reset → s.core.pathB = PathState.reset → s.core.lastOut = 0 →
    s.core.dither = 0 → s.ports.dinSample = 0 → s.ports.dinRate = 0x40E5888000000000 →
    s.ports.dinControl = 0x3FE0000000000000 →
    ∃ t, exec .proc s = .next t ∧ t.responses = s.responses ++ [.sample 0xBD9F66424DED663A] ∧
      t.core.pathA = PathState.reset ∧ t.core.pathB = PathState.reset ∧ t.core.lastOut = 0 ∧ t.core.dither = 0 ∧
      t.ill = s.ill ∧ t.core.pathSel = 1 - s.core.pathSel

/-- R192: the noise takes the sign of s − 0x7fffffff, is +0.0 where they are equal, is at most 1.0893872345711347e-16 for
every exponent FREXP_EXP gives within ±LIMIT, and has the values the rule gives; POW(2, n) is exact, so this holds
whatever the configured primitives. -/
def Obligations.NoiseFollowsTheGenerator : Prop :=
  let N := noiseOf Transcendentals.configured
  (∀ (s : Word32) (e : Int), -1073 ≤ e → e ≤ 0 →
    isNaN (N s e) = false ∧ fle (fabs (N s e)) 0x3C9F66424E2C32BF = true ∧
      signBit (N s e) = decide (s.toNat < 0x7FFFFFFF) ∧ (s = 0x7FFFFFFF → N s e = Config.zero)) ∧
  N 0x00462210 0 = 0xBC9F550E06944101 ∧ N 0x00462210 (-15) = 0xBBAF550E06944101 ∧
  N 0xFFFFFFFF 0 = 0x3C9F66424E2C32BF ∧ N 0 0 = 0xBC9F66424DED663A

/-! ### Arithmetic -/

/-- R8: the four operations on finite values are the exact sum, difference, product and quotient, counted in least subnormals
and rounded once; the rounding is to nearest, ties to even: no finite value is nearer than the result, and if another is
as near, the result's last fraction bit is 0; and it overflows to an infinity from half a unit above the largest finite
value on. The signs of zero, of a product and of a quotient are IEEE 754's (log 10). -/
def Obligations.RoundingIsToNearestEven : Prop :=
  (∀ (n d : Nat) (v : F64), 0 < d → roundMag n d < infMag → isFinite v = true →
    let r := unitsMag (ofSignMag false (roundMag n d))
    ((r * d : Int) - n).natAbs ≤ ((unitsMag v * d : Int) - n).natAbs ∧
    (((r * d : Int) - n).natAbs = ((unitsMag v * d : Int) - n).natAbs → unitsMag v ≠ r → roundMag n d % 2 = 0)) ∧
  (∀ n d : Nat, 0 < d → roundMag n d ≤ infMag ∧ (roundMag n d = infMag ↔ (2 ^ 54 - 1) * 2 ^ 2044 * d ≤ n)) ∧
  (∀ a b : F64, isFinite a = true → isFinite b = true →
    (fadd a b = if units a + units b = 0 then ofSignMag (signBit a && signBit b) 0
      else ofSignMag (decide (units a + units b < 0)) (roundMag (units a + units b).natAbs 1)) ∧
    (fsub a b = if units a - units b = 0 then ofSignMag (signBit a && !signBit b) 0
      else ofSignMag (decide (units a - units b < 0)) (roundMag (units a - units b).natAbs 1)) ∧
    fmul a b = ofSignMag (signBit a != signBit b) (roundMag (unitsMag a * unitsMag b) (2 ^ 1074)) ∧
    (isZero b = false →
      fdiv a b = ofSignMag (signBit a != signBit b) (roundMag (unitsMag a * 2 ^ 1074) (unitsMag b))))

/-- R8, and IEEE 754 where R8 does not tabulate it (log 10: which operations are the invalid ones, and that a quotient by zero has
the exclusive or of the signs): negation flips the sign bit and fabs clears it, of a NaN too; division of a nonzero finite value by zero gives ±∞; the
invalid operations, and any operation with a NaN operand, give a NaN; the sum and product of finite values are never NaN. -/
def Obligations.SpecialResults : Prop :=
  (∀ a : F64, magBits (fneg a) = magBits a ∧ signBit (fneg a) = !signBit a ∧
    magBits (fabs a) = magBits a ∧ signBit (fabs a) = false) ∧
  (∀ a b : F64, isFinite a = true → isZero a = false → isZero b = true →
    isInf (fdiv a b) = true ∧ signBit (fdiv a b) = (signBit a != signBit b)) ∧
  (∀ a b : F64, isInf a = true → isInf b = true →
    isNaN (fdiv a b) = true ∧ isNaN (fsub a a) = true ∧ isNaN (fadd a (fneg a)) = true) ∧
  (∀ a b : F64, isInf a = true → isZero b = true → isNaN (fmul a b) = true ∧ isNaN (fmul b a) = true) ∧
  (∀ a b : F64, isZero a = true → isZero b = true → isNaN (fdiv a b) = true) ∧
  (∀ a b : F64, isNaN a = true ∨ isNaN b = true →
    isNaN (fadd a b) = true ∧ isNaN (fsub a b) = true ∧ isNaN (fmul a b) = true ∧ isNaN (fdiv a b) = true) ∧
  (∀ a b : F64, isFinite a = true → isFinite b = true → isNaN (fadd a b) = false ∧ isNaN (fsub a b) = false ∧
    isNaN (fmul a b) = false)

/-- R12: comparisons with a NaN are false, +0 equals −0, finite values compare as the numbers they are, an infinity lies
beyond every other value, and CLAMP tests the upper
bound first and lets a NaN pass. -/
def Obligations.ComparisonsAreOrdered : Prop :=
  (∀ a b : F64, isNaN a = true ∨ isNaN b = true →
    flt a b = false ∧ fle a b = false ∧ fgt a b = false ∧ fge a b = false ∧ feq a b = false) ∧
  (∀ a b : F64, isZero a = true → isZero b = true → feq a b = true) ∧
  (∀ a b : F64, isFinite a = true → isFinite b = true →
    (flt a b = true ↔ units a < units b) ∧ (fle a b = true ↔ units a ≤ units b) ∧
    (fgt a b = true ↔ units b < units a) ∧ (fge a b = true ↔ units b ≤ units a) ∧
    (feq a b = true ↔ units a = units b)) ∧
  (∀ a b : F64, isInf a = true → isNaN b = false →
    (if signBit a then fle a b else fle b a) = true ∧ (feq a b = true ↔ a = b) ∧
    ((if signBit a then flt a b else flt b a) = true ↔ a ≠ b) ∧
    (∀ c d : F64, fgt c d = flt d c ∧ fge c d = fle d c)) ∧
  (∀ v lo hi : F64, clamp v lo hi =
    if flt (if fgt v hi then hi else v) lo then lo else (if fgt v hi then hi else v)) ∧
  (∀ v lo hi : F64, isNaN v = true → clamp v lo hi = v)

/-- R13: for a finite nonzero v, `|v| = m × 2^e` with `0.5 ≤ m < 1`, that is `2^(e−1) ≤ |v| < 2^e`, in least subnormals; 0 for
±0, ±∞ and NaN; the values the rule gives. -/
def Obligations.FrexpConvention : Prop :=
  (∀ v : F64, isFinite v = true → isZero v = false →
    -1073 ≤ frexpExp v ∧ 2 ^ (frexpExp v + 1073).toNat ≤ unitsMag v ∧ unitsMag v < 2 ^ (frexpExp v + 1074).toNat) ∧
  (∀ v : F64, isZero v = true ∨ isInf v = true ∨ isNaN v = true → frexpExp v = 0) ∧
  frexpExp Config.limit = 0 ∧ frexpExp 0x3FE0000000000000 = 0 ∧ frexpExp 0x3FD0000000000000 = -1 ∧
  frexpExp Config.one = 1 ∧ frexpExp 0x0000000000000001 = -1073

/-- R11 (c), (d), (f): the special values of the configured primitives, whatever the configuration. The last four clauses, POW with
an exponent of ±0, a base of 1, a negative base or a base of ±0, are C99 Annex F's where R11 (f) does not list them (log 8). -/
def Obligations.PrimitivesKeepTheirSpecialValues : Prop :=
  let L := Transcendentals.configured
  (∀ a : F64, isZero a = true → L.sin a = a ∧ L.asin a = a ∧ L.cos a = Config.one) ∧
  L.asin Config.one = Config.halfPi ∧ L.asin (fneg Config.one) = fneg Config.halfPi ∧
  (∀ v : F64, fle (fneg Config.one) v = true → fle v Config.one = true →
    fle (fneg Config.halfPi) (L.asin v) = true ∧ fle (L.asin v) Config.halfPi = true) ∧
  (∀ a : F64, isInf a = true ∨ isNaN a = true →
    isNaN (L.sin a) = true ∧ isNaN (L.cos a) = true ∧ isNaN (L.tan a) = true) ∧
  (∀ v : F64, isNaN v = true ∨ fgt (fabs v) Config.one = true → isNaN (L.asin v) = true) ∧
  (∀ a b : F64, isNaN a = true ∨ isNaN b = true → isNaN (L.pow a b) = true) ∧
  (∀ b : F64, isInf b = true →
    L.pow Config.ten b = if signBit b then Config.zero else ofSignMag false infMag) ∧
  (∀ a b : F64, isNaN a = false → isZero b = true → L.pow a b = Config.one) ∧
  (∀ b : F64, isNaN b = false → L.pow Config.one b = Config.one) ∧
  (∀ a b : F64, isFinite a = true → isZero a = false → signBit a = true → isFinite b = true → isInteger b = false →
    isNaN (L.pow a b) = true) ∧
  (∀ a b : F64, isZero a = true → isFinite b = true → isZero b = false →
    L.pow a b = ofSignMag (signBit a && isOddInteger b) (if signBit b then infMag else 0))

/-- R11 (b): for finite nonzero arguments in its domain each configured primitive is within one unit in the last place of the
model's approximation of the exact result, or is that approximation rounded to nearest; SIN and COS are kept within ±1, which
(b) implies, and ASIN within ±HALF_PI (R11 (d)). POW(2, n) for an integer n is R11 (e)'s instead. The approximations and the
fallback are the model's (log 6). -/
def Obligations.PrimitivesStayWithinOneUlp : Prop :=
  let L := Transcendentals.configured
  (∀ a : F64, isFinite a = true → isZero a = false →
    (∃ w, (withinOneUlp (sinApprox a) w = true ∨ w = nearest (sinApprox a)) ∧
      L.sin a = clamp w (fneg Config.one) Config.one) ∧
    (∃ w, (withinOneUlp (cosApprox a) w = true ∨ w = nearest (cosApprox a)) ∧
      L.cos a = clamp w (fneg Config.one) Config.one) ∧
    (withinOneUlp (tanApprox a) (L.tan a) = true ∨ L.tan a = nearest (tanApprox a))) ∧
  (∀ v : F64, isZero v = false → flt (fabs v) Config.one = true →
    ∃ w, (withinOneUlp (asinApprox v) w = true ∨ w = nearest (asinApprox v)) ∧
      L.asin v = clamp w (fneg Config.halfPi) Config.halfPi) ∧
  (∀ a b : F64, isFinite a = true → isZero a = false → isFinite b = true → isZero b = false →
    (signBit a = true → isInteger b = true) → (a = Config.two → isInteger b = false) →
    (withinOneUlp (powApprox a b) (L.pow a b) = true ∨ L.pow a b = nearest (powApprox a b)))

/-- R11 (e): POW(2, n) is exactly 2ⁿ for every integer n whose 2ⁿ is representable, +0 below and +∞ above. -/
def Obligations.PowTwoIsExact : Prop :=
  ∀ n : Int, -100000 < n → n < 100000 →
    let v := Transcendentals.configured.pow Config.two (ofInt n)
    (-1074 ≤ n → n ≤ 1023 → isFinite v = true ∧ units v = 2 ^ (n + 1074).toNat) ∧
    (n < -1074 → v = Config.zero) ∧ (1023 < n → v = ofSignMag false infMag)

/-! ### Several instances, and the assembler -/

/-- R62, R222: a command to one instance runs that instance's next command as a step does, leaves every other instance as it is,
and commutes with a command to another. That a system is a list of states is the model's choice (log 11). -/
def Obligations.InstancesAreIndependent : Prop :=
  (∀ s t : State, step s = .next t → stepState s = t) ∧
  (∀ (system : List State) (k : Nat), (stepAt k system)[k]? = system[k]?.map stepState) ∧
  ∀ (system : List State) (k l : Nat), k ≠ l →
    stepAt k (stepAt l system) = stepAt l (stepAt k system) ∧ (stepAt k system)[l]? = system[l]?

/-- R80: the pseudo-commands are the port values of their expansions; the words are those of 30_encoding.md section 5. -/
def Obligations.PseudoCommandsExpand : Prop :=
  assemble .clrill = assemble (.wrst .status 1) ∧ (assemble .clrill).cmd = 0x000000F4 ∧
  (∀ n : Word64, assemble (.seed n) = assemble (.wrst .dither n) ∧ (assemble (.seed n)).cmd = 0x000000E4) ∧
  assemble (.setpath 0) = assemble (.wrst .pathSel 0) ∧ assemble (.setpath 1) = assemble (.wrst .pathSel 1) ∧
  (∀ rate control : F64, assemble (.proc0 rate control) = assemble (.proc 0 rate control) ∧
    (assemble (.proc0 rate control)).cmd = 0x00000001)

/-- R79, R80, 30_encoding.md section 5: the example lines, as text, give the commands and operand words the spec writes beside
them. That a data port a line does not use is 0 is the model's choice (log 13; R71 says only that it is ignored). -/
def Obligations.AssemblerReadsTheExamples : Prop :=
  parseLine "NOP".toList = some .nop ∧ parseLine "INIT".toList = some .init ∧
  parseLine "PROC 1.0, 44100.0, 0.5".toList = some (.proc 0x3FF0000000000000 0x40E5888000000000 0x3FE0000000000000) ∧
  parseLine "RDST MR_A".toList = some (.rdst .mrA) ∧ parseLine "RDST LAST_OUT".toList = some (.rdst .lastOut) ∧
  parseLine "RDST PATH_SEL".toList = some (.rdst .pathSel) ∧ parseLine "RDST DITHER".toList = some (.rdst .dither) ∧
  parseLine "RDST STATUS".toList = some (.rdst .status) ∧
  parseLine "WRST LAST_OUT, 0.99".toList = some (.wrst .lastOut 0x3FEFAE147AE147AE) ∧
  parseLine "WRST DITHER, 0x3C00".toList = some (.wrst .dither 0x3C00) ∧
  (parseLine "CLRILL".toList).map assemble = (parseLine "WRST STATUS, 1".toList).map assemble ∧
  (parseLine "CLRILL".toList).map assemble = some { Ports.idle with cmd := 0x000000F4, dinWdata := 1 } ∧
  parseLine ".word 0x00000005".toList = some (.word 0x00000005) ∧
  parseLine ".word 0x00000011 ; PROC with IDX = 1".toList = some (.word 0x00000011) ∧
  parseLine ".word 0x00000100".toList = some (.word 0x00000100)

/-- R28, R80, R217: a CLRILL from the host clears ILL and changes no other register. That the fault log is kept (log 4, 93 K14),
and that the command leaves the list of issued commands (log 1), is the model's choice. -/
def Obligations.ClrillClearsIll : Prop :=
  ∀ (s : State) (rest : List Ports), s.pending = assemble .clrill :: rest →
    ∃ t, step s = .next t ∧ t.ill = 0 ∧ t.core = s.core ∧ t.responses = s.responses ∧ t.faultLog = s.faultLog ∧
      t.pending = rest
end

