-- ==== Sys2Proof/Laws/State.lean ====
section
/-!
SUPPORT. One lemma per field per update of the state, each true by unfolding, so that no later proof unfolds an update.
-/
namespace Sys2Proof.Machine

@[simp] theorem setIll_core (s : State) : (setIll s).core = s.core := rfl
@[simp] theorem setIll_ill (s : State) : (setIll s).ill = 1 := rfl
@[simp] theorem setIll_ports (s : State) : (setIll s).ports = s.ports := rfl
@[simp] theorem setIll_pending (s : State) : (setIll s).pending = s.pending := rfl
@[simp] theorem setIll_responses (s : State) : (setIll s).responses = s.responses := rfl
@[simp] theorem setIll_faultLog (s : State) : (setIll s).faultLog = s.faultLog := rfl

@[simp] theorem clearIll_core (s : State) : (clearIll s).core = s.core := rfl
@[simp] theorem clearIll_ill (s : State) : (clearIll s).ill = 0 := rfl
@[simp] theorem clearIll_ports (s : State) : (clearIll s).ports = s.ports := rfl
@[simp] theorem clearIll_pending (s : State) : (clearIll s).pending = s.pending := rfl
@[simp] theorem clearIll_responses (s : State) : (clearIll s).responses = s.responses := rfl
@[simp] theorem clearIll_faultLog (s : State) : (clearIll s).faultLog = s.faultLog := rfl

@[simp] theorem resetRegisters_core (s : State) : (resetRegisters s).core = ProcessorState.reset := rfl
@[simp] theorem resetRegisters_ill (s : State) : (resetRegisters s).ill = 0 := rfl
@[simp] theorem resetRegisters_ports (s : State) : (resetRegisters s).ports = s.ports := rfl
@[simp] theorem resetRegisters_pending (s : State) : (resetRegisters s).pending = s.pending := rfl
@[simp] theorem resetRegisters_responses (s : State) : (resetRegisters s).responses = s.responses := rfl
@[simp] theorem resetRegisters_faultLog (s : State) : (resetRegisters s).faultLog = s.faultLog := rfl

@[simp] theorem raiseIllegalCommand_core (s : State) : (raiseIllegalCommand s).core = s.core := rfl
@[simp] theorem raiseIllegalCommand_ill (s : State) : (raiseIllegalCommand s).ill = 1 := rfl
@[simp] theorem raiseIllegalCommand_ports (s : State) : (raiseIllegalCommand s).ports = s.ports := rfl
@[simp] theorem raiseIllegalCommand_pending (s : State) : (raiseIllegalCommand s).pending = s.pending := rfl
@[simp] theorem raiseIllegalCommand_responses (s : State) : (raiseIllegalCommand s).responses = s.responses := rfl
@[simp] theorem raiseIllegalCommand_faultLog (s : State) : (raiseIllegalCommand s).faultLog = s.faultLog ++ [.illegalCommand] := rfl

@[simp] theorem respond_core (r : Response) (s : State) : (respond r s).core = s.core := rfl
@[simp] theorem respond_ill (r : Response) (s : State) : (respond r s).ill = s.ill := rfl
@[simp] theorem respond_ports (r : Response) (s : State) : (respond r s).ports = s.ports := rfl
@[simp] theorem respond_pending (r : Response) (s : State) : (respond r s).pending = s.pending := rfl
@[simp] theorem respond_responses (r : Response) (s : State) : (respond r s).responses = s.responses ++ [r] := rfl
@[simp] theorem respond_faultLog (r : Response) (s : State) : (respond r s).faultLog = s.faultLog := rfl

@[simp] theorem present_core (p : Ports) (rest : List Ports) (s : State) : (present p rest s).core = s.core := rfl
@[simp] theorem present_ill (p : Ports) (rest : List Ports) (s : State) : (present p rest s).ill = s.ill := rfl
@[simp] theorem present_ports (p : Ports) (rest : List Ports) (s : State) : (present p rest s).ports = p := rfl
@[simp] theorem present_pending (p : Ports) (rest : List Ports) (s : State) : (present p rest s).pending = rest := rfl
@[simp] theorem present_responses (p : Ports) (rest : List Ports) (s : State) : (present p rest s).responses = s.responses := rfl
@[simp] theorem present_faultLog (p : Ports) (rest : List Ports) (s : State) : (present p rest s).faultLog = s.faultLog := rfl

@[simp] theorem issue_core (ps : List Ports) (s : State) : (issue ps s).core = s.core := rfl
@[simp] theorem issue_ill (ps : List Ports) (s : State) : (issue ps s).ill = s.ill := rfl
@[simp] theorem issue_ports (ps : List Ports) (s : State) : (issue ps s).ports = s.ports := rfl
@[simp] theorem issue_pending (ps : List Ports) (s : State) : (issue ps s).pending = s.pending ++ ps := rfl
@[simp] theorem issue_responses (ps : List Ports) (s : State) : (issue ps s).responses = s.responses := rfl
@[simp] theorem issue_faultLog (ps : List Ports) (s : State) : (issue ps s).faultLog = s.faultLog := rfl

@[simp] theorem mapPathA_core (f : PathState → PathState) (s : State) : (mapPathA f s).core = { s.core with pathA := f s.core.pathA } := rfl
@[simp] theorem mapPathA_ill (f : PathState → PathState) (s : State) : (mapPathA f s).ill = s.ill := rfl
@[simp] theorem mapPathA_ports (f : PathState → PathState) (s : State) : (mapPathA f s).ports = s.ports := rfl
@[simp] theorem mapPathA_pending (f : PathState → PathState) (s : State) : (mapPathA f s).pending = s.pending := rfl
@[simp] theorem mapPathA_responses (f : PathState → PathState) (s : State) : (mapPathA f s).responses = s.responses := rfl
@[simp] theorem mapPathA_faultLog (f : PathState → PathState) (s : State) : (mapPathA f s).faultLog = s.faultLog := rfl

@[simp] theorem mapPathB_core (f : PathState → PathState) (s : State) : (mapPathB f s).core = { s.core with pathB := f s.core.pathB } := rfl
@[simp] theorem mapPathB_ill (f : PathState → PathState) (s : State) : (mapPathB f s).ill = s.ill := rfl
@[simp] theorem mapPathB_ports (f : PathState → PathState) (s : State) : (mapPathB f s).ports = s.ports := rfl
@[simp] theorem mapPathB_pending (f : PathState → PathState) (s : State) : (mapPathB f s).pending = s.pending := rfl
@[simp] theorem mapPathB_responses (f : PathState → PathState) (s : State) : (mapPathB f s).responses = s.responses := rfl
@[simp] theorem mapPathB_faultLog (f : PathState → PathState) (s : State) : (mapPathB f s).faultLog = s.faultLog := rfl

@[simp] theorem togglePath_pathA (st : ProcessorState) : (togglePath st).pathA = st.pathA := rfl
@[simp] theorem togglePath_pathB (st : ProcessorState) : (togglePath st).pathB = st.pathB := rfl
@[simp] theorem togglePath_lastOut (st : ProcessorState) : (togglePath st).lastOut = st.lastOut := rfl
@[simp] theorem togglePath_pathSel (st : ProcessorState) : (togglePath st).pathSel = 1 - st.pathSel := rfl
@[simp] theorem togglePath_dither (st : ProcessorState) : (togglePath st).dither = st.dither := rfl

@[simp] theorem setPathOf_pathA (st : ProcessorState) (p : BitVec 1) (v : PathState) :
    (setPathOf st p v).pathA = if p = 0 then v else st.pathA := by
  unfold setPathOf; split <;> rfl
@[simp] theorem setPathOf_pathB (st : ProcessorState) (p : BitVec 1) (v : PathState) :
    (setPathOf st p v).pathB = if p = 0 then st.pathB else v := by
  unfold setPathOf; split <;> rfl
@[simp] theorem setPathOf_lastOut (st : ProcessorState) (p : BitVec 1) (v : PathState) :
    (setPathOf st p v).lastOut = st.lastOut := by
  unfold setPathOf; split <;> rfl
@[simp] theorem setPathOf_pathSel (st : ProcessorState) (p : BitVec 1) (v : PathState) :
    (setPathOf st p v).pathSel = st.pathSel := by
  unfold setPathOf; split <;> rfl
@[simp] theorem setPathOf_dither (st : ProcessorState) (p : BitVec 1) (v : PathState) :
    (setPathOf st p v).dither = st.dither := by
  unfold setPathOf; split <;> rfl

/-- A path index is 0 or 1 (R25). -/
theorem bit_eq_zero_or_one (p : BitVec 1) : p = 0 ∨ p = 1 := by
  revert p; decide

/-- The copy just written is read back, and the other path's copy is as before (R135). -/
@[simp] theorem pathOf_setPathOf_same (st : ProcessorState) (p : BitVec 1) (v : PathState) :
    pathOf (setPathOf st p v) p = v := by
  unfold pathOf setPathOf; split <;> simp_all

theorem pathOf_setPathOf_ne (st : ProcessorState) {p q : BitVec 1} (v : PathState) (h : q ≠ p) :
    pathOf (setPathOf st p v) q = pathOf st q := by
  unfold pathOf setPathOf
  have hp := bit_eq_zero_or_one p
  have hq := bit_eq_zero_or_one q
  rcases hp with rfl | rfl <;> rcases hq with rfl | rfl <;> simp_all

@[simp] theorem pathOf_togglePath (st : ProcessorState) (p : BitVec 1) : pathOf (togglePath st) p = pathOf st p := rfl

@[simp] theorem pathOf_zero (st : ProcessorState) : pathOf st 0 = st.pathA := rfl

@[simp] theorem pathOf_one (st : ProcessorState) : pathOf st 1 = st.pathB := rfl

/-! ### writeStatus -/

@[simp] theorem writeStatus_core (w : Word64) (s : State) : (writeStatus w s).core = s.core := by
  unfold writeStatus; split <;> rfl
@[simp] theorem writeStatus_ports (w : Word64) (s : State) : (writeStatus w s).ports = s.ports := by
  unfold writeStatus; split <;> rfl
@[simp] theorem writeStatus_pending (w : Word64) (s : State) : (writeStatus w s).pending = s.pending := by
  unfold writeStatus; split <;> rfl
@[simp] theorem writeStatus_responses (w : Word64) (s : State) : (writeStatus w s).responses = s.responses := by
  unfold writeStatus; split <;> rfl
@[simp] theorem writeStatus_faultLog (w : Word64) (s : State) : (writeStatus w s).faultLog = s.faultLog := by
  unfold writeStatus; split <;> rfl

/-- Write 1 to clear (R28): ILL after the write. -/
theorem writeStatus_ill (w : Word64) (s : State) :
    (writeStatus w s).ill = if w.extractLsb' 0 1 = 1 then 0 else s.ill := by
  unfold writeStatus; split <;> rfl

end Sys2Proof.Machine
end

