-- ==== Sys2Proof/Laws/Access.lean ====
section
/-!
SUPPORT. The state access primitives: what StateWrite leaves alone, and what StateRead sees of it (R52, R53).
-/
namespace Sys2Proof.Machine

/-! ### StateWrite leaves the host interface alone -/

@[simp] theorem stateWrite_ports (r : StateReg) (w : Word64) (s : State) : (stateWrite r w s).ports = s.ports := by
  cases r <;> simp [stateWrite]
@[simp] theorem stateWrite_pending (r : StateReg) (w : Word64) (s : State) :
    (stateWrite r w s).pending = s.pending := by
  cases r <;> simp [stateWrite]
@[simp] theorem stateWrite_responses (r : StateReg) (w : Word64) (s : State) :
    (stateWrite r w s).responses = s.responses := by
  cases r <;> simp [stateWrite]
@[simp] theorem stateWrite_faultLog (r : StateReg) (w : Word64) (s : State) :
    (stateWrite r w s).faultLog = s.faultLog := by
  cases r <;> simp [stateWrite]

/-- ILL after a write: only STATUS reaches it. -/
theorem stateWrite_ill (r : StateReg) (w : Word64) (s : State) :
    (stateWrite r w s).ill = if r = .status ∧ w.extractLsb' 0 1 = 1 then 0 else s.ill := by
  cases r <;> simp [stateWrite, writeStatus_ill]

/-- PATH_SEL after a write. -/
theorem stateWrite_pathSel (r : StateReg) (w : Word64) (s : State) :
    (stateWrite r w s).core.pathSel = if r = .pathSel then w.extractLsb' 0 1 else s.core.pathSel := by
  cases r <;> simp [stateWrite]

/-- DITHER after a write. -/
theorem stateWrite_dither (r : StateReg) (w : Word64) (s : State) :
    (stateWrite r w s).core.dither = if r = .dither then w.extractLsb' 0 32 else s.core.dither := by
  cases r <;> simp [stateWrite]

/-- LAST_OUT after a write. -/
theorem stateWrite_lastOut (r : StateReg) (w : Word64) (s : State) :
    (stateWrite r w s).core.lastOut = if r = .lastOut then w else s.core.lastOut := by
  cases r <;> simp [stateWrite]

/-- StateRead depends on nothing but the block's registers. -/
theorem stateRead_congr (r : StateReg) {s t : State} (hc : s.core = t.core) (hi : s.ill = t.ill) :
    stateRead r s = stateRead r t := by
  cases r <;> simp [stateRead, statusWord, hc, hi]

/-- Two states whose sixteen registers read alike hold the same registers: StateRead sees all of the block's state (R223). -/
theorem registers_eq_of_stateRead {s t : State} (h : ∀ r, stateRead r s = stateRead r t) :
    s.core = t.core ∧ s.ill = t.ill := by
  have ext1 : ∀ a b : BitVec 1, a.zeroExtend 64 = b.zeroExtend 64 → a = b := by decide
  have ext32 : ∀ a b : BitVec 32, a.zeroExtend 64 = b.zeroExtend 64 → a = b := by
    intro a b hab
    have := congrArg BitVec.toNat hab
    simp only [BitVec.toNat_setWidth] at this
    apply BitVec.eq_of_toNat_eq
    have ha := a.isLt; have hb := b.isLt
    omega
  obtain ⟨⟨⟨a1, a2, ⟨a3, a4⟩, ⟨a5, a6⟩⟩, ⟨b1, b2, ⟨b3, b4⟩, ⟨b5, b6⟩⟩, lo, ps, di⟩, il, _, _, _, _⟩ := s
  obtain ⟨⟨⟨a1', a2', ⟨a3', a4'⟩, ⟨a5', a6'⟩⟩, ⟨b1', b2', ⟨b3', b4'⟩, ⟨b5', b6'⟩⟩, lo', ps', di'⟩, il', _, _, _, _⟩ := t
  have hps := ext1 _ _ (h .pathSel)
  have hil := ext1 _ _ (h .status)
  have hdi := ext32 _ _ (h .dither)
  have h1 := h .mrA; have h2 := h .mrB; have h3 := h .hbA; have h4 := h .hbB
  have h5 := h .bqmAS1; have h6 := h .bqmAS2; have h7 := h .bqmBS1; have h8 := h .bqmBS2
  have h9 := h .bqhAS1; have h10 := h .bqhAS2; have h11 := h .bqhBS1; have h12 := h .bqhBS2
  have h13 := h .lastOut
  simp only [stateRead] at h1 h2 h3 h4 h5 h6 h7 h8 h9 h10 h11 h12 h13
  subst hps hil hdi h1 h2 h3 h4 h5 h6 h7 h8 h9 h10 h11 h12 h13
  exact ⟨rfl, rfl⟩

end Sys2Proof.Machine
end

