-- ==== Sys2Proof/Laws/Decode.lean ====
section
/-!
SUPPORT. The fields of an encoded word, and the index map both ways.
-/
namespace Sys2Proof

/-- Index and register name are one another's inverse (R51). -/
@[simp] theorem regOfIndex_indexOfReg (r : StateReg) : regOfIndex (indexOfReg r) = r := by
  cases r <;> rfl

@[simp] theorem indexOfReg_regOfIndex (i : BitVec 4) : indexOfReg (regOfIndex i) = i := by
  revert i; decide

@[simp] theorem opField_cmdWord (op idx : BitVec 4) : opField (cmdWord op idx) = op := by
  revert op idx; decide

@[simp] theorem idxField_cmdWord (op idx : BitVec 4) : idxField (cmdWord op idx) = idx := by
  revert op idx; decide

@[simp] theorem rsvField_cmdWord (op idx : BitVec 4) : rsvField (cmdWord op idx) = 0 := by
  revert op idx; decide

/-- A word is the sum of its three fields (R70). -/
theorem word_eq_fields (w : Word32) : w = (rsvField w ++ idxField w ++ opField w : BitVec 32) := by
  apply BitVec.eq_of_getLsbD_eq
  intro i hi
  simp only [BitVec.getLsbD_append, rsvField, idxField, opField, BitVec.getLsbD_extractLsb']
  by_cases h1 : i < 4
  · simp [h1]
  · by_cases h2 : i - 4 < 4
    · simp [h1, h2, show 4 + (i - 4) = i by omega]
    · simp [h1, h2, show 8 + (i - 4 - 4) = i by omega, show i - 4 - 4 < 24 by omega]

end Sys2Proof
end

