-- ==== Sys2Proof/Laws/Float.lean ====
section
/-!
SUPPORT. What the binary64 operations do: fields of a built value, NaN propagation (R8, R11, R211), ordered comparisons and
CLAMP (R12), and the rounding function's bounds and monotonicity (R8).
-/
namespace Sys2Proof.Machine

/-! ### Fields -/

theorem magBits_lt (x : F64) : magBits x < 2 ^ 63 := Nat.mod_lt _ (by norm_num)

theorem toNat_ofSignMag (neg : Bool) {m : Nat} (h : m < 2 ^ 63) :
    (ofSignMag neg m).toNat = if neg then 2 ^ 63 + m else m := by
  unfold ofSignMag
  rw [BitVec.toNat_ofNat]
  apply Nat.mod_eq_of_lt
  cases neg <;> simp <;> omega

@[simp] theorem magBits_ofSignMag (neg : Bool) {m : Nat} (h : m < 2 ^ 63) : magBits (ofSignMag neg m) = m := by
  unfold magBits
  rw [toNat_ofSignMag neg h]
  cases neg <;> simp only [if_true, Bool.false_eq_true, if_false] <;> omega

@[simp] theorem signBit_ofSignMag (neg : Bool) {m : Nat} (h : m < 2 ^ 63) : signBit (ofSignMag neg m) = neg := by
  unfold signBit
  rw [toNat_ofSignMag neg h]
  cases neg <;> simp only [if_true, Bool.false_eq_true, if_false, decide_eq_true_eq, decide_eq_false_iff_not] <;> omega

/-- A value is its sign and its magnitude bits. -/
theorem eq_ofSignMag (x : F64) : x = ofSignMag (signBit x) (magBits x) := by
  apply BitVec.eq_of_toNat_eq
  rw [toNat_ofSignMag _ (magBits_lt x)]
  have := x.isLt
  unfold signBit magBits
  by_cases h : 2 ^ 63 ≤ x.toNat
  · simp only [h, decide_true, if_true]; omega
  · simp only [h, decide_false]
    rw [if_neg (by decide)]; omega

/-- `−a` flips the sign and nothing else (R8). -/
@[simp] theorem magBits_fneg (a : F64) : magBits (fneg a) = magBits a := magBits_ofSignMag _ (magBits_lt a)

@[simp] theorem signBit_fneg (a : F64) : signBit (fneg a) = !signBit a := signBit_ofSignMag _ (magBits_lt a)

/-- `fabs(a)` clears the sign and nothing else (R8). -/
@[simp] theorem magBits_fabs (a : F64) : magBits (fabs a) = magBits a := magBits_ofSignMag _ (magBits_lt a)

@[simp] theorem signBit_fabs (a : F64) : signBit (fabs a) = false := signBit_ofSignMag _ (magBits_lt a)

@[simp] theorem isNaN_fneg (a : F64) : isNaN (fneg a) = isNaN a := by simp [isNaN]
@[simp] theorem isNaN_fabs (a : F64) : isNaN (fabs a) = isNaN a := by simp [isNaN]
@[simp] theorem isZero_fabs (a : F64) : isZero (fabs a) = isZero a := by simp [isZero]
@[simp] theorem isFinite_fabs (a : F64) : isFinite (fabs a) = isFinite a := by simp [isFinite]

/-! ### NaN -/

/-- The NaN an operation produces is a quiet NaN: exponent bits and leading fraction bit set (R5, K6). -/
theorem magBits_quieten (x : F64) : 0x7FF8000000000000 ≤ magBits (quieten x) := by
  unfold magBits quieten
  rw [BitVec.toNat_or, Nat.or_mod_two_pow]
  exact Nat.right_le_or

@[simp] theorem isNaN_producedNaN (op : FloatOp) (a b : F64) : isNaN (producedNaN op a b) = true := by
  have := magBits_quieten (Config.freeNaN op a b)
  unfold isNaN producedNaN
  rw [decide_eq_true_eq]
  exact lt_of_lt_of_le (by decide) this

theorem isFinite_eq_false_of_isNaN {x : F64} (h : isNaN x = true) : isFinite x = false := by
  simp only [isNaN, isFinite, decide_eq_true_eq, decide_eq_false_iff_not] at *
  omega

theorem isNaN_fadd_left {a : F64} (b : F64) (h : isNaN a = true) : isNaN (fadd a b) = true := by simp [fadd, h]
theorem isNaN_fadd_right (a : F64) {b : F64} (h : isNaN b = true) : isNaN (fadd a b) = true := by simp [fadd, h]
theorem isNaN_fsub_left {a : F64} (b : F64) (h : isNaN a = true) : isNaN (fsub a b) = true := by simp [fsub, h]
theorem isNaN_fsub_right (a : F64) {b : F64} (h : isNaN b = true) : isNaN (fsub a b) = true := by simp [fsub, h]
theorem isNaN_fmul_left {a : F64} (b : F64) (h : isNaN a = true) : isNaN (fmul a b) = true := by simp [fmul, h]
theorem isNaN_fmul_right (a : F64) {b : F64} (h : isNaN b = true) : isNaN (fmul a b) = true := by simp [fmul, h]
theorem isNaN_fdiv_left {a : F64} (b : F64) (h : isNaN a = true) : isNaN (fdiv a b) = true := by simp [fdiv, h]
theorem isNaN_fdiv_right (a : F64) {b : F64} (h : isNaN b = true) : isNaN (fdiv a b) = true := by simp [fdiv, h]

theorem isNaN_sinOf (f : F64 → F64) {x : F64} (h : isNaN x = true) : isNaN (sinOf f x) = true := by
  simp [sinOf, isFinite_eq_false_of_isNaN h]
theorem isNaN_cosOf (f : F64 → F64) {x : F64} (h : isNaN x = true) : isNaN (cosOf f x) = true := by
  simp [cosOf, isFinite_eq_false_of_isNaN h]
theorem isNaN_tanOf (f : F64 → F64) {x : F64} (h : isNaN x = true) : isNaN (tanOf f x) = true := by
  simp [tanOf, isFinite_eq_false_of_isNaN h]
theorem isNaN_asinOf (f : F64 → F64) {x : F64} (h : isNaN x = true) : isNaN (asinOf f x) = true := by
  simp [asinOf, h]
theorem isNaN_powOf_right (f : F64 → F64 → F64) (a : F64) {b : F64} (h : isNaN b = true) :
    isNaN (powOf f a b) = true := by
  simp [powOf, h]

/-! ### Comparisons and CLAMP (R12) -/

theorem flt_nan_left {a : F64} (b : F64) (h : isNaN a = true) : flt a b = false := by simp [flt, h]
theorem flt_nan_right (a : F64) {b : F64} (h : isNaN b = true) : flt a b = false := by simp [flt, h]
theorem fle_nan_left {a : F64} (b : F64) (h : isNaN a = true) : fle a b = false := by simp [fle, h]
theorem fle_nan_right (a : F64) {b : F64} (h : isNaN b = true) : fle a b = false := by simp [fle, h]

/-- A NaN passes through CLAMP unchanged. -/
theorem clamp_nan {v : F64} (lo hi : F64) (h : isNaN v = true) : clamp v lo hi = v := by
  simp [clamp, fgt, flt_nan_right _ h, flt_nan_left _ h]

/-- CLAMP's result lies between its bounds. -/
theorem clamp_bounds {v lo hi : F64} (hv : isNaN v = false) (hb : fle lo hi = true) :
    fle lo (clamp v lo hi) = true ∧ fle (clamp v lo hi) hi = true := by
  simp only [fle, Bool.and_eq_true, Bool.not_eq_true', decide_eq_true_eq] at hb
  obtain ⟨⟨hlo, hhi⟩, hle⟩ := hb
  unfold clamp fgt flt fle
  by_cases h1 : orderKey hi < orderKey v
  · have h2 : ¬ orderKey hi < orderKey lo := by omega
    simp [hv, hlo, hhi, h1, h2, hle]
  · by_cases h2 : orderKey v < orderKey lo
    · simp [hv, hlo, hhi, h1, h2, hle]
    · simp [hv, hlo, hhi, h1, h2]; omega

/-- CLAMP changes nothing that is already between its bounds. -/
theorem clamp_eq_self {v lo hi : F64} (h1 : fle lo v = true) (h2 : fle v hi = true) : clamp v lo hi = v := by
  simp only [fle, Bool.and_eq_true, Bool.not_eq_true', decide_eq_true_eq] at h1 h2
  have a1 : ¬ orderKey hi < orderKey v := by omega
  have a2 : ¬ orderKey v < orderKey lo := by omega
  simp [clamp, fgt, flt, a1, a2]

/-! ### Rounding (R8) -/

theorem roundMag_le_infMag (n d : Nat) : roundMag n d ≤ infMag := Nat.min_le_right _ _

theorem roundMag_lt (n d : Nat) : roundMag n d < 2 ^ 63 := by
  have := roundMag_le_infMag n d
  unfold infMag at this
  omega

/-- Rounding to an integer moves the quotient by less than one. -/
theorem roundQuot_bounds (n d : Nat) : n / d ≤ roundQuot n d ∧ roundQuot n d ≤ n / d + 1 := by
  unfold roundQuot
  split
  · omega
  · split <;> omega

/-- Rounding to an integer keeps the order of the quotients. -/
theorem roundQuot_mono {n d n' d' : Nat} (hd : 0 < d) (hd' : 0 < d') (h : n * d' ≤ n' * d) :
    roundQuot n d ≤ roundQuot n' d' := by
  have hq : n / d ≤ n' / d' := by
    rw [Nat.le_div_iff_mul_le hd']
    have h1 : n / d * d ≤ n := Nat.div_mul_le_self n d
    by_contra hc
    have h2 : n' + 1 ≤ n / d * d' := by omega
    have h3 : (n' + 1) * d ≤ n / d * d' * d := Nat.mul_le_mul_right d h2
    have h4 : n / d * d' * d = n / d * d * d' := by ring
    have h5 : n / d * d * d' ≤ n * d' := Nat.mul_le_mul_right d' h1
    have h6 : n' * d < (n' + 1) * d := by nlinarith
    omega
  have b := roundQuot_bounds n d
  have b' := roundQuot_bounds n' d'
  rcases Nat.lt_or_eq_of_le hq with hlt | heq
  · omega
  · have e1 : n = n / d * d + n % d := by rw [Nat.mul_comm]; exact (Nat.div_add_mod n d).symm
    have e2 : n' = n / d * d' + n' % d' := by
      rw [heq, Nat.mul_comm]; exact (Nat.div_add_mod n' d').symm
    have hr : n % d * d' ≤ n' % d' * d := by
      have l1 : n * d' = n / d * d * d' + n % d * d' := by
        calc n * d' = (n / d * d + n % d) * d' := by rw [← e1]
          _ = _ := by ring
      have l2 : n' * d = n / d * d * d' + n' % d' * d := by
        calc n' * d = (n / d * d' + n' % d') * d := by rw [← e2]
          _ = _ := by ring
      omega
    unfold roundQuot
    rw [← heq]
    by_cases c1 : 2 * (n % d) < d
    · rw [if_pos c1]; split
      · omega
      · split <;> omega
    · rw [if_neg c1]
      have c1' : ¬ 2 * (n' % d') < d' := by
        intro c
        have : 2 * (n' % d') * d < d' * d := Nat.mul_lt_mul_of_pos_right c hd
        have : d * d' ≤ 2 * (n % d) * d' := Nat.mul_le_mul_right d' (by omega)
        nlinarith
      rw [if_neg c1']
      by_cases c2 : d < 2 * (n % d)
      · have c2' : d' < 2 * (n' % d') := by
          by_contra c
          have : 2 * (n' % d') * d ≤ d' * d := Nat.mul_le_mul_right d (by omega)
          have : d * d' < 2 * (n % d) * d' := Nat.mul_lt_mul_of_pos_right c2 hd'
          nlinarith
        rw [if_pos c2, if_pos c2']
      · rw [if_neg c2]; split <;> omega

theorem ulpExp_mono {n d n' d' : Nat} (h : n / d ≤ n' / d') : ulpExp n d ≤ ulpExp n' d' := by
  unfold ulpExp
  have : Nat.log2 (n / d) ≤ Nat.log2 (n' / d') := by
    rw [Nat.log2_eq_log_two, Nat.log2_eq_log_two]
    exact Nat.log_mono_right h
  omega

/-- The integer part, in units of the last place, has at most 53 bits. -/
theorem quot_lt (n d : Nat) : n / (d * 2 ^ ulpExp n d) < 2 ^ 53 := by
  rw [← Nat.div_div_eq_div_mul, Nat.div_lt_iff_lt_mul (by positivity), ← pow_add]
  unfold ulpExp
  rcases Nat.eq_zero_or_pos (n / d) with h | h
  · rw [h]; positivity
  · exact lt_of_lt_of_le Nat.lt_log2_self (Nat.pow_le_pow_right (by norm_num) (by omega))

/-- Above the subnormals it has exactly 53 bits. -/
theorem le_quot {n d : Nat} (h : 0 < ulpExp n d) : 2 ^ 52 ≤ n / (d * 2 ^ ulpExp n d) := by
  rw [← Nat.div_div_eq_div_mul, Nat.le_div_iff_mul_le (by positivity), ← pow_add]
  have hne : n / d ≠ 0 := by
    intro h0; simp [ulpExp, h0] at h
  have := Nat.log2_self_le hne
  have e : 52 + ulpExp n d = Nat.log2 (n / d) := by unfold ulpExp at *; omega
  rw [e]; exact this

/-- Rounding keeps the order of the exact results (R8). -/
theorem roundMag_mono {n d n' d' : Nat} (hd : 0 < d) (hd' : 0 < d') (h : n * d' ≤ n' * d) :
    roundMag n d ≤ roundMag n' d' := by
  have hq : n / d ≤ n' / d' := by
    rw [Nat.le_div_iff_mul_le hd']
    have h1 : n / d * d ≤ n := Nat.div_mul_le_self n d
    by_contra hc
    have h3 : (n' + 1) * d ≤ n / d * d' * d := Nat.mul_le_mul_right d (by omega)
    have h4 : n / d * d' * d = n / d * d * d' := by ring
    have h5 : n / d * d * d' ≤ n * d' := Nat.mul_le_mul_right d' h1
    have h6 : n' * d < (n' + 1) * d := by nlinarith
    omega
  have he := ulpExp_mono hq
  unfold roundMag
  apply min_le_min_right
  rcases Nat.lt_or_eq_of_le he with hlt | heq
  · have u := (roundQuot_bounds n (d * 2 ^ ulpExp n d)).2
    have v := quot_lt n d
    have l := (roundQuot_bounds n' (d' * 2 ^ ulpExp n' d')).1
    have w := le_quot (n := n') (d := d') (by omega)
    have : (ulpExp n d + 1) * 2 ^ 52 ≤ ulpExp n' d' * 2 ^ 52 := Nat.mul_le_mul_right _ (by omega)
    omega
  · rw [← heq]
    have hp : 0 < 2 ^ ulpExp n d := by positivity
    have := roundQuot_mono (n := n) (d := d * 2 ^ ulpExp n d) (n' := n') (d' := d' * 2 ^ ulpExp n d)
      (by positivity) (by positivity) (by nlinarith [Nat.mul_le_mul_right (2 ^ ulpExp n d) h])
    omega

/-- Rounding an integer keeps the order, and the result is never a NaN. -/
@[simp] theorem isNaN_roundUnits (z : Bool) (u : Int) : isNaN (roundUnits z u) = false := by
  unfold roundUnits isNaN
  split
  · simp [infMag]
  · rw [magBits_ofSignMag _ (roundMag_lt _ _)]
    have := roundMag_le_infMag u.natAbs 1
    simp; omega

theorem orderKey_ofSignMag (neg : Bool) {m : Nat} (h : m < 2 ^ 63) :
    orderKey (ofSignMag neg m) = if neg then -(m : Int) else (m : Int) := by
  simp [orderKey, magBits_ofSignMag neg h, signBit_ofSignMag neg h]

theorem orderKey_roundUnits (z : Bool) (u : Int) :
    orderKey (roundUnits z u) = if u < 0 then -(roundMag u.natAbs 1 : Int) else (roundMag u.natAbs 1 : Int) := by
  unfold roundUnits
  by_cases h : u = 0
  · subst h
    have : roundMag 0 1 = 0 := by decide
    rw [if_pos rfl, orderKey_ofSignMag z (by norm_num)]
    simp [this]
  · rw [if_neg h, orderKey_ofSignMag _ (roundMag_lt _ _)]
    by_cases hn : u < 0 <;> simp [hn]

/-- A sum or difference keeps the order of its exact results (R8). -/
theorem orderKey_roundUnits_mono (z z' : Bool) {u u' : Int} (h : u ≤ u') :
    orderKey (roundUnits z u) ≤ orderKey (roundUnits z' u') := by
  rw [orderKey_roundUnits, orderKey_roundUnits]
  by_cases h1 : u < 0 <;> by_cases h2 : u' < 0
  · rw [if_pos h1, if_pos h2]
    have := roundMag_mono (n := u'.natAbs) (d := 1) (n' := u.natAbs) (d' := 1) (by norm_num) (by norm_num) (by omega)
    omega
  · rw [if_pos h1, if_neg h2]; omega
  · omega
  · rw [if_neg h1, if_neg h2]
    have := roundMag_mono (n := u.natAbs) (d := 1) (n' := u'.natAbs) (d' := 1) (by norm_num) (by norm_num) (by omega)
    omega

/-! ### Free values kept near a result (R11 (b)) -/

@[simp] theorem isNaN_nearest (a : Approx) : isNaN (nearest a) = false := by
  have h := roundMag_le_infMag (a.num * 2 ^ 1074) a.den
  simp only [isNaN, nearest, magBits_ofSignMag _ (roundMag_lt _ _), decide_eq_false_iff_not]
  omega

/-- Everything `keepWithin` can give. -/
theorem keepWithin_cases (a : Approx) (v : F64) :
    withinOneUlp a (keepWithin a v) = true ∨ keepWithin a v = nearest a := by
  unfold keepWithin
  split
  · exact .inl ‹_›
  · exact .inr rfl

/-- A kept value is a number. -/
theorem isNaN_keepWithin (a : Approx) (v : F64) : isNaN (keepWithin a v) = false := by
  rcases keepWithin_cases a v with h | h
  · simp only [withinOneUlp, Bool.and_eq_true] at h
    have hf := h.1
    simp only [isFinite, isNaN, decide_eq_true_eq, decide_eq_false_iff_not] at hf ⊢
    omega
  · rw [h]; exact isNaN_nearest a

end Sys2Proof.Machine
end

