-- ==== Sys2Proof/Laws/Order.lean ====
section
/-!
SUPPORT. Binary64 patterns are ordered as the numbers they stand for, and each operation of R8 keeps that order.
-/
namespace Sys2Proof.Machine

/-! ### Magnitude bits and magnitudes -/

/-- The magnitude, in least subnormals, rises with the magnitude bits. -/
theorem unitsMag_lt {a b : F64} (h : magBits a < magBits b) : unitsMag a < unitsMag b := by
  unfold unitsMag
  have ea : magBits a = expField a * 2 ^ 52 + fracField a := by unfold expField fracField; omega
  have eb : magBits b = expField b * 2 ^ 52 + fracField b := by unfold expField fracField; omega
  have fa : fracField a < 2 ^ 52 := Nat.mod_lt _ (by norm_num)
  have fb : fracField b < 2 ^ 52 := Nat.mod_lt _ (by norm_num)
  have hE : expField a ≤ expField b := by unfold expField; omega
  rcases Nat.eq_or_lt_of_le hE with he | hlt
  · rw [← he]
    have hf : fracField a < fracField b := by omega
    split
    · exact hf
    · exact Nat.mul_lt_mul_of_pos_right (by omega) (by positivity)
  · have hb0 : expField b ≠ 0 := by omega
    rw [if_neg hb0]
    split
    · calc fracField a < 2 ^ 52 := fa
        _ ≤ (2 ^ 52 + fracField b) * 1 := by omega
        _ ≤ _ := Nat.mul_le_mul_left _ Nat.one_le_two_pow
    · rename_i ha0
      calc (2 ^ 52 + fracField a) * 2 ^ (expField a - 1)
          < (2 ^ 52 * 2) * 2 ^ (expField a - 1) := Nat.mul_lt_mul_of_pos_right (by omega) (by positivity)
        _ = 2 ^ 52 * 2 ^ (expField a - 1 + 1) := by rw [pow_succ]; ring
        _ ≤ (2 ^ 52 + fracField b) * 2 ^ (expField b - 1) :=
            Nat.mul_le_mul (by omega) (Nat.pow_le_pow_right (by norm_num) (by omega))

theorem unitsMag_eq {a b : F64} (h : magBits a = magBits b) : unitsMag a = unitsMag b := by
  unfold unitsMag expField fracField; rw [h]

theorem unitsMag_le {a b : F64} (h : magBits a ≤ magBits b) : unitsMag a ≤ unitsMag b := by
  rcases Nat.eq_or_lt_of_le h with h | h
  · exact le_of_eq (unitsMag_eq h)
  · exact le_of_lt (unitsMag_lt h)

theorem unitsMag_pos {a : F64} (h : 0 < magBits a) : 0 < unitsMag a := by
  have h0 : unitsMag (0 : F64) = 0 := by decide
  have := unitsMag_lt (a := (0 : F64)) (b := a) (by simpa [magBits] using h)
  omega

/-- A finite value in range of the order keys: the exact value rises with the key (R12). -/
theorem units_le_of_orderKey_le {a b : F64} (h : orderKey a ≤ orderKey b) : units a ≤ units b := by
  unfold orderKey at h
  unfold units
  cases hs : signBit a <;> cases hs' : signBit b <;> simp only [hs, hs', if_true, Bool.false_eq_true, if_false] at h ⊢
  · have := unitsMag_le (a := a) (b := b) (by omega); omega
  · have z1 : magBits a = magBits (0 : F64) := by simp [magBits]; simp only [magBits] at h; omega
    have z2 : magBits b = magBits (0 : F64) := by simp [magBits]; simp only [magBits] at h; omega
    have h0 : unitsMag (0 : F64) = 0 := by decide
    have := unitsMag_eq z1; have := unitsMag_eq z2; omega
  · omega
  · have := unitsMag_le (a := b) (b := a) (by omega); omega

/-! ### Ranges of the keys -/

theorem orderKey_le_infMag {a : F64} (h : isNaN a = false) :
    -(infMag : Int) ≤ orderKey a ∧ orderKey a ≤ (infMag : Int) := by
  simp only [isNaN, decide_eq_false_iff_not, not_lt] at h
  unfold orderKey
  split <;> omega

theorem isFinite_of_not {a : F64} (h1 : isNaN a = false) (h2 : isInf a = false) : isFinite a = true := by
  simp only [isNaN, isInf, isFinite, decide_eq_false_iff_not, decide_eq_true_eq] at *
  omega

theorem isNaN_of_isFinite {a : F64} (h : isFinite a = true) : isNaN a = false := by
  simp only [isNaN, isFinite, decide_eq_false_iff_not, decide_eq_true_eq] at *
  omega

theorem isInf_of_isFinite {a : F64} (h : isFinite a = true) : isInf a = false := by
  simp only [isInf, isFinite, decide_eq_false_iff_not, decide_eq_true_eq] at *
  omega

theorem magBits_of_isInf {a : F64} (h : isInf a = true) : magBits a = infMag := by
  simpa [isInf] using h

theorem isNaN_of_isInf {a : F64} (h : isInf a = true) : isNaN a = false := by
  simp [isNaN, magBits_of_isInf h]

theorem orderKey_of_isInf {a : F64} (h : isInf a = true) :
    orderKey a = if signBit a then -(infMag : Int) else (infMag : Int) := by
  unfold orderKey; rw [magBits_of_isInf h]

theorem units_of_isZero {a : F64} (h : isZero a = true) : units a = 0 := by
  have hz : magBits a = magBits (0 : F64) := by
    simp only [isZero, decide_eq_true_eq] at h; rw [h]; rfl
  have h0 : unitsMag (0 : F64) = 0 := by decide
  unfold units
  rw [unitsMag_eq hz, h0]; split <;> rfl

/-! ### Sums and differences -/

/-- The sum of finite values, exactly, then rounded once (R8). -/
theorem fadd_of_finite {a b : F64} (ha : isFinite a = true) (hb : isFinite b = true) :
    fadd a b = roundUnits (signBit a && signBit b) (units a + units b) := by
  simp [fadd, isNaN_of_isFinite ha, isNaN_of_isFinite hb, isInf_of_isFinite ha, isInf_of_isFinite hb]

/-- An infinite second operand carries over when the first is finite. -/
theorem fadd_of_inf_right {a b : F64} (ha : isFinite a = true) (hb : isInf b = true) : fadd a b = b := by
  simp [fadd, isNaN_of_isFinite ha, isNaN_of_isInf hb, isInf_of_isFinite ha, hb]

/-- With a finite first operand a sum is a NaN only for a NaN. -/
theorem isNaN_fadd_of_finite {a b : F64} (ha : isFinite a = true) (hb : isNaN b = false) : isNaN (fadd a b) = false := by
  cases hi : isInf b with
  | true => rw [fadd_of_inf_right ha hi]; exact hb
  | false => rw [fadd_of_finite ha (isFinite_of_not hb hi)]; simp

/-- A sum rises with its second operand. -/
theorem orderKey_fadd_mono {a b c : F64} (ha : isFinite a = true) (hb : isNaN b = false) (hc : isNaN c = false)
    (h : orderKey b ≤ orderKey c) : orderKey (fadd a b) ≤ orderKey (fadd a c) := by
  have nb := orderKey_le_infMag (isNaN_fadd_of_finite ha hb)
  have nc := orderKey_le_infMag (isNaN_fadd_of_finite ha hc)
  cases ib : isInf b with
  | true =>
    rw [fadd_of_inf_right ha ib] at nb ⊢
    have mb := magBits_of_isInf ib
    have mc : magBits c ≤ infMag := by simpa [isNaN] using hc
    cases sb : signBit b with
    | true => have kb : orderKey b = -(infMag : Int) := by simp [orderKey, sb, mb]
              omega
    | false =>
      have hc' : magBits c = infMag := by
        have hi : 0 < infMag := by decide
        cases sc : signBit c <;> simp only [orderKey, sb, sc, if_true, Bool.false_eq_true, if_false] at h <;> omega
      have ic : isInf c = true := by simp [isInf, hc']
      rw [fadd_of_inf_right ha ic]; exact h
  | false =>
    cases ic : isInf c with
    | true =>
      rw [fadd_of_inf_right ha ic] at nc ⊢
      have mc := magBits_of_isInf ic
      have mb : magBits b < infMag := by simpa [isFinite] using isFinite_of_not hb ib
      cases sc : signBit c with
      | true =>
        exfalso
        cases sb : signBit b <;> simp only [orderKey, sb, sc, if_true, Bool.false_eq_true, if_false] at h <;> omega
      | false => have kc : orderKey c = (infMag : Int) := by simp [orderKey, sc, mc]
                 omega
    | false =>
      rw [fadd_of_finite ha (isFinite_of_not hb ib), fadd_of_finite ha (isFinite_of_not hc ic)]
      have := units_le_of_orderKey_le h
      exact orderKey_roundUnits_mono _ _ (by omega)

/-! ### Products with a positive factor -/

/-- The product with a finite factor that is positive and not zero: exact, then rounded once. -/
theorem fmul_of_pos {a k : F64} (ha : isNaN a = false) (hk : isFinite k = true) (hs : signBit k = false)
    (hz : isZero k = false) :
    fmul a k = if isInf a then ofSignMag (signBit a) infMag
      else ofSignMag (signBit a) (roundMag (unitsMag a * unitsMag k) (2 ^ 1074)) := by
  simp [fmul, ha, isNaN_of_isFinite hk, isInf_of_isFinite hk, hz, hs]

theorem isNaN_fmul_of_pos {a k : F64} (ha : isNaN a = false) (hk : isFinite k = true) (hs : signBit k = false)
    (hz : isZero k = false) : isNaN (fmul a k) = false := by
  rw [fmul_of_pos ha hk hs hz]
  split
  · simp only [isNaN, magBits_ofSignMag _ (by decide : infMag < 2 ^ 63)]; simp
  · simp only [isNaN, magBits_ofSignMag _ (roundMag_lt _ _)]
    have := roundMag_le_infMag (unitsMag a * unitsMag k) (2 ^ 1074)
    simp; omega

/-- The key of a product with a positive factor. -/
theorem orderKey_fmul_of_pos {a k : F64} (ha : isNaN a = false) (hk : isFinite k = true) (hs : signBit k = false)
    (hz : isZero k = false) :
    orderKey (fmul a k) = if signBit a
      then -((if isInf a then infMag else roundMag (unitsMag a * unitsMag k) (2 ^ 1074) : Nat) : Int)
      else ((if isInf a then infMag else roundMag (unitsMag a * unitsMag k) (2 ^ 1074) : Nat) : Int) := by
  rw [fmul_of_pos ha hk hs hz]
  split
  · rw [orderKey_ofSignMag _ (by decide)]
  · rw [orderKey_ofSignMag _ (roundMag_lt _ _)]

/-- The magnitude of a product with a fixed factor rises with the other factor's. -/
theorem mulMag_mono {a b k : F64} (hb : isNaN b = false) (h : magBits a ≤ magBits b) :
    (if isInf a then infMag else roundMag (unitsMag a * unitsMag k) (2 ^ 1074)) ≤
      (if isInf b then infMag else roundMag (unitsMag b * unitsMag k) (2 ^ 1074)) := by
  cases ib : isInf b with
  | true =>
    simp only [if_true]
    split
    · exact le_refl _
    · exact roundMag_le_infMag _ _
  | false =>
    have fb : magBits b < infMag := by simpa [isFinite] using isFinite_of_not hb ib
    have ia : isInf a = false := by simp only [isInf, decide_eq_false_iff_not]; omega
    simp only [ia, Bool.false_eq_true, if_false]
    apply roundMag_mono (Nat.two_pow_pos 1074) (Nat.two_pow_pos 1074)
    exact Nat.mul_le_mul_right _ (Nat.mul_le_mul_right _ (unitsMag_le h))

/-- A product with a positive factor rises with the other factor. -/
theorem orderKey_fmul_mono {a b k : F64} (ha : isNaN a = false) (hb : isNaN b = false) (hk : isFinite k = true)
    (hs : signBit k = false) (hz : isZero k = false) (h : orderKey a ≤ orderKey b) :
    orderKey (fmul a k) ≤ orderKey (fmul b k) := by
  rw [orderKey_fmul_of_pos ha hk hs hz, orderKey_fmul_of_pos hb hk hs hz]
  unfold orderKey at h
  cases sa : signBit a <;> cases sb : signBit b <;>
    simp only [sa, sb, if_true, Bool.false_eq_true, if_false] at h ⊢
  · have := mulMag_mono (a := a) (k := k) hb (by omega); omega
  · have z1 : magBits a = 0 := by omega
    have z2 : magBits b = 0 := by omega
    have i1 : isInf a = false := by simp [isInf, z1, infMag]
    have i2 : isInf b = false := by simp [isInf, z2, infMag]
    have h0 : unitsMag (0 : F64) = 0 := by decide
    have u1 : unitsMag a = 0 := by rw [← h0]; exact unitsMag_eq (by rw [z1]; rfl)
    have u2 : unitsMag b = 0 := by rw [← h0]; exact unitsMag_eq (by rw [z2]; rfl)
    simp only [i1, i2, u1, u2, Nat.zero_mul, Bool.false_eq_true, if_false]
    have : roundMag 0 (2 ^ 1074) = 0 := by decide +kernel
    omega
  · omega
  · have := mulMag_mono (a := b) (k := k) ha (by omega); omega

end Sys2Proof.Machine
end

