-- ==== Sys2Proof/Laws/PerInstr.lean ====
section
/-!
SUPPORT. The statements made per command: its word is legal and reads back as the command (R70, R73, R74).
-/
namespace Sys2Proof.Laws.WordReadsBack

/-- The word of a command passes every check of R74, and the decoder reads the command back from it. -/
def Statement (i : Instr) : Prop := legal (encode i) = true ∧ decode (encode i) = .ok i

theorem nop : Statement .nop := ⟨by decide, rfl⟩
theorem proc : Statement .proc := ⟨by decide, rfl⟩
theorem init : Statement .init := ⟨by decide, rfl⟩
theorem rdst (r : StateReg) : Statement (.rdst r) := by cases r <;> exact ⟨by decide, rfl⟩
theorem wrst (r : StateReg) : Statement (.wrst r) := by cases r <;> exact ⟨by decide, rfl⟩

end Sys2Proof.Laws.WordReadsBack
end

