-- ==== Sys2Proof/Laws/Proc.lean ====
section
/-!
SUPPORT. What one PROC does to each register (R101), and what it leaves alone (R135).
-/
namespace Sys2Proof.Machine

/-! ### The command around the sample -/

@[simp] theorem procCommand_core (cfg : ProcConfig) (s : State) :
    (procCommand cfg s).core = (process cfg s.core (procOperands s.ports)).st := rfl
@[simp] theorem procCommand_ill (cfg : ProcConfig) (s : State) : (procCommand cfg s).ill = s.ill := rfl
@[simp] theorem procCommand_ports (cfg : ProcConfig) (s : State) : (procCommand cfg s).ports = s.ports := rfl
@[simp] theorem procCommand_pending (cfg : ProcConfig) (s : State) : (procCommand cfg s).pending = s.pending := rfl
@[simp] theorem procCommand_faultLog (cfg : ProcConfig) (s : State) : (procCommand cfg s).faultLog = s.faultLog := rfl
@[simp] theorem procCommand_responses (cfg : ProcConfig) (s : State) :
    (procCommand cfg s).responses = s.responses ++ [.sample (process cfg s.core (procOperands s.ports)).out] := rfl

/-! ### The stages on one path -/

@[simp] theorem midRollerStage_mr (c : CoefSet) (x : F64) (p : PathState) :
    (midRollerStage c x p).mr = midRoller p.mr x c.roll := rfl
@[simp] theorem midRollerStage_hb (c : CoefSet) (x : F64) (p : PathState) : (midRollerStage c x p).hb = p.hb := rfl
@[simp] theorem midRollerStage_bqm (c : CoefSet) (x : F64) (p : PathState) : (midRollerStage c x p).bqm = p.bqm := rfl
@[simp] theorem midRollerStage_bqh (c : CoefSet) (x : F64) (p : PathState) : (midRollerStage c x p).bqh = p.bqh := rfl
@[simp] theorem headBumpStage_mr (L : Transcendentals) (c : CoefSet) (x : F64) (p : PathState) :
    (headBumpStage L c x p).mr = p.mr := rfl
@[simp] theorem headBumpStage_bqh (L : Transcendentals) (c : CoefSet) (x : F64) (p : PathState) :
    (headBumpStage L c x p).bqh = p.bqh := rfl
@[simp] theorem inputBiquadStage_mr (L : Transcendentals) (c : CoefSet) (x : F64) (p : PathState) :
    (inputBiquadStage L c x p).2.mr = p.mr := rfl
@[simp] theorem inputBiquadStage_hb (L : Transcendentals) (c : CoefSet) (x : F64) (p : PathState) :
    (inputBiquadStage L c x p).2.hb = p.hb := rfl
@[simp] theorem inputBiquadStage_bqm (L : Transcendentals) (c : CoefSet) (x : F64) (p : PathState) :
    (inputBiquadStage L c x p).2.bqm = p.bqm := rfl

/-! ### The filter bank -/

@[simp] theorem filterBank_pathSel (cfg : ProcConfig) (sr x : F64) (st : ProcessorState) :
    (filterBank cfg sr x st).st.pathSel = 1 - st.pathSel := by simp [filterBank]
@[simp] theorem filterBank_lastOut (cfg : ProcConfig) (sr x : F64) (st : ProcessorState) :
    (filterBank cfg sr x st).st.lastOut = st.lastOut := by simp [filterBank]
@[simp] theorem filterBank_dither (cfg : ProcConfig) (sr x : F64) (st : ProcessorState) :
    (filterBank cfg sr x st).st.dither = st.dither := by simp [filterBank]

/-- The path that is not active keeps its copies through the filter bank (R135). -/
theorem filterBank_other (cfg : ProcConfig) (sr x : F64) (st : ProcessorState) {q : BitVec 1} (h : q ≠ st.pathSel) :
    pathOf (filterBank cfg sr x st).st q = pathOf st q := by
  simp only [filterBank, pathOf_togglePath]
  exact pathOf_setPathOf_ne st _ h

/-- What the filter bank makes of the active path (R129, R132, R133, R134). -/
theorem filterBank_active (cfg : ProcConfig) (sr x : F64) (st : ProcessorState) :
    pathOf (filterBank cfg sr x st).st st.pathSel =
      (inputBiquadStage cfg.lib (coeffs cfg.lib cfg.form sr) x
        (headBumpStage cfg.lib (coeffs cfg.lib cfg.form sr) x
          (midRollerStage (coeffs cfg.lib cfg.form sr) x (pathOf st st.pathSel)))).2 := by
  simp [filterBank]

/-! ### The restraint -/

@[simp] theorem restrainHeadBump_lastOut (y : F64) (st : ProcessorState) :
    (restrainHeadBump y st).lastOut = st.lastOut := rfl
@[simp] theorem restrainHeadBump_pathSel (y : F64) (st : ProcessorState) :
    (restrainHeadBump y st).pathSel = st.pathSel := rfl
@[simp] theorem restrainHeadBump_dither (y : F64) (st : ProcessorState) :
    (restrainHeadBump y st).dither = st.dither := rfl

/-- The restraint writes HB of both paths and nothing else (R165). -/
theorem pathOf_restrainHeadBump (y : F64) (st : ProcessorState) (q : BitVec 1) :
    pathOf (restrainHeadBump y st) q =
      { pathOf st q with hb := restrain (suppressOf y) (pathOf st q).hb } := by
  unfold pathOf restrainHeadBump
  split <;> rfl

/-- A NaN accumulator stays the NaN it is (R165). -/
theorem restrain_nan (suppress : F64) {hb : F64} (h : isNaN hb = true) : restrain suppress hb = hb := by
  simp [restrain, fgt, flt_nan_right _ h, flt_nan_left _ h]

/-- A NaN suppress amount changes nothing (R164). -/
theorem restrain_nan_suppress {suppress : F64} (hb : F64) (h : isNaN suppress = true) : restrain suppress hb = hb := by
  have h' : isNaN (fneg suppress) = true := by simp [h]
  simp [restrain, fgt, flt_nan_left _ h, flt_nan_right _ h']

/-! ### One sample -/

@[simp] theorem process_pathSel (cfg : ProcConfig) (st : ProcessorState) (o : ProcOperands) :
    (process cfg st o).st.pathSel = 1 - st.pathSel := filterBank_pathSel ..
@[simp] theorem process_dither (cfg : ProcConfig) (st : ProcessorState) (o : ProcOperands) :
    (process cfg st o).st.dither = xorshift32 st.dither := rfl

/-- The sample after the spiral, in one PROC. -/
def spiralOut (cfg : ProcConfig) (st : ProcessorState) (o : ProcOperands) : F64 :=
  saturated cfg (inputGain cfg.lib o.control) (filterBank cfg o.rate (frontEnd cfg st.dither o) st)

/-- A path after one PROC is that path after the filter bank, its head bump restrained. -/
theorem pathOf_process (cfg : ProcConfig) (st : ProcessorState) (o : ProcOperands) (q : BitVec 1) :
    pathOf (process cfg st o).st q =
      { pathOf (filterBank cfg o.rate (frontEnd cfg st.dither o) st).st q with
        hb := restrain (suppressOf (spiralOut cfg st o))
          (pathOf (filterBank cfg o.rate (frontEnd cfg st.dither o) st).st q).hb } := by
  rw [← pathOf_restrainHeadBump]
  rfl

end Sys2Proof.Machine
end

