-- ==== Sys2Proof/Laws/Step.lean ====
section
/-!
SUPPORT. Once and for all, what a step and a command can do: everything a later proof needs of `step` and `exec`.
-/
namespace Sys2Proof.Machine

/-- Everything a command can do (R100, R101, R111, R112, R113). -/
theorem exec_cases {i : Instr} {s t : State} (h : exec i s = .next t) :
    (i = .nop ∧ t = s) ∨ (i = .proc ∧ t = procCommand ProcConfig.hardware s) ∨ (i = .init ∧ t = resetRegisters s) ∨
      (∃ r, i = .rdst r ∧ t = respond (.data (stateRead r s)) s) ∨
      (∃ r, i = .wrst r ∧ t = stateWrite r (wrstWord s.ports) s) := by
  cases i <;> simp_all [exec, execNop, execProc, execInit, execRdst, execWrst]

/-- Everything a step can do (R58, R212, R230, R243). -/
theorem step_cases {s t : State} (h : step s = .next t) :
    (s.pending = [] ∧ t = s) ∨
      ∃ p rest, s.pending = p :: rest ∧
        ((p.rst = true ∧ t = resetRegisters (present p rest s)) ∨
          (p.rst = false ∧ (∃ e, decode p.cmd = .error e) ∧ t = raiseIllegalCommand (present p rest s)) ∨
          (p.rst = false ∧ ∃ i, decode p.cmd = .ok i ∧ exec i (present p rest s) = .next t)) := by
  unfold step runNext runCommand at h
  split at h
  · rename_i hp
    exact .inl ⟨hp, by injection h with h; exact h.symm⟩
  · rename_i p rest hp
    refine .inr ⟨p, rest, hp, ?_⟩
    split at h
    · rename_i hr
      exact .inl ⟨hr, by injection h with h; exact h.symm⟩
    · rename_i hr
      have hr : p.rst = false := by simpa using hr
      split at h
      · rename_i i hd
        exact .inr (.inr ⟨hr, i, hd, h⟩)
      · rename_i e hd
        exact .inr (.inl ⟨hr, ⟨e, hd⟩, by injection h with h; exact h.symm⟩)

/-- What a command leaves of the host interface: only the responses can grow. -/
theorem exec_interface {i : Instr} {s t : State} (h : exec i s = .next t) :
    t.ports = s.ports ∧ t.pending = s.pending ∧ t.faultLog = s.faultLog := by
  rcases exec_cases h with ⟨-, rfl⟩ | ⟨-, rfl⟩ | ⟨-, rfl⟩ | ⟨r, -, rfl⟩ | ⟨r, -, rfl⟩ <;> simp

end Sys2Proof.Machine
end

