-- ==== Sys2Proof/Tests/Slice0.lean ====
section
/-!
SUPPORT. Tests of the model, and for each statement with hypotheses a witness that meets them. Every expected value is from
spec/ (95_test_vectors.md or the rule named) or follows from it by hand. A value that passes through a primitive of R11 is
tested on the configuration that rounds to nearest, which 95's own vectors use up to their library's last bit.
-/
namespace Sys2Proof.Tests

-- One theorem at a time: each kernel evaluation waits for the theorems before it, and every waiting thread keeps a stack.
set_option Elab.async false

open Sys2Proof Sys2Proof.Machine

/-! ### Helpers -/

/-- The configuration the tests of PROC run on: R5's defaults, each primitive rounding to nearest. -/
def near : ProcConfig := { lib := Transcendentals.nearestRounding, form := .doc, guard := false }

/-- Operands at 44100 Hz, control 0.5: `PROC a` of 95. -/
def at441 (a : F64) : ProcOperands := { sample := a, rate := 0x40E5888000000000, control := 0x3FE0000000000000 }

/-- The reset state with one command issued. -/
def issued (p : Ports) : State := issue [p] State.reset

/-- The reset state with STATUS.ILL set and one command issued. -/
def illIssued (p : Ports) : State := issue [p] (raiseIllegalCommand State.reset)

/-- Idle port values with `rst` asserted. -/
def rstPorts : Ports := { Ports.idle with rst := true }

/-- The reset state with a word on `din_wdata`. -/
def withWdata (w : Word64) : State := { State.reset with ports := { Ports.idle with dinWdata := w } }

/-- The state a step leaves. -/
def afterStep (s : State) : State := stepState s

/-- A quiet NaN. -/
def nan : F64 := 0x7FF8000000000000
/-- +∞. -/
def inf : F64 := 0x7FF0000000000000

/-! ### Well-formedness: an ill-formed word for each check, and a well-formed one (R70, R74) -/

theorem test_wf_rsv : rsvOk 0x00000100 = false ∧ rsvOk 0x80000003 = false ∧ legal 0x80000003 = false := by decide
theorem test_wf_op : opOk 0x00000005 = false ∧ opOk 0x0000000F = false ∧ legal 0x00000005 = false := by decide
theorem test_wf_idx : idxOk 0x00000010 = false ∧ idxOk 0x00000011 = false ∧ idxOk 0x00000012 = false ∧
    legal 0x00000012 = false := by decide
theorem test_wf_legal : legal 0x00000000 = true ∧ legal 0x00000001 = true ∧ legal 0x00000002 = true ∧
    legal 0x000000F3 = true ∧ legal 0x000000F4 = true := by decide

/-! ### Decoding, words written out from 30_encoding.md: RSV (24 bits), IDX (4), OP (4) -/

theorem test_decode_nop : decode 0b000000000000000000000000_0000_0000 = .ok .nop := by rfl
theorem test_decode_proc : decode 0b000000000000000000000000_0000_0001 = .ok .proc := by rfl
theorem test_decode_init : decode 0b000000000000000000000000_0000_0010 = .ok .init := by rfl
theorem test_decode_rdst_bqh_b_s2 : decode 0b000000000000000000000000_1011_0011 = .ok (.rdst .bqhBS2) := by rfl
theorem test_decode_wrst_hb_b : decode 0b000000000000000000000000_0011_0100 = .ok (.wrst .hbB) := by rfl
theorem test_decode_illegal : decode 0b000000000000000000000000_0000_0101 = .error .reservedOp ∧
    decode 0b000000000000000000000000_0001_0001 = .error .nonzeroIdx ∧
    decode 0b000000000000000000000001_0000_0011 = .error .nonzeroRsv := ⟨rfl, rfl, rfl⟩
theorem test_encode : encode (.rdst .status) = 0x000000F3 ∧ encode (.wrst .lastOut) = 0x000000C4 ∧
    encode (.wrst .dither) = 0x000000E4 ∧ encode .init = 0x00000002 := by decide
theorem test_decodeTableWord : decodeTableWord 32 0xE3 = some (.rdst .dither) ∧ decodeTableWord 4 0x21 = some .proc ∧
    decodeTableWord 32 0x10 = none := ⟨rfl, rfl, rfl⟩

/-! ### Constants (R6): each decimal literal rounds to its pattern -/

theorem test_literals :
    roundMag (118 * 2 ^ 1074) (10 ^ 45) = Config.floorThresh.toNat ∧
    roundMag (118 * 2 ^ 1074) (10 ^ 45) = Config.floorScale.toNat ∧
    roundMag (44100 * 2 ^ 1074) 1 = Config.refRate.toNat ∧
    roundMag (72 * 2 ^ 1074) (10 ^ 4) = Config.midFreq.toNat ∧
    roundMag (9 * 2 ^ 1074) (10 ^ 4) = Config.midQ.toNat ∧
    roundMag (32 * 2 ^ 1074) (10 ^ 3) = Config.highFreq.toNat ∧
    roundMag (7 * 2 ^ 1074) (10 ^ 4) = Config.highQ.toNat ∧
    roundMag (12 * 2 ^ 1074) (10 ^ 2) = Config.headBumpBase.toNat ∧
    roundMag (618033988749894848204586 * 2 ^ 1074) (10 ^ 24) = Config.softness.toNat ∧
    roundMag (5 * 2 ^ 1074) (10 ^ 2) = Config.bumpDrive.toNat ∧
    roundMag (1 * 2 ^ 1074) 10 = Config.bumpMix.toNat ∧
    roundMag (12533141373155 * 2 ^ 1074) (10 ^ 13) = Config.spiralBound.toNat ∧
    roundMag (13 * 2 ^ 1074) (10 ^ 5) = Config.suppressK.toNat ∧
    roundMag (99 * 2 ^ 1074) (10 ^ 2) = Config.limit.toNat ∧
    roundMag (11 * 2 ^ 1074) (10 ^ 45) = Config.ditherK.toNat ∧
    roundMag (0x7fffffff * 2 ^ 1074) 1 = Config.ditherOffset.toNat := by decide +kernel

theorem test_literals_exact :
    roundMag (2 ^ 1058) 1 = Config.gainCut.toNat ∧ roundMag (2 ^ 1090) 1 = Config.gainBoost.toNat ∧
    roundMag (24 * 2 ^ 1074) 1 = Config.gainRangeDb.toNat ∧ roundMag (20 * 2 ^ 1074) 1 = Config.dbDiv.toNat ∧
    roundMag (2 ^ 1073) 1 = Config.gainCenter.toNat ∧ roundMag (2 ^ 1074) 1 = Config.one.toNat ∧
    roundMag (2 ^ 1075) 1 = Config.two.toNat ∧ roundMag (10 * 2 ^ 1074) 1 = Config.ten.toNat := by decide +kernel

/-- PI and HALF_PI (R6), from π itself. -/
theorem test_pi : roundMag (piFixed * 2 ^ 1074) (2 ^ 1280) = Config.pi.toNat ∧
    roundMag (piFixed * 2 ^ 1074) (2 ^ 1281) = Config.halfPi.toNat ∧ fdiv Config.pi Config.two = Config.halfPi := by
  decide +kernel

/-! ### π and ln 2, the only literals of Elementary.lean, from series of their own -/

/-- `2ᵇ · (arctan or artanh of 1/q)`: `t` is `2ᵇ / q^(2k+1)`, `s` the sign that each term multiplies by. -/
def inverseSeries (q s : Int) : Nat → Int → Int → Int → Int
  | 0, _, _, _ => 0
  | fuel + 1, k, sg, t => sg * (t / (2 * k + 1)) + inverseSeries q s fuel (k + 1) (sg * s) (t / (q * q))

/-- Machin's formula, `π = 16 arctan 1/5 − 4 arctan 1/239`. -/
theorem test_pi_machin :
    (16 * inverseSeries 5 (-1) 300 0 1 (2 ^ 1320 / 5) - 4 * inverseSeries 239 (-1) 90 0 1 (2 ^ 1320 / 239)) / 2 ^ 40 =
      (piFixed : Int) := by decide +kernel

/-- `ln 2 = 2 artanh 1/3`. -/
theorem test_ln2 : 2 * inverseSeries 3 1 100 0 1 (2 ^ 296 / 3) / 2 ^ 40 = (ln2Fixed : Int) := by decide +kernel

/-! ### Arithmetic (R8, R12, R13), on cases with a rounding, a tie or a special value -/

theorem test_add : fadd 0x3FF0000000000000 0x3CA0000000000000 = 0x3FF0000000000000 ∧
    fadd 0x3FF0000000000001 0x3CA0000000000000 = 0x3FF0000000000002 ∧
    fadd 0x7FEFFFFFFFFFFFFF 0x7FEFFFFFFFFFFFFF = inf ∧
    fadd 0x8000000000000000 0x8000000000000000 = 0x8000000000000000 ∧
    fadd 0x3FF0000000000000 0xBFF0000000000000 = 0 ∧ fsub 0x3FF0000000000000 0x3CA0000000000000 = 0x3FEFFFFFFFFFFFFF := by
  decide +kernel
theorem test_mul : fmul 0x0000000000000001 0x3FE0000000000000 = 0 ∧
    fmul 0x0000000000000003 0x3FE0000000000000 = 0x0000000000000002 ∧
    fmul 0xBFF0000000000000 0 = 0x8000000000000000 ∧
    fmul 0x3FF0000000000001 0x3FF0000000000001 = 0x3FF0000000000002 := by decide +kernel
theorem test_div : fdiv 0x3FF0000000000000 0x4008000000000000 = 0x3FD5555555555555 ∧
    fdiv 0xBFF0000000000000 0 = 0xFFF0000000000000 ∧ fdiv 0x3FF0000000000000 0xFFF0000000000000 = 0x8000000000000000 ∧
    fdiv 0x0010000000000000 0x4000000000000000 = 0x0008000000000000 := by decide +kernel
theorem test_compare : flt 0x8000000000000000 0 = false ∧ feq 0x8000000000000000 0 = true ∧ flt nan 0 = false ∧
    fge nan 0 = false ∧ clamp nan (fneg Config.one) Config.one = nan ∧ clamp inf (fneg Config.one) Config.one = Config.one ∧
    clamp 0xC000000000000000 (fneg Config.one) Config.one = 0xBFF0000000000000 := by decide +kernel
/-- V-DITH's table of exponents. -/
theorem test_frexp : frexpExp 0x3FEFAE147AE147AE = 0 ∧ frexpExp 0x3FDFFFFFFFFFFFFF = -1 ∧ frexpExp 0xBFE8000000000000 = 0 ∧
    frexpExp 0x0010000000000000 = -1021 ∧ frexpExp 0x0000000000000001 = -1073 ∧ frexpExp 0 = 0 ∧ frexpExp inf = 0 := by
  decide +kernel

/-! ### Front end (V-FE, R103 to R107) -/

theorem test_cut : headroomCut 0x4100000000000000 = 0x4000000000000000 ∧ headroomCut Config.one = 0x3EF0000000000000 ∧
    headroomCut 0x0000000000000001 = 0 := by decide +kernel
theorem test_floor : nearZeroFloor 0x8000000000000000 17 = 0x37465E1E246A07C9 ∧
    nearZeroFloor 0x37050D498BAF1663 17 = 0x37050D498BAF1663 ∧ nearZeroFloor 0 0xFFFFFFFF = 0x39050D498B9A0919 ∧
    nearZeroFloor 0 1 = 0x37050D498BAF1663 ∧ nearZeroFloor nan 17 = nan := by decide +kernel
theorem test_guard : inputGuard false inf = inf ∧ inputGuard true inf = 0 ∧ inputGuard true nan = 0 ∧
    inputGuard true Config.one = Config.one := by decide +kernel
theorem test_gain : inputGain near.lib 0x3F847AE147AE147B = 0x3FD086C66CB6A52E ∧
    inputGain near.lib 0x3FD3333333333333 = 0x3FE26A0103F59CB2 ∧ inputGain near.lib 0x3FE0000000000000 = Config.one ∧
    inputGain near.lib 0x3FEFAE147AE147AE = 0x400EFB095C852567 ∧ inputGain near.lib 0x4000000000000000 = 0x404F8C4106C1ABFC := by
  decide +kernel
theorem test_preAttenuate : preAttenuate 0x4000000000000000 0x3FD086C66CB6A52E = 0x3FE086C66CB6A52E ∧
    preAttenuate 0x4000000000000000 0x400EFB095C852567 = 0x4000000000000000 ∧
    preAttenuate 0x4000000000000000 nan = 0x4000000000000000 := by decide +kernel

/-! ### R11 (b): what a free value may be, and the exact results -/

/-- COS(2⁻⁵⁰) is just below 1: one unit there is 2⁻⁵³, so 1 − 2⁻⁵³ may stand and 1 − 2⁻⁵² may not. SIN(2⁻²⁰⁰) is just below
2⁻²⁰⁰: the value next above may not stand, the value next below may. -/
theorem test_oneUlp : cosOf (fun _ => 0x3FEFFFFFFFFFFFFF) 0x3CD0000000000000 = 0x3FEFFFFFFFFFFFFF ∧
    cosOf (fun _ => 0x3FEFFFFFFFFFFFFE) 0x3CD0000000000000 = Config.one ∧
    sinOf (fun _ => 0x3370000000000001) 0x3370000000000000 = 0x3370000000000000 ∧
    sinOf (fun _ => 0x336FFFFFFFFFFFFF) 0x3370000000000000 = 0x336FFFFFFFFFFFFF := by decide +kernel
/-- 10² is 100 exactly, so its neighbours are one unit away and may stand; (−2)³ = −8; 4^0.5 = 2; (−8)^0.5 is NaN; (−0)⁻³ = −∞;
0.5^−∞ = +∞; 1² = 1, although its neighbour is one unit away. -/
theorem test_pow : powOf (fun _ _ => 0x4059000000000001) Config.ten Config.two = 0x4059000000000001 ∧
    powOf (fun _ _ => 0x4059000000000002) Config.ten Config.two = 0x4059000000000000 ∧
    near.lib.pow 0xC000000000000000 0x4008000000000000 = 0xC020000000000000 ∧
    near.lib.pow 0x4010000000000000 0x3FE0000000000000 = Config.two ∧
    near.lib.pow 0x8000000000000000 0xC008000000000000 = 0xFFF0000000000000 ∧
    near.lib.pow 0x3FE0000000000000 0xFFF0000000000000 = inf ∧
    powOf (fun _ _ => 0x3FF0000000000001) Config.one Config.two = Config.one := by decide +kernel
theorem test_pow_domain (free : F64 → F64 → F64) : isNaN (powOf free 0xC020000000000000 0x3FE0000000000000) = true := by
  have h : (signBit 0xC020000000000000 && !isInteger 0x3FE0000000000000) = true := by decide +kernel
  unfold powOf
  rw [if_neg (by decide), if_neg (by decide), if_neg (by decide), if_neg (by decide), if_pos h]
  exact isNaN_producedNaN _ _ _

/-! ### Host duties (R233): P-CTL, P-RATE and P-FIN speak of a PROC only -/

theorem test_duties : dutiful (assemble (.rdst .mrA)) = true ∧ dutiful (assemble (.proc 0 0x40E5888000000000 nan)) = false ∧
    dutiful (assemble (.proc 0 0 0x3FE0000000000000)) = false ∧
    dutiful (assemble (.proc Config.one 0x40E5888000000000 0x3FE0000000000000)) = true ∧
    dutiful (assemble (.seed 0)) = false := by decide +kernel

/-! ### Stages (V-BQ, V-KNEE, V-SAT, V-HYS, V-DITH) -/

/-- From reset, `PROC 1.0`: MR, BQM and BQH of path A. -/
theorem test_filter_bank :
    (filterBank near 0x40E5888000000000 0x3EF0000000000000 ProcessorState.reset).st.pathA.mr = 0x3ED8722191A02D60 ∧
    (filterBank near 0x40E5888000000000 0x3EF0000000000000 ProcessorState.reset).st.pathA.bqm =
      { s1 := 0xBEA6BCB56DF0B0DC, s2 := 0x3EA6BC370CBD5387 } ∧
    (filterBank near 0x40E5888000000000 0x3EF0000000000000 ProcessorState.reset).st.pathA.bqh =
      { s1 := 0xBEEF57FE3C41B159, s2 := 0x3EEF55B622DD2A57 } := by decide +kernel
/-- R121 at an infinite rate, by hand: f = 0, K = 0, norm = 1 (log 15). -/
theorem test_infinite_rate : (coeffs near.lib .doc inf).mid =
    { b0 := 0, b1 := 0x8000000000000000, b2 := 0, a1 := 0xC000000000000000, a2 := Config.one } := by decide +kernel
/-- `ASIN(CLAMP1(±1.5))` and `ASIN(CLAMP1(0.5))`. -/
theorem test_clampedAsin : clampedAsin near.lib 0x3FF8000000000000 = Config.halfPi ∧
    clampedAsin near.lib 0xBFF8000000000000 = fneg Config.halfPi ∧
    clampedAsin near.lib 0x3FE0000000000000 = 0x3FE0C152382D7366 := by decide +kernel
theorem test_knee : kneeAmount near.lib 0x3FE0000000000000 = 0x3FD2BEC333018866 ∧
    kneeAmount near.lib 0x3E45798EE2308C3A = 0x3CA0000000000000 ∧ kneeAmount near.lib Config.one = 0x3FEFFFFFFFFFFFFF ∧
    kneeAmount near.lib inf = 0x3FEFFFFFFFFFFFFF := by decide +kernel
theorem test_spiral : spiral near.lib 0x3FE0000000000000 = 0x3FDFAAEED4F31577 ∧
    spiral near.lib 0xBFE0000000000000 = 0xBFDFAAEED4F31577 ∧ spiral near.lib Config.one = 0x3FEAED548F090CEE ∧
    spiral near.lib (spiralClamp inf) = 0x3FE9884533D43653 ∧ spiral near.lib 0x8000000000000000 = 0x8000000000000000 := by
  decide +kernel
/-- Rows of the restraint table: 0.001, 5e-5, and 6.5e-5 itself. -/
theorem test_restrain : restrain 0x3F110A137F38C543 0x3F50624DD2F1A9FC = 0x3F4EA35935FC3B50 ∧
    restrain 0x3F110A137F38C543 0x3F0A36E2EB1C432D = 0x3F0A36E2EB1C432D ∧
    restrain 0x3F110A137F38C543 0x3F110A137F38C543 = 0x3F110A137F38C543 ∧
    restrain 0x3F110A137F38C543 0xBF110A137F38C543 = 0xBF110A137F38C543 := by decide +kernel
/-- The fixed point V-STEP converges to. -/
theorem test_ceiling : hysteresis 0x3FEFAE147AE147AD 0x4000000000000000 = 0x3FEFAE147AE147AD ∧
    hysteresis 0x7FF8000000000000 0x4000000000000000 = Config.limit := by decide +kernel
theorem test_xorshift : xorshift32 17 = 0x00462210 ∧ xorshift32 0x80000000 = 0x80084000 ∧
    xorshift32 0x00003C00 = 0xF787C7C0 := by decide
/-- The examples of R192. -/
theorem test_noise : noiseOf near.lib 0x00462210 0 = 0xBC9F550E06944101 ∧
    noiseOf near.lib 0x00462210 (-15) = 0xBBAF550E06944101 ∧ noiseOf near.lib 0xFFFFFFFF 0 = 0x3C9F66424E2C32BF ∧
    noiseOf near.lib 0x7FFFFFFF (-3) = 0 := by decide +kernel

/-! ### PROC (V-PROC), one sample from reset -/

/-- V-IMP-DOC, output 1. -/
theorem test_proc_impulse : (process near ProcessorState.reset (at441 Config.one)).out = 0x3FF013AAA64699EA := by
  decide +kernel
/-- V-SIL and P1, output 1, and what P1 gives for path B: still untouched. -/
theorem test_proc_silence : (process near ProcessorState.reset (at441 0)).out = 0x384679A702FC5F3C ∧
    (process near ProcessorState.reset (at441 0)).st.pathB = PathState.reset := by decide +kernel

/-! ### Commands, one step each (V-CMD, V-ENC) -/

theorem test_nop : step (issued { Ports.idle with cmd := 0x00000000 }) = .next State.reset := by rfl
theorem test_init_clears_ill : (afterStep (illIssued { Ports.idle with cmd := 0x00000002 })).ill = 0 := by decide
theorem test_rdst_dither : (afterStep (issued { Ports.idle with cmd := 0x000000E3 })).responses = [.data 0x11] := by decide
theorem test_wrst_narrow :
    (afterStep (issued { Ports.idle with cmd := 0x000000E4, dinWdata := 0xFFFFFFFF12345678 })).core.dither = 0x12345678 ∧
    (afterStep (issued { Ports.idle with cmd := 0x000000D4, dinWdata := 3 })).core.pathSel = 1 := by decide
theorem test_wrst_status :
    (afterStep (illIssued { Ports.idle with cmd := 0x000000F4, dinWdata := 0 })).ill = 1 ∧
    (afterStep (illIssued { Ports.idle with cmd := 0x000000F4, dinWdata := 1 })).ill = 0 ∧
    (afterStep (issued { Ports.idle with cmd := 0x000000F4, dinWdata := 1 })).ill = 0 := by decide
theorem test_wrst_keeps_every_bit :
    (afterStep (issued { Ports.idle with cmd := 0x00000004, dinWdata := 0x7FF0000000000001 })).core.pathA.mr =
      0x7FF0000000000001 ∧
    (afterStep (issued { Ports.idle with cmd := 0x00000034, dinWdata := 0x8000000000000000 })).core.pathB.hb =
      0x8000000000000000 := by decide
theorem test_illegal : (afterStep (issued { Ports.idle with cmd := 0x00000011 })).ill = 1 ∧
    (afterStep (issued { Ports.idle with cmd := 0x00000011 })).core = ProcessorState.reset ∧
    (afterStep (issued { Ports.idle with cmd := 0x80000003 })).responses = [] := by decide
theorem test_rst_skips_the_command :
    (afterStep (illIssued { rstPorts with cmd := 0x000000E3 })).responses = [] ∧
    (afterStep (illIssued { rstPorts with cmd := 0x000000E3 })).ill = 0 := by decide

/-! ### A placed word is the next command -/

theorem test_withFetchWord : (afterStep (State.reset.withFetchWord 32 0xE3)).responses = [.data 0x11] ∧
    (afterStep (State.reset.withFetchWord 32 0x05)).ill = 1 := by decide
theorem test_withFetchWord_proc : step (State.reset.withFetchWord 32 1) =
    exec .proc { State.reset with ports := { Ports.idle with cmd := 1 } } := by rfl

/-! ### The assembler's text (R79, R80) -/

theorem test_text : assembleText "INIT ; reset\nPROC0 44100.0, 0.5\n\n; only a comment\nSEED 0x3C00\nRDST 14".toList =
    some [{ Ports.idle with cmd := 2 },
      { Ports.idle with cmd := 1, dinRate := 0x40E5888000000000, dinControl := 0x3FE0000000000000 },
      { Ports.idle with cmd := 0xE4, dinWdata := 0x3C00 }, { Ports.idle with cmd := 0xE3 }] := by decide +kernel
theorem test_text_refused : parseLine "NOP 1".toList = none ∧ parseLine "PROC 1.0, 0x3FF".toList = none ∧
    parseLine "RDST 16".toList = none ∧ parseLine "SETPATH 2".toList = none ∧ parseLine ".word 0x5".toList = none := by
  decide +kernel

/-! ### Witnesses: a state and operands that meet each statement's hypotheses -/

theorem witness_decodeAndEncodeAgree : decode 0x000000C3 = .ok (.rdst .lastOut) ∧ decode 0 = .ok .nop := ⟨rfl, rfl⟩

theorem witness_stepRunsTheDecodedCommand : ∃ (s : State) (p : Ports) (i : Instr),
    s.pending = p :: [] ∧ p.rst = false ∧ decode p.cmd = .ok i :=
  ⟨issued { Ports.idle with cmd := 1 }, { Ports.idle with cmd := 1 }, .proc, rfl, rfl, rfl⟩

theorem witness_idle : State.reset.pending = [] := by rfl

theorem witness_reset : (issued rstPorts).pending = rstPorts :: [] ∧ rstPorts.rst = true := ⟨rfl, rfl⟩

theorem witness_illegalWord : (issued { Ports.idle with cmd := 5 }).pending = { Ports.idle with cmd := 5 } :: [] ∧
    ∀ i, decode ({ Ports.idle with cmd := 5 } : Ports).cmd ≠ .ok i :=
  ⟨rfl, fun _ h => nomatch h⟩

theorem witness_step : step (issued { Ports.idle with cmd := 0xE3 }) =
    .next (afterStep (issued { Ports.idle with cmd := 0xE3 })) := by rfl

/-- A step of a state answers what `afterStep` says. -/
def steps (s : State) : Prop := step s = .next (afterStep s)

/-- `rst`, INIT and CLRILL each clear a set ILL. -/
theorem witness_clearIll : (steps (illIssued rstPorts) ∧ steps (illIssued { Ports.idle with cmd := 2 }) ∧
      steps (illIssued (assemble .clrill))) ∧
    (illIssued rstPorts).ill = 1 ∧ (afterStep (illIssued rstPorts)).ill ≠ 1 ∧
    (afterStep (illIssued { Ports.idle with cmd := 2 })).ill ≠ 1 ∧ (afterStep (illIssued (assemble .clrill))).ill ≠ 1 :=
  ⟨⟨rfl, rfl, rfl⟩, by decide⟩

theorem witness_setIll : steps (issued { Ports.idle with cmd := 5 }) ∧ (issued { Ports.idle with cmd := 5 }).ill ≠ 1 ∧
    (afterStep (issued { Ports.idle with cmd := 5 })).ill = 1 := ⟨rfl, by decide⟩

/-- PROC and WRST move PATH_SEL and DITHER; INIT and `rst` move them from a state where the host has written them. -/
theorem witness_sequence :
    (steps (issued { Ports.idle with cmd := 1 }) ∧ steps (issued (assemble (.setpath 1))) ∧
      steps (issue [{ Ports.idle with cmd := 2 }] (stateWrite .dither 1 State.reset)) ∧
      steps (issue [rstPorts] (stateWrite .pathSel 1 State.reset))) ∧
    (afterStep (issued { Ports.idle with cmd := 1 })).core.pathSel ≠ State.reset.core.pathSel ∧
    (afterStep (issued { Ports.idle with cmd := 1 })).core.dither ≠ State.reset.core.dither ∧
    (afterStep (issued (assemble (.setpath 1)))).core.pathSel ≠ 0 ∧
    (afterStep (issue [{ Ports.idle with cmd := 2 }] (stateWrite .dither 1 State.reset))).core.dither ≠ 1 ∧
    (afterStep (issue [rstPorts] (stateWrite .pathSel 1 State.reset))).core.pathSel ≠ 1 := by
  refine ⟨⟨rfl, rfl, rfl, rfl⟩, ?_, ?_, ?_, ?_, ?_⟩ <;> decide +kernel

theorem witness_seedAlive : seedAlive (issued { Ports.idle with cmd := 1 }) = true ∧
    (∃ t, step (issued { Ports.idle with cmd := 1 }) = .next t) ∧
    seedAlive (issued { Ports.idle with cmd := 0xE4, dinWdata := 0xFFFFFFFF00000000 }) = false := by
  refine ⟨by decide, ⟨_, rfl⟩, by decide⟩

theorem witness_lastOutBounded : lastOutBounded (issued { Ports.idle with cmd := 0xC4, dinWdata := Config.limit }) = true ∧
    (∃ t, step (issued { Ports.idle with cmd := 0xC4, dinWdata := Config.limit }) = .next t) ∧
    lastOutBounded (issued { Ports.idle with cmd := 0xC4, dinWdata := 0x3FEFAE147AE147AF }) = false := by
  refine ⟨by decide +kernel, ⟨_, rfl⟩, by decide +kernel⟩

theorem witness_illLogged : illLogged (illIssued (assemble .clrill)) = true ∧
    ∃ t, step (illIssued (assemble .clrill)) = .next t := ⟨by decide, _, rfl⟩

theorem witness_narrow : (3 : Word64).toNat % 2 = (1 : Word64).toNat % 2 ∧
    (0xFFFFFFFF12345678 : Word64).toNat % 2 ^ 32 = (0x12345678 : Word64).toNat % 2 ^ 32 := by decide

theorem witness_rdst : exec (.rdst .mrA) State.reset = .next (respond (.data 0) State.reset) := by rfl

theorem witness_differentRegisters : StateReg.bqmAS1 ≠ StateReg.bqmAS2 := by decide

/-- A NaN sample, and a NaN MR, on the active path. -/
theorem witness_midRoller : isNaN (frontEnd ProcConfig.hardware 17 (at441 nan)) = true ∧
    isNaN (pathOf (stateWrite .mrA nan State.reset).core 0).mr = true := by
  refine ⟨?_, by decide⟩
  have h : isNaN (headroomCut nan) = true := isNaN_fmul_left _ (by decide)
  have h2 : nearZeroFloor (headroomCut nan) 17 = headroomCut nan := by
    simp only [nearZeroFloor, flt_nan_left _ ((isNaN_fabs _).trans h), Bool.false_eq_true, if_false]
  change isNaN (preAttenuate (nearZeroFloor (headroomCut nan) 17) _) = true
  rw [h2, preAttenuate]
  split
  · exact isNaN_fmul_left _ h
  · exact h

/-- A NaN and an infinite sample, a NaN and a zero rate, a zero MR; the last clause's conditions at 44100 Hz and a NaN control,
where the gain is a NaN and so not zero. -/
theorem witness_nanSample : isNaN nan = true ∧ isFinite nan = false ∧ isInf inf = true ∧ isFinite inf = false ∧
    isZero 0x8000000000000000 = true ∧ isZero State.reset.core.pathA.mr = true ∧ isFinite State.reset.core.pathA.mr = true ∧
    isZero (inputGain Transcendentals.configured nan) = false ∧
    flt Config.zero (coeffs Transcendentals.configured .doc 0x40E5888000000000).roll = true ∧
    fle (coeffs Transcendentals.configured .doc 0x40E5888000000000).roll Config.two = true := by
  refine ⟨by decide, by decide, by decide, by decide, by decide, by decide, by decide, ?_, by decide +kernel, by decide +kernel⟩
  have h : isNaN (inputGain Transcendentals.configured nan) = true :=
    isNaN_powOf_right _ _ (isNaN_fdiv_left _ (isNaN_fmul_left _ (isNaN_fsub_left _ (by decide))))
  simp only [isNaN, isZero, decide_eq_true_eq, decide_eq_false_iff_not] at h ⊢
  omega

/-- Three issued PROCs with different operands. -/
theorem witness_pathSel : ∀ p ∈ (issue [assemble (.proc 0 0 0), assemble (.proc 1 2 3), assemble (.proc0 4 5)]
    State.reset).pending, p.rst = false ∧ decode p.cmd = .ok .proc := by
  intro p hp
  simp only [issue_pending, State.reset, List.nil_append, List.mem_cons, List.not_mem_nil, or_false] at hp
  rcases hp with rfl | rfl | rfl <;> exact ⟨rfl, rfl⟩

theorem witness_nanHeadBump : isNaN (pathOf (stateWrite .hbA nan State.reset).core 0).hb = true ∧
    isNaN (pathOf (stateWrite .hbB nan State.reset).core 1).hb = true := by decide

theorem witness_nanControl : isNaN nan = true := by decide

/-- A NaN, the threshold itself, and the value just below it. -/
theorem witness_floor : isNaN nan = true ∧ fge (fabs 0xB7050D498BAF1663) Config.floorThresh = true ∧
    flt (fabs 0xB7050D498BAF1662) Config.floorThresh = true := by decide +kernel

theorem witness_outputRestore : fle (fabs 0xBFF0000000000000) Config.one = true ∧ fle (fabs 1) Config.one = true := by
  decide +kernel

theorem witness_knee : fgt 1 Config.zero = true ∧ flt 0x8000000000000001 Config.zero = true ∧
    isZero 0x8000000000000000 = true ∧ isNaN nan = true ∧ isNaN inf = false := by decide +kernel

/-- The exponents 0 and −1073, the centre of the generator's range. -/
theorem witness_noise : (-1073 : Int) ≤ 0 ∧ (0 : Int) ≤ 0 ∧ (-1073 : Int) ≤ -1073 ∧ (-1073 : Int) ≤ 0 ∧
    ∃ s : Word32, s = 0x7FFFFFFF := ⟨by decide, by decide, by decide, by decide, _, rfl⟩

/-- −0.0, a NaN, and 1e-200. -/
theorem witness_spiral : isZero 0x8000000000000000 = true ∧ isNaN nan = true ∧ isFinite 0x16687E92154EF7AC = true ∧
    isZero (fmul 0x16687E92154EF7AC (fabs 0x16687E92154EF7AC)) = true := by decide +kernel

/-- 0.001, −0.001 and the boundary, with suppress 6.5e-5. -/
theorem witness_restraint : fle Config.zero 0x3F110A137F38C543 = true ∧ fgt 0x3F50624DD2F1A9FC 0x3F110A137F38C543 = true ∧
    flt 0xBF50624DD2F1A9FC (fneg 0x3F110A137F38C543) = true ∧ fgt 0x3F110A137F38C543 0x3F110A137F38C543 = false ∧
    flt 0x3F110A137F38C543 (fneg 0x3F110A137F38C543) = false ∧ isNaN nan = true := by decide +kernel

theorem witness_limiter : isNaN inf = false ∧ isNaN 0xC024000000000000 = false := by decide

theorem witness_generator : exec .nop State.reset = .next State.reset ∧ Instr.nop ≠ .proc ∧ Instr.nop ≠ .init ∧
    Instr.nop ≠ .wrst .dither ∧ (1 : Word32) ≠ 0 := ⟨rfl, by decide⟩

/-- DITHER 0, with a PROC, an illegal word and a WRST DITHER, 0 issued. -/
theorem witness_zeroLock :
    let s := issue [assemble (.proc 1 2 3), assemble (.word 5), assemble (.seed 0)] (stateWrite .dither 0 State.reset)
    s.core.dither = 0 ∧ (∀ p ∈ s.pending, p.rst = false ∧ decode p.cmd ≠ .ok .init ∧
      (decode p.cmd = .ok (.wrst .dither) → p.dinWdata.extractLsb' 0 32 = 0)) ∧
    flt (fabs 0) Config.floorThresh = true := by
  refine ⟨rfl, ?_, by decide +kernel⟩
  intro p hp
  simp only [issue_pending, stateWrite_pending, State.reset, List.nil_append, List.mem_cons, List.not_mem_nil, or_false] at hp
  rcases hp with rfl | rfl | rfl
  · exact ⟨rfl, nofun, nofun⟩
  · exact ⟨rfl, nofun, nofun⟩
  · exact ⟨rfl, nofun, fun _ => by decide⟩

/-- Every hypothesis of `ZeroLockOutputIsConstant` at once. -/
theorem witness_zeroLockOutput :
    ∃ s : State, s.core.pathA = PathState.reset ∧ s.core.pathB = PathState.reset ∧ s.core.lastOut = 0 ∧
      s.core.dither = 0 ∧ s.ports.dinSample = 0 ∧ s.ports.dinRate = 0x40E5888000000000 ∧
      s.ports.dinControl = 0x3FE0000000000000 :=
  ⟨{ stateWrite .dither 0 State.reset with
      ports := { Ports.idle with dinRate := 0x40E5888000000000, dinControl := 0x3FE0000000000000 } },
    rfl, rfl, rfl, rfl, rfl, rfl, rfl⟩

/-- Half a least subnormal: a tie between 0 and 1. -/
theorem witness_rounding : 0 < 2 ∧ isFinite Config.one = true ∧ isZero Config.one = false ∧ roundMag 1 2 < infMag ∧ isFinite 1 = true ∧
    (((unitsMag (ofSignMag false (roundMag 1 2)) * 2 : Nat) : Int) - 1).natAbs = ((unitsMag 1 * 2 : Nat) - (1 : Int)).natAbs ∧
    unitsMag 1 ≠ unitsMag (ofSignMag false (roundMag 1 2)) := by decide +kernel

theorem witness_specialResults : isFinite Config.one = true ∧ isZero Config.one = false ∧ isZero 0x8000000000000000 = true ∧
    isInf inf = true ∧ isInf (fneg inf) = true ∧ isNaN nan = true ∧ isFinite 0x7FEFFFFFFFFFFFFF = true := by decide +kernel

theorem witness_comparisons : isNaN nan = true ∧ isInf inf = true ∧ isNaN (fneg inf) = false ∧ isZero 0 = true ∧ isZero 0x8000000000000000 = true ∧
    isFinite 0x7FEFFFFFFFFFFFFF = true := by decide

theorem witness_frexp : isFinite 1 = true ∧ isZero 1 = false ∧ isZero 0x8000000000000000 = true ∧ isInf inf = true ∧
    isNaN nan = true := by decide

/-- −8 and 0.5, a negative base with a finite exponent that is no integer. -/
theorem witness_powSpecial : isFinite 0xC020000000000000 = true ∧ isZero 0xC020000000000000 = false ∧
    signBit 0xC020000000000000 = true ∧ isFinite 0x3FE0000000000000 = true ∧ isInteger 0x3FE0000000000000 = false ∧
    isZero 0x3FE0000000000000 = false := by decide +kernel

/-- ±0; the range of ASIN at its ends; ±∞, NaN; just above 1; the exponents ±∞. -/
theorem witness_primitives : isZero 0x8000000000000000 = true ∧ fle (fneg Config.one) Config.one = true ∧
    fle (fneg Config.one) (fneg Config.one) = true ∧ isInf inf = true ∧ isInf (fneg inf) = true ∧ isNaN nan = true ∧
    fgt (fabs 0x3FF0000000000001) Config.one = true := by decide +kernel

/-- For POW: the bases 10 and −2, the exponent 3, and the base 2 with the exponent 0.5. -/
theorem witness_oneUlp_pow : signBit Config.ten = false ∧ Config.ten ≠ Config.two ∧ signBit 0xC000000000000000 = true ∧
    isInteger 0x4008000000000000 = true ∧ isInteger 0x3FE0000000000000 = false := by decide +kernel

theorem witness_oneUlp : isFinite 0x7FEFFFFFFFFFFFFF = true ∧ isZero 0x7FEFFFFFFFFFFFFF = false ∧ isFinite 1 = true ∧
    isZero 1 = false ∧ flt (fabs 0xBFEFFFFFFFFFFFFF) Config.one = true ∧ isZero 0xBFEFFFFFFFFFFFFF = false := by
  decide +kernel

theorem witness_powTwo : (-1074 : Int) ≤ -1074 ∧ (1023 : Int) ≤ 1023 ∧ (-100000 : Int) < -1075 ∧ (-1075 : Int) < -1074 ∧
    (1023 : Int) < 1024 ∧ (1024 : Int) < 100000 := by decide

theorem witness_twoInstances : (∃ t, step State.reset = .next t) ∧ (0 : Nat) ≠ 1 ∧ ([State.reset, State.reset] : List State)[1]? = some State.reset :=
  ⟨⟨_, rfl⟩, by decide⟩

theorem witness_clrill : (illIssued (assemble .clrill)).pending = assemble .clrill :: [] := by rfl

end Sys2Proof.Tests
end

section
/-!
PROOFS. The rounding function is to nearest, ties to even, and overflows half a unit above the largest finite value; each of
the four operations on finite values is one rounding of its exact result (R8).
-/
namespace Sys2Proof.Machine

/-! ### Patterns and the magnitudes they stand for (R72) -/

/-- A pattern is `e` binades above the subnormals' unit and `q` units in: it stands for `q` units of `2 ^ e`. The carry into
the next binade, `q = 2 ^ 53`, is covered. -/
theorem unitsMag_of_magBits {x : F64} {e q : Nat} (h : magBits x = e * 2 ^ 52 + q) (hq : q ≤ 2 ^ 53)
    (he : e = 0 ∨ 2 ^ 52 ≤ q) : unitsMag x = q * 2 ^ e := by
  unfold unitsMag expField fracField
  rw [h]
  rcases Nat.lt_or_ge q (2 ^ 52) with hsub | hnorm
  · obtain rfl : e = 0 := by omega
    rw [if_pos (by omega)]; omega
  rw [if_neg (by omega)]
  rcases Nat.lt_or_eq_of_le hq with hlt | rfl
  · rw [show (e * 2 ^ 52 + q) / 2 ^ 52 - 1 = e by omega, show 2 ^ 52 + (e * 2 ^ 52 + q) % 2 ^ 52 = q by omega]
  · rw [show (e * 2 ^ 52 + 2 ^ 53) / 2 ^ 52 - 1 = e + 1 by omega,
      show 2 ^ 52 + (e * 2 ^ 52 + 2 ^ 53) % 2 ^ 52 = 2 ^ 52 by omega]
    ring

/-- From `2 ^ (52 + e)` on, binary64 magnitudes are whole numbers of `2 ^ e`. -/
theorem two_pow_dvd_unitsMag {x : F64} {e : Nat} (h : 2 ^ 52 * 2 ^ e ≤ unitsMag x) : 2 ^ e ∣ unitsMag x := by
  have hf : fracField x < 2 ^ 52 := Nat.mod_lt _ (by norm_num)
  unfold unitsMag at h ⊢
  split at h
  · have := Nat.one_le_two_pow (n := e)
    omega
  · next hx =>
    rw [if_neg hx]
    have hlt : 2 ^ (52 + e) < 2 ^ (53 + (expField x - 1)) := by
      rw [pow_add, pow_add]
      exact lt_of_le_of_lt h (Nat.mul_lt_mul_of_pos_right (by omega) (by positivity))
    have := (Nat.pow_lt_pow_iff_right (by norm_num)).1 hlt
    exact Dvd.dvd.mul_left (Nat.pow_dvd_pow 2 (by omega)) _

/-! ### Rounding to nearest, ties to even (R8) -/

/-- A rounded quotient is at most half the divisor away, and even when it is exactly half. -/
theorem roundQuot_half (n : Nat) {d : Nat} (hd : 0 < d) :
    2 * ((roundQuot n d * d : Int) - n).natAbs ≤ d ∧
      (2 * ((roundQuot n d * d : Int) - n).natAbs = d → roundQuot n d % 2 = 0) := by
  have hr := Nat.mod_lt n hd
  have hn : (n : Int) = (n / d : Nat) * d + (n % d : Nat) := by
    exact_mod_cast (Nat.div_add_mod' n d).symm
  unfold roundQuot
  split
  · omega
  split
  · simp only [Nat.cast_add, Nat.cast_one, add_mul]; omega
  · rcases Nat.mod_two_eq_zero_or_one (n / d) with hp | hp <;>
      simp only [hp, Nat.cast_add, Nat.cast_zero, Nat.cast_one, add_mul] <;> omega

/-- No multiple of the divisor is nearer than the rounded quotient's, and one as near leaves an even result. -/
theorem roundQuot_nearest (n : Nat) {d : Nat} (hd : 0 < d) (k : Nat) :
    ((roundQuot n d * d : Int) - n).natAbs ≤ ((k * d : Int) - n).natAbs ∧
      (((roundQuot n d * d : Int) - n).natAbs = ((k * d : Int) - n).natAbs → k ≠ roundQuot n d →
        roundQuot n d % 2 = 0) := by
  rcases eq_or_ne k (roundQuot n d) with rfl | hk
  · exact ⟨le_refl _, fun _ h => absurd rfl h⟩
  · obtain ⟨hhalf, htie⟩ := roundQuot_half n hd
    have hgap : d ≤ ((k * d : Int) - roundQuot n d * d).natAbs := by
      rw [← sub_mul, Int.natAbs_mul, Int.natAbs_natCast]
      exact Nat.le_mul_of_pos_left d (by omega)
    exact ⟨by omega, fun he _ => htie (by omega)⟩

/-- Short of overflow, rounding gives `roundQuot` units in the last place. -/
theorem roundMag_eq {n d : Nat} (h : roundMag n d < infMag) :
    roundMag n d = ulpExp n d * 2 ^ 52 + roundQuot n (d * 2 ^ ulpExp n d) := by
  unfold roundMag at h ⊢; omega

theorem roundQuot_ulp_le (n d : Nat) : roundQuot n (d * 2 ^ ulpExp n d) ≤ 2 ^ 53 := by
  have := quot_lt n d
  have := (roundQuot_bounds n (d * 2 ^ ulpExp n d)).2
  omega

/-- The magnitude of a rounded result, in least subnormals. -/
theorem unitsMag_roundMag (neg : Bool) {n d : Nat} (h : roundMag n d < infMag) :
    unitsMag (ofSignMag neg (roundMag n d)) = roundQuot n (d * 2 ^ ulpExp n d) * 2 ^ ulpExp n d := by
  apply unitsMag_of_magBits
  · rw [magBits_ofSignMag _ (roundMag_lt _ _), roundMag_eq h]
  · exact roundQuot_ulp_le n d
  · rcases Nat.eq_zero_or_pos (ulpExp n d) with h0 | hpos
    · exact .inl h0
    · exact .inr ((le_quot hpos).trans (roundQuot_bounds _ _).1)

/-- No binary64 magnitude is nearer to `n / d` than its rounding; where another is as near, the last fraction bit is 0. -/
theorem roundMag_nearest {n d : Nat} (hd : 0 < d) (h : roundMag n d < infMag) (v : F64) :
    let r := unitsMag (ofSignMag false (roundMag n d))
    ((r * d : Int) - n).natAbs ≤ ((unitsMag v * d : Int) - n).natAbs ∧
      (((r * d : Int) - n).natAbs = ((unitsMag v * d : Int) - n).natAbs → unitsMag v ≠ r →
        roundMag n d % 2 = 0) := by
  intro r
  have hD : 0 < d * 2 ^ ulpExp n d := by positivity
  have hr : (r * d : Int) = roundQuot n (d * 2 ^ ulpExp n d) * (d * 2 ^ ulpExp n d : Nat) := by
    simp only [r, unitsMag_roundMag false h]; push_cast; ring
  have hpar : roundMag n d % 2 = roundQuot n (d * 2 ^ ulpExp n d) % 2 := by
    rw [roundMag_eq h]; omega
  rw [hr, hpar]
  by_cases hdvd : 2 ^ ulpExp n d ∣ unitsMag v
  · obtain ⟨k, hk⟩ := hdvd
    have hv : (unitsMag v * d : Int) = k * (d * 2 ^ ulpExp n d : Nat) := by
      rw [hk]; push_cast; ring
    rw [hv]
    obtain ⟨hle, htie⟩ := roundQuot_nearest n hD k
    refine ⟨hle, fun he hne => htie he ?_⟩
    rintro rfl
    exact hne (by simp only [r, hk, unitsMag_roundMag false h, Nat.mul_comm])
  · have hpos : 0 < ulpExp n d := Nat.pos_of_ne_zero fun h0 => hdvd (by rw [h0]; exact one_dvd _)
    have hlow : unitsMag v < 2 ^ 52 * 2 ^ ulpExp n d := by
      by_contra hc; exact hdvd (two_pow_dvd_unitsMag (not_lt.1 hc))
    have hvd : unitsMag v * d < 2 ^ 52 * (d * 2 ^ ulpExp n d) := by
      calc unitsMag v * d < 2 ^ 52 * 2 ^ ulpExp n d * d := Nat.mul_lt_mul_of_pos_right hlow hd
        _ = _ := by ring
    have hn : 2 ^ 52 * (d * 2 ^ ulpExp n d) ≤ n := (Nat.le_div_iff_mul_le hD).1 (le_quot hpos)
    have hle := (roundQuot_nearest n hD (2 ^ 52)).1
    omega

/-- Below the threshold of overflow the last place is at most that of the largest finite value. -/
theorem ulpExp_le {n d : Nat} (h : n < 2 ^ 2098 * d) : ulpExp n d ≤ 2045 := by
  have hlt : n / d < 2 ^ 2098 := Nat.div_lt_of_lt_mul (by rwa [Nat.mul_comm])
  unfold ulpExp
  rcases Nat.eq_zero_or_pos (n / d) with h0 | hpos
  · rw [h0]; decide
  · have := (Nat.log2_lt hpos.ne').2 hlt
    omega

/-- In the last binade the rounded quotient stays below the carry up to half a unit above the largest finite value. -/
theorem roundQuot_lt_carry {n d : Nat} (hd : 0 < d) (h : 2 * n < (2 ^ 54 - 1) * d) : roundQuot n d < 2 ^ 53 := by
  have hhalf := (roundQuot_half n hd).1
  by_contra hc
  have : (2 ^ 53 * d : Int) ≤ roundQuot n d * d := by exact_mod_cast Nat.mul_le_mul_right d (not_lt.1 hc)
  omega

/-- Overflow begins half a unit in the last place above the largest finite value. -/
theorem roundMag_eq_infMag_iff {n d : Nat} (hd : 0 < d) :
    roundMag n d = infMag ↔ (2 ^ 54 - 1) * 2 ^ 2044 * d ≤ n := by
  constructor
  · contrapose!
    intro hn
    have hE : ulpExp n d ≤ 2045 := ulpExp_le (hn.trans_le (Nat.mul_le_mul_right d (by decide +kernel)))
    have hq := roundQuot_ulp_le n d
    have hlast : ulpExp n d = 2044 + 1 → roundQuot n (d * 2 ^ ulpExp n d) < 2 ^ 53 := by
      intro hE
      rw [hE, pow_succ]
      apply roundQuot_lt_carry (by positivity)
      generalize 2 ^ 2044 = p at hn
      calc 2 * n < 2 * ((2 ^ 54 - 1) * p * d) := Nat.mul_lt_mul_of_pos_left hn two_pos
        _ = (2 ^ 54 - 1) * (d * (p * 2)) := by ring
    unfold roundMag infMag
    omega
  · intro hn
    have htop : roundMag ((2 ^ 54 - 1) * 2 ^ 2044) 1 = infMag := by decide +kernel
    apply le_antisymm (roundMag_le_infMag n d)
    rw [← htop]
    exact roundMag_mono one_pos hd (by rwa [Nat.mul_one])

/-! ### The four operations on finite values (R8) -/

@[simp] theorem units_fneg (a : F64) : units (fneg a) = -units a := by
  unfold units
  rw [signBit_fneg, unitsMag_eq (magBits_fneg a)]
  cases signBit a <;> simp

@[simp] theorem isFinite_fneg (a : F64) : isFinite (fneg a) = isFinite a := by simp [isFinite]

/-- The difference of finite values, exactly, then rounded once (R8). -/
theorem fsub_of_finite {a b : F64} (ha : isFinite a = true) (hb : isFinite b = true) :
    fsub a b = roundUnits (signBit a && !signBit b) (units a - units b) := by
  have hadd := fadd_of_finite ha (b := fneg b) (by simpa using hb)
  rw [signBit_fneg, units_fneg, ← sub_eq_add_neg] at hadd
  simp [fsub, isNaN_of_isFinite ha, isNaN_of_isFinite hb, isInf_of_isFinite ha, hadd]

/-- The product of finite values, exactly, then rounded once (R8). -/
theorem fmul_of_finite {a b : F64} (ha : isFinite a = true) (hb : isFinite b = true) :
    fmul a b = ofSignMag (signBit a != signBit b) (roundMag (unitsMag a * unitsMag b) (2 ^ 1074)) := by
  have iA := isInf_of_isFinite ha
  have iB := isInf_of_isFinite hb
  unfold fmul
  rw [if_neg (by simp [isNaN_of_isFinite ha, isNaN_of_isFinite hb, iA, iB]), if_neg (by simp [iA, iB])]

/-- The quotient of finite values, exactly, then rounded once (R8). -/
theorem fdiv_of_finite {a b : F64} (ha : isFinite a = true) (hb : isFinite b = true) (hz : isZero b = false) :
    fdiv a b = ofSignMag (signBit a != signBit b) (roundMag (unitsMag a * 2 ^ 1074) (unitsMag b)) := by
  have iA := isInf_of_isFinite ha
  have iB := isInf_of_isFinite hb
  unfold fdiv
  rw [if_neg (by simp [isNaN_of_isFinite ha, isNaN_of_isFinite hb, iA, hz]), if_neg (by simp [iA, hz]),
    if_neg (by simp [iB])]

end Sys2Proof.Machine

open Sys2Proof Sys2Proof.Machine

/-- Settles O50: the rounding's two halves are `roundMag_nearest` and `roundMag_eq_infMag_iff`; each operation on finite
values is one rounding of its exact result. -/
theorem roundingIsToNearestEven : Obligations.RoundingIsToNearestEven :=
  ⟨fun _ _ v hd h _ => roundMag_nearest hd h v,
    fun n d hd => ⟨roundMag_le_infMag n d, roundMag_eq_infMag_iff hd⟩,
    fun _ _ ha hb => ⟨fadd_of_finite ha hb, fsub_of_finite ha hb, fmul_of_finite ha hb, fdiv_of_finite ha hb⟩⟩

end

section
/-!
PROOFS. The results R8 names beside rounding: sign operations, division by zero, invalid operations; and the comparisons and
CLAMP of R12.
-/
namespace Sys2Proof.Machine

/-! ### Kinds of values -/

theorem magBits_of_isZero {a : F64} (h : isZero a = true) : magBits a = 0 := by simpa [isZero] using h

theorem isFinite_of_isZero {a : F64} (h : isZero a = true) : isFinite a = true := by
  simp [isFinite, magBits_of_isZero h, infMag]

theorem isFinite_eq_false_of_isInf_or_isNaN {a : F64} (h : isInf a = true ∨ isNaN a = true) : isFinite a = false := by
  rcases h with h | h
  · simp [isFinite, magBits_of_isInf h]
  · exact isFinite_eq_false_of_isNaN h

@[simp] theorem isInf_fneg (a : F64) : isInf (fneg a) = isInf a := by simp [isInf]

/-- A value with a rounded magnitude is a number. -/
@[simp] theorem isNaN_ofSignMag_roundMag (neg : Bool) (n d : Nat) : isNaN (ofSignMag neg (roundMag n d)) = false := by
  simpa [isNaN, magBits_ofSignMag neg (roundMag_lt n d)] using roundMag_le_infMag n d

@[simp] theorem isInf_ofSignMag_infMag (neg : Bool) : isInf (ofSignMag neg infMag) = true := by
  simp [isInf, magBits_ofSignMag neg (m := infMag) (by decide)]

/-! ### The invalid operations, and division by zero (R8) -/

theorem isNaN_fdiv_inf_inf {a b : F64} (ha : isInf a = true) (hb : isInf b = true) : isNaN (fdiv a b) = true := by
  simp [fdiv, ha, hb]

theorem isNaN_fsub_self_of_isInf {a : F64} (ha : isInf a = true) : isNaN (fsub a a) = true := by
  simp [fsub, ha]

theorem isNaN_fadd_fneg_of_isInf {a : F64} (ha : isInf a = true) : isNaN (fadd a (fneg a)) = true := by
  simp [fadd, ha]

theorem isNaN_fmul_inf_zero {a b : F64} (ha : isInf a = true) (hb : isZero b = true) : isNaN (fmul a b) = true := by
  simp [fmul, ha, hb]

theorem isNaN_fmul_zero_inf {a b : F64} (ha : isInf a = true) (hb : isZero b = true) : isNaN (fmul b a) = true := by
  simp [fmul, ha, hb]

theorem isNaN_fdiv_zero_zero {a b : F64} (ha : isZero a = true) (hb : isZero b = true) : isNaN (fdiv a b) = true := by
  simp [fdiv, ha, hb]

/-- A nonzero finite value over a zero is an infinity with the exclusive or of the signs. -/
theorem fdiv_by_zero {a b : F64} (ha : isFinite a = true) (hz : isZero a = false) (hb : isZero b = true) :
    fdiv a b = ofSignMag (signBit a != signBit b) infMag := by
  simp [fdiv, isNaN_of_isFinite ha, isInf_of_isFinite ha, hz, hb, isNaN_of_isFinite (isFinite_of_isZero hb)]

theorem isNaN_operations {a b : F64} (h : isNaN a = true ∨ isNaN b = true) :
    isNaN (fadd a b) = true ∧ isNaN (fsub a b) = true ∧ isNaN (fmul a b) = true ∧ isNaN (fdiv a b) = true := by
  rcases h with h | h
  · exact ⟨isNaN_fadd_left b h, isNaN_fsub_left b h, isNaN_fmul_left b h, isNaN_fdiv_left b h⟩
  · exact ⟨isNaN_fadd_right a h, isNaN_fsub_right a h, isNaN_fmul_right a h, isNaN_fdiv_right a h⟩

/-! ### Comparisons (R12) -/

theorem orderKey_fabs (a : F64) : orderKey (fabs a) = magBits a := by simp [orderKey]

theorem natAbs_orderKey (a : F64) : (orderKey a).natAbs = magBits a := by
  unfold orderKey; split <;> omega

theorem orderKey_of_isZero {a : F64} (h : isZero a = true) : orderKey a = 0 := by
  simp [orderKey, magBits_of_isZero h]

/-- Finite values: the exact value rises strictly with the key. -/
theorem units_lt_of_orderKey_lt {a b : F64} (h : orderKey a < orderKey b) : units a < units b := by
  unfold orderKey at h
  unfold units
  cases sa : signBit a <;> cases sb : signBit b <;>
    simp only [sa, sb, if_true, Bool.false_eq_true, if_false] at h ⊢
  · have := unitsMag_lt (a := a) (b := b) (by omega); omega
  · omega
  · rcases Nat.eq_zero_or_pos (magBits a) with hz | hp
    · have := unitsMag_pos (a := b) (by omega); omega
    · have := unitsMag_pos hp; omega
  · have := unitsMag_lt (a := b) (b := a) (by omega); omega

theorem orderKey_lt_iff {a b : F64} : orderKey a < orderKey b ↔ units a < units b :=
  ⟨units_lt_of_orderKey_lt, fun h => by by_contra hc; have := units_le_of_orderKey_le (not_lt.1 hc); omega⟩

theorem orderKey_le_iff {a b : F64} : orderKey a ≤ orderKey b ↔ units a ≤ units b := by
  rw [← not_lt, ← not_lt, orderKey_lt_iff]

theorem orderKey_eq_iff {a b : F64} : orderKey a = orderKey b ↔ units a = units b := by
  rw [le_antisymm_iff, le_antisymm_iff, orderKey_le_iff, orderKey_le_iff]

/-- Between numbers the comparisons are those of the keys. -/
theorem flt_iff {a b : F64} (ha : isNaN a = false) (hb : isNaN b = false) :
    flt a b = true ↔ orderKey a < orderKey b := by simp [flt, ha, hb]

theorem fle_iff {a b : F64} (ha : isNaN a = false) (hb : isNaN b = false) :
    fle a b = true ↔ orderKey a ≤ orderKey b := by simp [fle, ha, hb]

theorem feq_iff {a b : F64} (ha : isNaN a = false) (hb : isNaN b = false) :
    feq a b = true ↔ orderKey a = orderKey b := by simp [feq, ha, hb]

theorem comparisons_nan {a b : F64} (h : isNaN a = true ∨ isNaN b = true) :
    flt a b = false ∧ fle a b = false ∧ fgt a b = false ∧ fge a b = false ∧ feq a b = false := by
  rcases h with h | h <;> simp [fgt, fge, flt, fle, feq, h]

theorem comparisons_finite {a b : F64} (ha : isFinite a = true) (hb : isFinite b = true) :
    (flt a b = true ↔ units a < units b) ∧ (fle a b = true ↔ units a ≤ units b) ∧
      (fgt a b = true ↔ units b < units a) ∧ (fge a b = true ↔ units b ≤ units a) ∧
      (feq a b = true ↔ units a = units b) := by
  have na := isNaN_of_isFinite ha
  have nb := isNaN_of_isFinite hb
  simp only [fgt, fge, flt_iff, fle_iff, feq_iff, na, nb, orderKey_lt_iff, orderKey_le_iff, orderKey_eq_iff, and_self]

/-- The key of an infinity is no other value's. -/
theorem eq_of_orderKey_eq_inf {a b : F64} (ha : isInf a = true) (h : orderKey a = orderKey b) : a = b := by
  have ma := magBits_of_isInf ha
  have hpos : 0 < infMag := by decide
  unfold orderKey at h
  rw [eq_ofSignMag a, eq_ofSignMag b]
  cases sa : signBit a <;> cases sb : signBit b <;>
    simp only [sa, sb, if_true, Bool.false_eq_true, if_false] at h
  · rw [show magBits a = magBits b by omega]
  · omega
  · omega
  · rw [show magBits a = magBits b by omega]

/-- An infinity lies beyond every other number, on the side of its sign. -/
theorem comparisons_inf {a b : F64} (ha : isInf a = true) (hb : isNaN b = false) :
    (if signBit a then fle a b else fle b a) = true ∧ (feq a b = true ↔ a = b) ∧
      ((if signBit a then flt a b else flt b a) = true ↔ a ≠ b) := by
  have na := isNaN_of_isInf ha
  have ka := orderKey_of_isInf ha
  have kb := orderKey_le_infMag hb
  have hiff : orderKey a = orderKey b ↔ a = b := ⟨eq_of_orderKey_eq_inf ha, congrArg orderKey⟩
  refine ⟨?_, (feq_iff na hb).trans hiff, ?_⟩
  · cases sa : signBit a <;> simp only [sa, if_true, Bool.false_eq_true, if_false, fle_iff, na, hb] at ka ⊢ <;> omega
  · rw [Ne, ← hiff]
    cases sa : signBit a <;> simp only [sa, if_true, Bool.false_eq_true, if_false, flt_iff, na, hb] at ka ⊢ <;> omega

end Sys2Proof.Machine

open Sys2Proof Sys2Proof.Machine

/-- Settles O51: each clause is the lemma on that operation. -/
theorem specialResults : Obligations.SpecialResults := by
  refine ⟨fun a => by simp, ?divZero, ?infinities, ?infTimesZero, fun _ _ => isNaN_fdiv_zero_zero,
    fun _ _ => isNaN_operations, ?finite⟩
  case divZero =>
    intro a b ha hz hb
    rw [fdiv_by_zero ha hz hb]
    exact ⟨isInf_ofSignMag_infMag _, signBit_ofSignMag _ (by decide)⟩
  case infinities =>
    exact fun a b ha hb => ⟨isNaN_fdiv_inf_inf ha hb, isNaN_fsub_self_of_isInf ha, isNaN_fadd_fneg_of_isInf ha⟩
  case infTimesZero => exact fun a b ha hb => ⟨isNaN_fmul_inf_zero ha hb, isNaN_fmul_zero_inf ha hb⟩
  case finite =>
    intro a b ha hb
    rw [fadd_of_finite ha hb, fsub_of_finite ha hb, fmul_of_finite ha hb]
    exact ⟨isNaN_roundUnits _ _, isNaN_roundUnits _ _, isNaN_ofSignMag_roundMag _ _ _⟩

/-- Settles O52: the comparisons are those of the keys, and the keys are ordered as the exact values. -/
theorem comparisonsAreOrdered : Obligations.ComparisonsAreOrdered := by
  refine ⟨fun _ _ => comparisons_nan, ?zeros, fun _ _ => comparisons_finite, ?infinity, fun _ _ _ => rfl,
    fun _ lo hi => clamp_nan lo hi⟩
  case zeros =>
    intro a b ha hb
    obtain ⟨-, -, -, -, heq⟩ := comparisons_finite (isFinite_of_isZero ha) (isFinite_of_isZero hb)
    rw [heq, units_of_isZero ha, units_of_isZero hb]
  case infinity =>
    intro a b ha hb
    obtain ⟨hle, heq, hlt⟩ := comparisons_inf ha hb
    exact ⟨hle, heq, hlt, fun _ _ => ⟨rfl, rfl⟩⟩

end

section
/-!
PROOFS. FREXP_EXP (R13), and the values that rounding leaves exact: integers below 2⁵³ and the powers of two, so that POW(2, n)
is exact (R11 (e)).
-/
namespace Sys2Proof.Machine

/-! ### FREXP_EXP (R13) -/

theorem frexpExp_of_finite {v : F64} (hf : isFinite v = true) (hz : isZero v = false) :
    frexpExp v = (Nat.log2 (unitsMag v) : Int) + 1 - 1074 := by
  simp [frexpExp, hf, hz]

theorem unitsMag_pos_of_not_isZero {v : F64} (hz : isZero v = false) : 0 < unitsMag v := by
  apply unitsMag_pos
  simp only [isZero, decide_eq_false_iff_not] at hz
  omega

/-- The exponent's binade holds the magnitude. -/
theorem frexpExp_binade {v : F64} (hf : isFinite v = true) (hz : isZero v = false) :
    -1073 ≤ frexpExp v ∧ 2 ^ (frexpExp v + 1073).toNat ≤ unitsMag v ∧ unitsMag v < 2 ^ (frexpExp v + 1074).toNat := by
  have hu := unitsMag_pos_of_not_isZero hz
  rw [frexpExp_of_finite hf hz]
  refine ⟨by omega, ?_, ?_⟩
  · rw [show ((Nat.log2 (unitsMag v) : Int) + 1 - 1074 + 1073).toNat = Nat.log2 (unitsMag v) by omega]
    exact Nat.log2_self_le hu.ne'
  · rw [show ((Nat.log2 (unitsMag v) : Int) + 1 - 1074 + 1074).toNat = Nat.log2 (unitsMag v) + 1 by omega]
    exact Nat.lt_log2_self

theorem frexpExp_of_special {v : F64} (h : isZero v = true ∨ isInf v = true ∨ isNaN v = true) : frexpExp v = 0 := by
  cases hz : isZero v with
  | true => simp [frexpExp, hz]
  | false =>
    have hf : isFinite v = false := by
      apply isFinite_eq_false_of_isInf_or_isNaN
      simpa [hz] using h
    simp [frexpExp, hz, hf, Config.frexpNonfinite]

/-! ### Exact results -/

/-- A quotient without remainder needs no rounding. -/
theorem roundQuot_of_dvd {n d : Nat} (hd : 0 < d) (h : d ∣ n) : roundQuot n d = n / d := by
  simp [roundQuot, Nat.mod_eq_zero_of_dvd h, hd]

/-- The last place of a number of at most 53 significant bits divides it. -/
theorem two_pow_ulpExp_dvd {m : Nat} (e : Nat) (hm : m < 2 ^ 53) : 2 ^ ulpExp (m * 2 ^ e) 1 ∣ m * 2 ^ e := by
  have hE : ulpExp (m * 2 ^ e) 1 ≤ e := by
    unfold ulpExp
    rw [Nat.div_one]
    rcases Nat.eq_zero_or_pos (m * 2 ^ e) with h0 | hpos
    · simp [h0]
    · have : Nat.log2 (m * 2 ^ e) < 53 + e := by
        rw [Nat.log2_lt hpos.ne', pow_add]
        exact Nat.mul_lt_mul_of_pos_right hm (by positivity)
      omega
  exact Dvd.dvd.mul_left (Nat.pow_dvd_pow 2 hE) m

/-- A number of at most 53 significant bits, below `2 ^ 2098` least subnormals, rounds to a finite value that stands for it. -/
theorem roundMag_exact {m e : Nat} (hm : m < 2 ^ 53) (hlt : m * 2 ^ e < 2 ^ 2098) (neg : Bool) :
    roundMag (m * 2 ^ e) 1 < infMag ∧ unitsMag (ofSignMag neg (roundMag (m * 2 ^ e) 1)) = m * 2 ^ e := by
  have hdvd := two_pow_ulpExp_dvd e hm
  have hq : roundQuot (m * 2 ^ e) (1 * 2 ^ ulpExp (m * 2 ^ e) 1) = m * 2 ^ e / (1 * 2 ^ ulpExp (m * 2 ^ e) 1) :=
    roundQuot_of_dvd (by positivity) (by rwa [Nat.one_mul])
  have hfin : roundMag (m * 2 ^ e) 1 < infMag := by
    have hE := ulpExp_le (n := m * 2 ^ e) (d := 1) (by rwa [Nat.mul_one])
    have h53 := quot_lt (m * 2 ^ e) 1
    unfold roundMag infMag
    omega
  exact ⟨hfin, by rw [unitsMag_roundMag neg hfin, hq, Nat.one_mul, Nat.div_mul_cancel hdvd]⟩

/-- An exact magnitude gives an exact signed value. -/
theorem roundUnits_exact (z : Bool) {u : Int} (hfin : roundMag u.natAbs 1 < infMag)
    (hu : unitsMag (ofSignMag (decide (u < 0)) (roundMag u.natAbs 1)) = u.natAbs) :
    isFinite (roundUnits z u) = true ∧ units (roundUnits z u) = u := by
  unfold roundUnits
  split
  · next h0 =>
    have hz : isZero (ofSignMag z 0) = true := by simp [isZero, magBits_ofSignMag z (m := 0) (by norm_num)]
    exact ⟨isFinite_of_isZero hz, by rw [units_of_isZero hz, h0]⟩
  · refine ⟨by simpa [isFinite, magBits_ofSignMag _ (roundMag_lt _ _)] using hfin, ?_⟩
    unfold units
    rw [hu, signBit_ofSignMag _ (roundMag_lt _ _)]
    by_cases hneg : u < 0 <;> simp only [hneg, decide_true, decide_false, if_true, Bool.false_eq_true, if_false] <;> omega

theorem natAbs_mul_two_pow (i : Int) (k : Nat) : (i * 2 ^ k).natAbs = i.natAbs * 2 ^ k := by
  simp [Int.natAbs_mul, Int.natAbs_pow]

/-- An integer of at most 53 bits is a binary64 value, exactly. -/
theorem ofInt_exact {i : Int} (h : i.natAbs < 2 ^ 53) : isFinite (ofInt i) = true ∧ units (ofInt i) = i * 2 ^ 1074 := by
  have habs := natAbs_mul_two_pow i 1074
  have hlt : i.natAbs * 2 ^ 1074 < 2 ^ 2098 :=
    (Nat.mul_lt_mul_of_pos_right h (by positivity)).trans (by decide +kernel)
  obtain ⟨hfin, hu⟩ := roundMag_exact h hlt (decide (i * 2 ^ 1074 < 0))
  rw [← habs] at hfin hu
  unfold ofInt
  exact roundUnits_exact false hfin hu

/-- A power of two in range is exact. -/
theorem powTwo_exact {n : Int} (hlo : -1074 ≤ n) (hhi : n ≤ 1023) :
    isFinite (powTwo n) = true ∧ units (powTwo n) = 2 ^ (n + 1074).toNat := by
  have hlt : 1 * 2 ^ (n + 1074).toNat < 2 ^ 2098 := by
    rw [Nat.one_mul, Nat.pow_lt_pow_iff_right (by norm_num)]
    omega
  obtain ⟨hfin, hu⟩ := roundMag_exact (by norm_num) hlt false
  rw [Nat.one_mul] at hfin hu
  unfold powTwo
  rw [if_neg (by omega), if_neg (by omega)]
  constructor
  · simpa [isFinite, magBits_ofSignMag false (roundMag_lt _ _)] using hfin
  · simp [units, signBit_ofSignMag false (roundMag_lt _ _), hu]

/-! ### POW(2, n) (R11 (e)) -/

theorem unitsMag_eq_natAbs (x : F64) : unitsMag x = (units x).natAbs := by
  unfold units; split <;> omega

theorem isInteger_ofInt {n : Int} (h : n.natAbs < 2 ^ 53) : isInteger (ofInt n) = true := by
  obtain ⟨-, hu⟩ := ofInt_exact h
  unfold isInteger
  rw [decide_eq_true_eq, unitsMag_eq_natAbs, hu, natAbs_mul_two_pow]
  exact Nat.mul_mod_left _ _

theorem isZero_ofInt {n : Int} (h : n.natAbs < 2 ^ 53) : isZero (ofInt n) = decide (n = 0) := by
  obtain ⟨-, hu⟩ := ofInt_exact h
  rw [Bool.eq_iff_iff, decide_eq_true_eq]
  constructor
  · intro hz
    rw [units_of_isZero hz] at hu
    exact (mul_eq_zero.1 hu.symm).resolve_right (by positivity)
  · rintro rfl
    by_contra hz
    have := unitsMag_pos_of_not_isZero (Bool.eq_false_iff.2 hz)
    rw [unitsMag_eq_natAbs, hu, zero_mul] at this
    exact absurd this (by decide)

/-- POW(2, n) is `powTwo n`, whatever the configuration. -/
theorem powOf_two_ofInt (free : F64 → F64 → F64) {n : Int} (h : n.natAbs < 2 ^ 53) :
    powOf free Config.two (ofInt n) = powTwo n := by
  obtain ⟨hfin, hu⟩ := ofInt_exact h
  have hdiv : units (ofInt n) / 2 ^ 1074 = n := by rw [hu, Int.mul_ediv_cancel _ (by positivity)]
  have hone : powTwo 0 = Config.one := by decide +kernel
  unfold powOf
  rw [if_neg (by simp [isNaN_of_isFinite hfin]; decide)]
  have hz := isZero_ofInt h
  rcases eq_or_ne n 0 with rfl | hn
  · rw [if_pos (by simp [hz]), hone]
  have htwo : isZero Config.two = false ∧ isInf Config.two = false ∧ signBit Config.two = false := by decide
  obtain ⟨tz, ti, ts⟩ := htwo
  rw [if_neg (by simp [hz, hn]; decide), if_neg (by simp [isInf_of_isFinite hfin]), if_neg (by simp [tz, ti]),
    if_neg (by simp [ts]), if_pos (by simp [isInteger_ofInt h]), hdiv]

end Sys2Proof.Machine

open Sys2Proof Sys2Proof.Machine

/-- Settles O53: the exponent is one more than the position of the magnitude's leading bit. -/
theorem frexpConvention : Obligations.FrexpConvention :=
  ⟨fun _ => frexpExp_binade, fun _ => frexpExp_of_special, by decide +kernel⟩

/-- Settles O56: POW(2, n) is `powTwo n`, which is exact in range and takes its ends outside it. -/
theorem powTwoIsExact : Obligations.PowTwoIsExact := by
  intro n hlo hhi v
  have hv : v = powTwo n := powOf_two_ofInt Config.freePow (by omega)
  rw [hv]
  refine ⟨powTwo_exact, fun h => if_pos h, fun h => ?_⟩
  unfold powTwo
  rw [if_neg (by omega), if_pos h]

end

section
/-!
PROOFS. What each primitive of R11 does, one lemma per branch of its definition, for every free function: its special values
(R11 (c), (d), (f)), and elsewhere a value kept within one unit in the last place of the approximation (R11 (b)).
-/
namespace Sys2Proof.Machine

/-! ### SIN, COS and TAN -/

section
variable (free : F64 → F64) {x : F64}

theorem sinOf_of_isZero (h : isZero x = true) : sinOf free x = x := by
  simp [sinOf, isFinite_of_isZero h, h]

theorem cosOf_of_isZero (h : isZero x = true) : cosOf free x = Config.one := by
  simp [cosOf, isFinite_of_isZero h, h]

theorem isNaN_sinOf_of_nonfinite (h : isFinite x = false) : isNaN (sinOf free x) = true := by simp [sinOf, h]

theorem isNaN_cosOf_of_nonfinite (h : isFinite x = false) : isNaN (cosOf free x) = true := by simp [cosOf, h]

theorem isNaN_tanOf_of_nonfinite (h : isFinite x = false) : isNaN (tanOf free x) = true := by simp [tanOf, h]

theorem sinOf_of_finite (hf : isFinite x = true) (hz : isZero x = false) :
    sinOf free x = clamp (keepWithin (sinApprox x) (free x)) (fneg Config.one) Config.one := by
  simp [sinOf, hf, hz, keepWithinOne]

theorem cosOf_of_finite (hf : isFinite x = true) (hz : isZero x = false) :
    cosOf free x = clamp (keepWithin (cosApprox x) (free x)) (fneg Config.one) Config.one := by
  simp [cosOf, hf, hz, keepWithinOne]

theorem tanOf_of_finite (hf : isFinite x = true) (hz : isZero x = false) :
    tanOf free x = keepWithin (tanApprox x) (free x) := by
  simp [tanOf, hf, hz]

/-! ### ASIN -/

theorem orderKey_one : orderKey Config.one = magBits Config.one := by decide

/-- The domain of ASIN, on magnitude bits. -/
theorem fgt_fabs_one (hn : isNaN x = false) : fgt (fabs x) Config.one = false ↔ magBits x ≤ magBits Config.one := by
  have hone : isNaN Config.one = false := by decide
  rw [fgt, Bool.eq_false_iff, Ne, flt_iff hone (by simpa using hn), orderKey_fabs, orderKey_one]
  omega

theorem asinOf_of_isZero (h : isZero x = true) : asinOf free x = x := by
  have hn := isNaN_of_isFinite (isFinite_of_isZero h)
  have hle : fgt (fabs x) Config.one = false := (fgt_fabs_one hn).2 (by simp [magBits_of_isZero h])
  simp [asinOf, hn, hle, h]

/-- At ±1 ASIN is ±HALF_PI. -/
theorem asinOf_of_fabs_eq_one (h : fabs x = Config.one) :
    asinOf free x = ofSignMag (signBit x) (magBits Config.halfPi) := by
  have hm : magBits x = magBits Config.one := by rw [← magBits_fabs, h]
  have hn : isNaN x = false := by rw [isNaN, hm]; decide
  have hz : isZero x = false := by rw [isZero, hm]; decide
  have hle : fgt Config.one Config.one = false := by decide
  simp [asinOf, hn, hz, h, hle]

theorem isNaN_asinOf_of_domain (h : isNaN x = true ∨ fgt (fabs x) Config.one = true) : isNaN (asinOf free x) = true := by
  have hc : (isNaN x || fgt (fabs x) Config.one) = true := by simpa using h
  unfold asinOf
  rw [if_pos hc]
  exact isNaN_producedNaN _ _ _

theorem asinOf_of_inside (hn : isNaN x = false) (hle : fgt (fabs x) Config.one = false) (hz : isZero x = false)
    (h1 : fabs x ≠ Config.one) :
    asinOf free x = clamp (keepWithin (asinApprox x) (free x)) (fneg Config.halfPi) Config.halfPi := by
  simp [asinOf, hn, hle, hz, h1]

/-- ASIN of a number within ±1 stays within ±HALF_PI. -/
theorem asinOf_bounds (hn : isNaN x = false) (hle : fgt (fabs x) Config.one = false) :
    fle (fneg Config.halfPi) (asinOf free x) = true ∧ fle (asinOf free x) Config.halfPi = true := by
  cases hz : isZero x with
  | true =>
    rw [asinOf_of_isZero free hz]
    rw [fle_iff (by decide) hn, fle_iff hn (by decide), orderKey_of_isZero hz]
    decide
  | false =>
    by_cases h1 : fabs x = Config.one
    · rw [asinOf_of_fabs_eq_one free h1]
      cases signBit x <;> decide
    · rw [asinOf_of_inside free hn hle hz h1]
      exact clamp_bounds (isNaN_keepWithin _ _) (by decide)

/-- A number between −1 and 1 is at most 1 in magnitude. -/
theorem fabs_not_gt_one (hlo : fle (fneg Config.one) x = true) (hhi : fle x Config.one = true) :
    isNaN x = false ∧ fgt (fabs x) Config.one = false := by
  have hn : isNaN x = false := by
    simp only [fle, Bool.and_eq_true, Bool.not_eq_true'] at hhi
    exact hhi.1.1
  rw [fle_iff (by decide) hn] at hlo
  rw [fle_iff hn (by decide), orderKey_one] at hhi
  have kneg : orderKey (fneg Config.one) = -(magBits Config.one : Int) := by decide
  refine ⟨hn, (fgt_fabs_one hn).2 ?_⟩
  rw [kneg] at hlo
  have := natAbs_orderKey x
  omega

/-- A number below 1 in magnitude is in the domain and is not ±1. -/
theorem fabs_lt_one (hlt : flt (fabs x) Config.one = true) :
    isNaN x = false ∧ fgt (fabs x) Config.one = false ∧ fabs x ≠ Config.one := by
  have hn : isNaN x = false := by
    cases h : isNaN x with
    | true => rw [flt_nan_left _ (by simpa using h)] at hlt; exact absurd hlt (by decide)
    | false => rfl
  rw [flt_iff (by simpa using hn) (by decide), orderKey_one, orderKey_fabs] at hlt
  refine ⟨hn, (fgt_fabs_one hn).2 (by omega), fun h => ?_⟩
  rw [← h, magBits_fabs] at hlt
  omega

end

/-! ### POW -/

section
variable (free : F64 → F64 → F64) {a b : F64}

theorem isNaN_powOf_of_nan (h : isNaN a = true ∨ isNaN b = true) : isNaN (powOf free a b) = true := by
  have hc : (isNaN a || isNaN b) = true := by simpa using h
  unfold powOf
  rw [if_pos hc]
  exact isNaN_producedNaN _ _ _

/-- POW(a, ±0) = 1. -/
theorem powOf_of_isZero_right (ha : isNaN a = false) (hb : isZero b = true) : powOf free a b = Config.one := by
  simp [powOf, ha, isNaN_of_isFinite (isFinite_of_isZero hb), hb]

/-- POW(1, b) = 1. -/
theorem powOf_one_left (hb : isNaN b = false) : powOf free Config.one b = Config.one := by
  have hone : isNaN Config.one = false := by decide
  simp [powOf, hone, hb]

theorem powOf_of_isInf_right (ha : isNaN a = false) (h1 : a ≠ Config.one) (hb : isInf b = true) :
    powOf free a b = powInfExponent a b := by
  have hz : isZero b = false := by
    rw [isZero, magBits_of_isInf hb]; decide
  simp [powOf, ha, isNaN_of_isInf hb, hz, h1, hb]

/-- POW(±0, b) for a finite nonzero b: 0 or ∞ by the exponent's sign. -/
theorem powOf_of_isZero_left (ha : isZero a = true) (hb : isFinite b = true) (hz : isZero b = false) :
    powOf free a b = ofSignMag (signBit a && isOddInteger b) (if signBit b then infMag else 0) := by
  have h1 : a ≠ Config.one := by
    rintro rfl; exact absurd ha (by decide)
  simp [powOf, powExtremeBase, isNaN_of_isFinite (isFinite_of_isZero ha), isInf_of_isFinite (isFinite_of_isZero ha),
    isNaN_of_isFinite hb, isInf_of_isFinite hb, ha, hz, h1]

/-- A negative finite base with an exponent that is no integer is outside the domain. -/
theorem isNaN_powOf_of_domain (ha : isFinite a = true) (haz : isZero a = false) (hs : signBit a = true)
    (hb : isFinite b = true) (hi : isInteger b = false) : isNaN (powOf free a b) = true := by
  have h1 : a ≠ Config.one := by
    rintro rfl; exact absurd hs (by decide)
  have hz : isZero b = false := by
    by_contra hz
    rw [Bool.not_eq_false] at hz
    simp only [isInteger, unitsMag_eq_natAbs, units_of_isZero hz, Int.natAbs_zero, Nat.zero_mod, decide_true] at hi
    cases hi
  simp [powOf, isNaN_of_isFinite ha, isNaN_of_isFinite hb, isInf_of_isFinite ha, isInf_of_isFinite hb, haz, hz, h1, hs, hi]

/-- In the domain, away from the bases 1 and 2, POW is the free value kept near the approximation. -/
theorem powOf_of_finite (ha : isFinite a = true) (haz : isZero a = false) (hb : isFinite b = true) (hz : isZero b = false)
    (hneg : signBit a = true → isInteger b = true) (htwo : a = Config.two → isInteger b = false) (h1 : a ≠ Config.one) :
    powOf free a b = keepWithin (powApprox a b) (free a b) := by
  have hd : ¬ (signBit a = true ∧ isInteger b = false) := by
    rintro ⟨hs, hi⟩; simp [hneg hs] at hi
  have ht : ¬ (a = Config.two ∧ isInteger b = true) := by
    rintro ⟨hs, hi⟩; simp [htwo hs] at hi
  unfold powOf
  rw [if_neg (by simp [isNaN_of_isFinite ha, isNaN_of_isFinite hb]), if_neg (by simp [hz, h1]),
    if_neg (by simp [isInf_of_isFinite hb]), if_neg (by simp [haz, isInf_of_isFinite ha]),
    if_neg (by simpa using hd), if_neg (by simpa using ht)]

/-- A power of 1 is exact, found without taking a root. -/
theorem exactRoots_one (fuel : Nat) (neg : Bool) (u d : Nat) :
    exactRoots (fuel + 1) 1 0 neg u d = some { neg := false, num := 2 ^ 1200, den := 2 ^ 1200 } := by
  have hpow (n : Int) : exactPower 1 0 n = some { neg := false, num := 2 ^ 1200, den := 2 ^ 1200 } := by
    unfold exactPower
    rw [if_pos rfl, zero_mul, show (min (max (0 : Int) (-1200)) 1100 + 1200).toNat = 1200 from rfl]
  unfold exactRoots
  split
  · exact hpow _
  · exact hpow 0

theorem powApprox_one (b : F64) : powApprox Config.one b = { neg := false, num := 2 ^ 1200, den := 2 ^ 1200 } := by
  have hexp : expField Config.one ≠ 0 := by decide
  have hodd : oddPart 52 (2 ^ 52 + fracField Config.one) ((expField Config.one : Int) - 1075) = (1, 0) := by
    decide +kernel
  have hs : signBit Config.one = false := by decide
  have hexact : powExact Config.one b = some { neg := false, num := 2 ^ 1200, den := 2 ^ 1200 } := by
    unfold powExact
    rw [if_neg hexp, hodd]
    exact exactRoots_one _ _ _ _
  rw [powApprox, hexact, hs]
  rfl

theorem nearest_powApprox_one (b : F64) : nearest (powApprox Config.one b) = Config.one := by
  rw [powApprox_one]
  decide +kernel

end

end Sys2Proof.Machine

open Sys2Proof Sys2Proof.Machine

/-- Settles O54: each special value is a branch of the primitive's definition, whatever the free function. -/
theorem primitivesKeepTheirSpecialValues : Obligations.PrimitivesKeepTheirSpecialValues := by
  refine ⟨fun a ha => ⟨sinOf_of_isZero _ ha, asinOf_of_isZero _ ha, cosOf_of_isZero _ ha⟩, ?asinOne, ?asinMinusOne,
    ?asinRange, ?trigNonfinite, fun v => isNaN_asinOf_of_domain _, fun a b => isNaN_powOf_of_nan _, ?powTenInf,
    fun a b => powOf_of_isZero_right _, fun b => powOf_one_left _, fun a b => isNaN_powOf_of_domain _,
    fun a b => powOf_of_isZero_left _⟩
  case asinOne => exact asinOf_of_fabs_eq_one _ (by decide)
  case asinMinusOne => exact asinOf_of_fabs_eq_one _ (by decide)
  case asinRange =>
    intro v hlo hhi
    obtain ⟨hn, hle⟩ := fabs_not_gt_one hlo hhi
    exact asinOf_bounds _ hn hle
  case trigNonfinite =>
    intro a ha
    have hf := isFinite_eq_false_of_isInf_or_isNaN ha
    exact ⟨isNaN_sinOf_of_nonfinite _ hf, isNaN_cosOf_of_nonfinite _ hf, isNaN_tanOf_of_nonfinite _ hf⟩
  case powTenInf =>
    intro b hb
    refine (powOf_of_isInf_right _ (by decide) (by decide) hb).trans ?_
    cases hs : signBit b <;> simp only [powInfExponent, hs] <;> decide

/-- Settles O55: outside its special values each primitive is `keepWithin` of its approximation; for POW with the base 1, whose
value is always 1, that is the approximation itself. -/
theorem primitivesStayWithinOneUlp : Obligations.PrimitivesStayWithinOneUlp := by
  refine ⟨?trig, ?asin, ?pow⟩
  case trig =>
    intro a hf hz
    refine ⟨⟨_, keepWithin_cases _ _, sinOf_of_finite _ hf hz⟩, ⟨_, keepWithin_cases _ _, cosOf_of_finite _ hf hz⟩, ?_⟩
    have htan : Transcendentals.configured.tan a = _ := tanOf_of_finite Config.freeTan hf hz
    rw [htan]
    exact keepWithin_cases _ _
  case asin =>
    intro v hz hlt
    obtain ⟨hn, hle, h1⟩ := fabs_lt_one hlt
    exact ⟨_, keepWithin_cases _ _, asinOf_of_inside _ hn hle hz h1⟩
  case pow =>
    intro a b ha haz hb hz hneg htwo
    by_cases h1 : a = Config.one
    · rw [h1]
      exact .inr ((powOf_one_left _ (isNaN_of_isFinite hb)).trans (nearest_powApprox_one b).symm)
    · have hpow : Transcendentals.configured.pow a b = _ := powOf_of_finite Config.freePow ha haz hb hz hneg htwo h1
      rw [hpow]
      exact keepWithin_cases _ _

end

section
/-!
PROOFS. STATUS.ILL and ProcessorState: which commands and which steps can change them, and the registers after reset (R25,
R28, R34, R212).
-/
namespace Sys2Proof.Machine

/-! ### The next step, by what is issued -/

section
variable {s : State} {p : Ports} {rest : List Ports}

/-- A step with `rst` resets the registers (R215, R230). -/
theorem step_of_rst (hp : s.pending = p :: rest) (hr : p.rst = true) :
    step s = .next (resetRegisters (present p rest s)) := by
  simp [step, runNext, runCommand, hp, hr]

/-- A step with a legal word executes it (R58). -/
theorem step_of_decode {i : Instr} (hp : s.pending = p :: rest) (hr : p.rst = false) (hd : decode p.cmd = .ok i) :
    step s = exec i (present p rest s) := by
  simp [step, runNext, runCommand, hp, hr, hd]

end

/-! ### What a command can change -/

section
variable {i : Instr} {s t : State}

/-- A command keeps ILL or clears it, and only INIT and a WRST of STATUS with bit 0 set clear it (R28, R111). -/
theorem exec_ill (h : exec i s = .next t) :
    t.ill = s.ill ∨ t.ill = 0 ∧ (i = .init ∨ i = .wrst .status ∧ (wrstWord s.ports).extractLsb' 0 1 = 1) := by
  rcases exec_cases h with ⟨-, rfl⟩ | ⟨-, rfl⟩ | ⟨rfl, rfl⟩ | ⟨r, -, rfl⟩ | ⟨r, rfl, rfl⟩
  case inr.inr.inl => exact .inr ⟨rfl, .inl rfl⟩
  case inr.inr.inr.inr =>
    rw [stateWrite_ill]
    split
    case isTrue hw => exact .inr ⟨rfl, .inr ⟨by rw [hw.1], hw.2⟩⟩
    case isFalse => exact .inl rfl
  all_goals exact .inl rfl

/-- Only PROC, INIT and WRST change ProcessorState (R100, R112). -/
theorem exec_core_ne (h : exec i s = .next t) (hne : t.core ≠ s.core) :
    i = .proc ∨ i = .init ∨ ∃ r, i = .wrst r ∧ t = stateWrite r (wrstWord s.ports) s := by
  rcases exec_cases h with ⟨-, rfl⟩ | ⟨hproc, -⟩ | ⟨hinit, -⟩ | ⟨r, -, rfl⟩ | hwrst
  · exact absurd rfl hne
  · exact .inl hproc
  · exact .inr (.inl hinit)
  · exact absurd rfl hne
  · exact .inr (.inr hwrst)

/-- ProcessorState changes only by `rst`, PROC, INIT or a WRST: not in an idle step, and not for an illegal word (R212,
R243). -/
theorem step_core_ne (h : step s = .next t) (hne : t.core ≠ s.core) :
    ∃ p rest, s.pending = p :: rest ∧
      (p.rst = true ∨ decode p.cmd = .ok .proc ∨ decode p.cmd = .ok .init ∨
        ∃ r, decode p.cmd = .ok (.wrst r) ∧ t = stateWrite r p.dinWdata (present p rest s)) := by
  rcases step_cases h with ⟨-, rfl⟩ | ⟨p, rest, hp, ⟨hr, -⟩ | ⟨-, -, rfl⟩ | ⟨-, i, hd, hexec⟩⟩
  · exact absurd rfl hne
  · exact ⟨p, rest, hp, .inl hr⟩
  · exact absurd rfl hne
  · rcases exec_core_ne hexec hne with rfl | rfl | ⟨r, rfl, ht⟩
    · exact ⟨p, rest, hp, .inr (.inl hd)⟩
    · exact ⟨p, rest, hp, .inr (.inr (.inl hd))⟩
    · exact ⟨p, rest, hp, .inr (.inr (.inr ⟨r, hd, ht⟩))⟩

end

/-! ### The registers after reset -/

/-- R34: the registers whenever they have been reset. -/
theorem stateRead_resetRegisters (r : StateReg) (s : State) :
    stateRead r (resetRegisters s) = if r = .dither then 17 else 0 := by
  cases r <;> rfl

end Sys2Proof.Machine

open Sys2Proof Sys2Proof.Machine

/-- Settles O10: of what a step can do, an idle step and an illegal word leave a set ILL set, and for the executed command
`exec_ill` names the two that clear it. -/
theorem onlyThreeThingsClearIll : Obligations.OnlyThreeThingsClearIll := by
  intro s t h hs ht
  rcases step_cases h with ⟨-, rfl⟩ | ⟨p, rest, hp, ⟨hr, -⟩ | ⟨-, -, rfl⟩ | ⟨-, i, hd, hexec⟩⟩
  · exact absurd hs ht
  · exact ⟨p, rest, hp, .inl hr⟩
  · exact absurd rfl ht
  · rcases exec_ill hexec with hkeep | ⟨-, rfl | ⟨rfl, hw⟩⟩
    · exact absurd (hkeep.trans hs) ht
    · exact ⟨p, rest, hp, .inr (.inl hd)⟩
    · exact ⟨p, rest, hp, .inr (.inr ⟨hd, hw⟩)⟩

/-- Settles O11: `rst` clears ILL and no command sets it, which leaves the illegal word. -/
theorem onlyAnIllegalWordSetsIll : Obligations.OnlyAnIllegalWordSetsIll := by
  intro s t h hs ht
  rcases step_cases h with ⟨-, rfl⟩ | ⟨p, rest, hp, ⟨-, rfl⟩ | ⟨hr, ⟨e, hd⟩, -⟩ | ⟨-, i, -, hexec⟩⟩
  · exact absurd ht hs
  · exact absurd ht (by simp)
  · exact ⟨p, rest, hp, hr, by simp [hd]⟩
  · rcases exec_ill hexec with hkeep | ⟨hclear, -⟩
    · exact absurd (hkeep.symm.trans ht) hs
    · exact absurd (hclear.symm.trans ht) (by decide)

/-- Settles O12: a changed register is a changed ProcessorState, and a WRST of another register leaves this one alone. -/
theorem onlyFourThingsMoveTheSequence : Obligations.OnlyFourThingsMoveTheSequence := by
  refine fun s t h => ⟨fun hne => ?pathSel, fun hne => ?dither⟩
  case pathSel =>
    obtain ⟨p, rest, hp, hr | hproc | hinit | ⟨r, hd, rfl⟩⟩ := step_core_ne h fun hc => hne (by rw [hc])
    · exact ⟨p, rest, hp, .inl hr⟩
    · exact ⟨p, rest, hp, .inr (.inl hproc)⟩
    · exact ⟨p, rest, hp, .inr (.inr (.inl hinit))⟩
    · obtain rfl : r = .pathSel := by by_contra hr; simp [stateWrite_pathSel, hr] at hne
      exact ⟨p, rest, hp, .inr (.inr (.inr hd))⟩
  case dither =>
    obtain ⟨p, rest, hp, hr | hproc | hinit | ⟨r, hd, rfl⟩⟩ := step_core_ne h fun hc => hne (by rw [hc])
    · exact ⟨p, rest, hp, .inl hr⟩
    · exact ⟨p, rest, hp, .inr (.inl hproc)⟩
    · exact ⟨p, rest, hp, .inr (.inr (.inl hinit))⟩
    · obtain rfl : r = .dither := by by_contra hr; simp [stateWrite_dither, hr] at hne
      exact ⟨p, rest, hp, .inr (.inr (.inr hd))⟩

/-- Settles O15: an illegal word logs an event, `rst` clears ILL, and a command keeps the log and keeps or clears ILL. -/
theorem illIsAlwaysLogged : Obligations.IllIsAlwaysLogged := by
  intro s t hs h
  rcases step_cases h with ⟨-, rfl⟩ | ⟨p, rest, -, ⟨-, rfl⟩ | ⟨-, -, rfl⟩ | ⟨-, i, -, hexec⟩⟩
  · exact hs
  · simp [illLogged]
  · simp [illLogged]
  · obtain ⟨-, -, hlog⟩ := exec_interface hexec
    rcases exec_ill hexec with hkeep | ⟨hclear, -⟩
    · simpa [illLogged, hkeep, hlog] using hs
    · simp [illLogged, hclear]

/-- Settles O16: each invariant, evaluated on the reset state. -/
theorem resetMeetsTheInvariants : Obligations.ResetMeetsTheInvariants :=
  ⟨by decide, by decide +kernel, by decide⟩

/-- Settles O17: the reset state, a step with `rst` and INIT have the registers `resetRegisters` leaves. -/
theorem resetValues : Obligations.ResetValues :=
  ⟨fun r => stateRead_resetRegisters r State.reset,
    fun _ _ _ hp hr => ⟨_, step_of_rst hp hr, fun r => stateRead_resetRegisters r _⟩,
    fun _ => ⟨_, rfl, fun r => stateRead_resetRegisters r _⟩⟩

/-- Settles O60: CLRILL is WRST STATUS with the word 1, whose bit 0 clears ILL. -/
theorem clrillClearsIll : Obligations.ClrillClearsIll := by
  intro s rest hp
  have hd : decode (assemble .clrill).cmd = .ok (.wrst .status) := (Laws.WordReadsBack.wrst .status).2
  refine ⟨writeStatus 1 (present (assemble .clrill) rest s), step_of_decode hp rfl hd, ?_⟩
  simp [writeStatus_ill]

end

section
/-!
PROOFS. The state access primitives and the list of issued commands: what one access reads and writes, what one step takes
from the host interface, and that instances share nothing (R51 to R53, R56, R58, R62, R242).
-/
namespace Sys2Proof.Machine

/-! ### The narrow registers (R53) -/

/-- The low `k` bits of a word, whatever the bits above them. -/
theorem extractLsb'_zero_congr {n : Nat} {w w' : BitVec n} (k : Nat) (h : w.toNat % 2 ^ k = w'.toNat % 2 ^ k) :
    w.extractLsb' 0 k = w'.extractLsb' 0 k :=
  BitVec.eq_of_toNat_eq (by simpa [BitVec.extractLsb'_toNat] using h)

section
variable (s : State)

/-- PATH_SEL reads as its one bit, zero-extended. -/
@[simp] theorem toNat_stateRead_pathSel : (stateRead .pathSel s).toNat = s.core.pathSel.toNat :=
  BitVec.toNat_setWidth_of_le (by decide)

/-- DITHER reads as its 32 bits, zero-extended. -/
@[simp] theorem toNat_stateRead_dither : (stateRead .dither s).toNat = s.core.dither.toNat :=
  BitVec.toNat_setWidth_of_le (by decide)

/-- STATUS reads as ILL, zero-extended. -/
@[simp] theorem toNat_stateRead_status : (stateRead .status s).toNat = s.ill.toNat :=
  BitVec.toNat_setWidth_of_le (b := s.ill) (by decide)

end

/-! ### Repeated accesses (R56) -/

/-- Clearing ILL twice is clearing it once. -/
theorem writeStatus_idem (w : Word64) (s : State) : writeStatus w (writeStatus w s) = writeStatus w s := by
  by_cases hw : w.extractLsb' 0 1 = 1
  · simp only [writeStatus, if_pos hw]; rfl
  · simp only [writeStatus, if_neg hw]

/-- Every register but STATUS is overwritten by the word; STATUS is cleared by it or left as it is. -/
theorem stateWrite_idem (r : StateReg) (w : Word64) (s : State) : stateWrite r w (stateWrite r w s) = stateWrite r w s := by
  cases r
  case status => exact writeStatus_idem w s
  all_goals rfl

/-- RDST only responds (R112), and no register holds a response. -/
theorem stateRead_of_exec_rdst {r : StateReg} {s t : State} (q : StateReg) (h : exec (.rdst r) s = .next t) :
    stateRead q t = stateRead q s := by
  obtain rfl : respond (.data (stateRead r s)) s = t := by injection h
  exact stateRead_congr q (respond_core _ s) (respond_ill _ s)

/-! ### What a command and a step do to the three lists -/

/-- PROC and RDST give one response, NOP, INIT and WRST none (R81). -/
theorem exec_responses {i : Instr} {s t : State} (h : exec i s = .next t) :
    t.responses = s.responses ∨ ∃ r, t.responses = s.responses ++ [r] := by
  rcases exec_cases h with ⟨-, rfl⟩ | ⟨-, rfl⟩ | ⟨-, rfl⟩ | ⟨r, -, rfl⟩ | ⟨r, -, rfl⟩
  · exact .inl rfl
  · exact .inr ⟨_, rfl⟩
  · exact .inl rfl
  · exact .inr ⟨_, rfl⟩
  · exact .inl (stateWrite_responses r _ s)

/-! ### Several instances (R62) -/

theorem stepState_of_step {s t : State} (h : step s = .next t) : stepState s = t := by
  simp [stepState, h]

/-- The instance addressed is stepped. -/
theorem getElem?_stepAt_same (k : Nat) (system : List State) : (stepAt k system)[k]? = system[k]?.map stepState :=
  List.getElem?_modify_eq stepState k system

/-- Every other instance is left as it is. -/
theorem getElem?_stepAt_ne {k l : Nat} (system : List State) (h : k ≠ l) : (stepAt k system)[l]? = system[l]? :=
  List.getElem?_modify_ne stepState system h

/-- Commands to different instances commute. -/
theorem stepAt_comm {k l : Nat} (system : List State) (h : k ≠ l) :
    stepAt k (stepAt l system) = stepAt l (stepAt k system) :=
  List.modify_modify_ne stepState stepState system h.symm

end Sys2Proof.Machine

open Sys2Proof Sys2Proof.Machine

/-- Settles O9: an idle step changes nothing; otherwise the oldest command is taken off the list, and `rst`, an illegal word and
a legal command each leave the lists as their own lemmas say. -/
theorem stepTakesTheOldestCommand : Obligations.StepTakesTheOldestCommand := by
  intro s t h
  rcases step_cases h with ⟨hp, rfl⟩ | ⟨p, rest, hp, ⟨-, rfl⟩ | ⟨-, -, rfl⟩ | ⟨-, i, -, hexec⟩⟩
  · exact ⟨by rw [hp]; rfl, .inl rfl, .inl rfl⟩
  · exact ⟨by rw [hp]; rfl, .inl rfl, .inl rfl⟩
  · exact ⟨by rw [hp]; rfl, .inl rfl, .inr rfl⟩
  · obtain ⟨-, hpending, hlog⟩ := exec_interface hexec
    have hresponses := exec_responses hexec
    rw [present_responses] at hresponses
    exact ⟨by rw [hpending, hp]; rfl, hresponses, .inl hlog⟩

/-- Settles O4: presenting the oldest command puts its values on the ports and takes it off the list. -/
theorem stepRunsTheDecodedCommand : Obligations.StepRunsTheDecodedCommand :=
  fun _ _ _ _ hp hr hd => step_of_decode hp hr hd

/-- Settles O21: each index selects its register (R51), whose word is read whole, or zero-extended if it is narrow. -/
theorem stateReadGivesEachWord : Obligations.StateReadGivesEachWord :=
  fun s => ⟨rfl, rfl, rfl, rfl, rfl, rfl, rfl, rfl, rfl, rfl, rfl, rfl, rfl,
    toNat_stateRead_pathSel s, toNat_stateRead_dither s, toNat_stateRead_status s⟩

/-- Settles O23: a read is the register's own bits, zero-extended, and a write takes no bits of the word but those. -/
theorem narrowRegistersIgnoreUpperBits : Obligations.NarrowRegistersIgnoreUpperBits := by
  refine ⟨fun s => ⟨?_, ?_, ?_⟩, fun w w' s h => ?_, fun w w' s h => ?_⟩
  · exact (toNat_stateRead_pathSel s).trans_lt s.core.pathSel.isLt
  · exact (toNat_stateRead_dither s).trans_lt s.core.dither.isLt
  · exact (toNat_stateRead_status s).trans_lt s.ill.isLt
  · have hbit : w.extractLsb' 0 1 = w'.extractLsb' 0 1 := extractLsb'_zero_congr 1 h
    simp only [stateWrite, writeStatus, hbit, and_self]
  · have hbits : w.extractLsb' 0 32 = w'.extractLsb' 0 32 := extractLsb'_zero_congr 32 h
    simp only [stateWrite, hbits]

/-- Settles O24: a second write finds the register as the first left it, and RDST changes no register. -/
theorem accessesAreIdempotent : Obligations.AccessesAreIdempotent :=
  ⟨stateWrite_idem, fun _ q _ _ h => stateRead_of_exec_rdst q h⟩

/-- Settles O57: an instance is an entry of the list, and a command modifies the one entry it is addressed to. -/
theorem instancesAreIndependent : Obligations.InstancesAreIndependent :=
  ⟨fun _ _ h => stepState_of_step h, fun system k => getElem?_stepAt_same k system,
    fun system _ _ h => ⟨stepAt_comm system h, getElem?_stepAt_ne system h⟩⟩

end

section
/-!
PROOFS. The command words (R70 to R76): decoding inverts encoding, and the 35 legal words are the encodings of the commands;
what an illegal word does (R212); the pseudo-commands and the assembler's example lines (R79, R80).
-/
namespace Sys2Proof

/-! ### Decoding and encoding -/

/-- A command without an index is accepted when IDX is 0 (R70). -/
theorem withoutIdx_eq_ok_iff {w : Word32} {i j : Instr} : withoutIdx w j = .ok i ↔ idxField w = 0 ∧ j = i := by
  unfold withoutIdx
  split
  case isTrue hidx => simp only [hidx, true_and, Except.ok.injEq]
  case isFalse hidx => exact iff_of_false nofun fun h => hidx h.1

/-- Everything the decoder accepts: the rows of the opcode table, with the IDX each row allows (R73, R74). -/
theorem decode_eq_ok_iff_fields {w : Word32} {i : Instr} :
    decode w = .ok i ↔ rsvField w = 0 ∧
      ((opField w).toNat = 0 ∧ idxField w = 0 ∧ .nop = i ∨ (opField w).toNat = 1 ∧ idxField w = 0 ∧ .proc = i ∨
        (opField w).toNat = 2 ∧ idxField w = 0 ∧ .init = i ∨ (opField w).toNat = 3 ∧ .rdst (regOfIndex (idxField w)) = i ∨
        (opField w).toNat = 4 ∧ .wrst (regOfIndex (idxField w)) = i) := by
  unfold decode
  split
  case isTrue hrsv => exact iff_of_false nofun fun h => hrsv h.1
  case isFalse hrsv =>
    rw [not_not] at hrsv
    simp only [hrsv, true_and]
    generalize (opField w).toNat = op
    split
    case h_6 => exact iff_of_false nofun (by tauto)
    all_goals simp [withoutIdx_eq_ok_iff]

/-- A word with RSV = 0 is built from its other two fields. -/
theorem cmdWord_fields {w : Word32} (h : rsvField w = 0) : cmdWord (opField w) (idxField w) = w := by
  conv_rhs => rw [word_eq_fields w, h]
  rfl

/-- R73: the decoder reads back what the encoder wrote. -/
theorem decode_encode (i : Instr) : decode (encode i) = .ok i := by
  cases i with
  | nop => exact Laws.WordReadsBack.nop.2
  | proc => exact Laws.WordReadsBack.proc.2
  | init => exact Laws.WordReadsBack.init.2
  | rdst r => exact (Laws.WordReadsBack.rdst r).2
  | wrst r => exact (Laws.WordReadsBack.wrst r).2

/-- Each row of the opcode table has one word per index it allows, so a word that decodes is rebuilt from its fields. -/
theorem encode_of_decode {w : Word32} {i : Instr} (h : decode w = .ok i) : encode i = w := by
  obtain ⟨hrsv, hrow⟩ := decode_eq_ok_iff_fields.mp h
  have hw : ∀ {op idx : BitVec 4}, (opField w).toNat = op.toNat → idxField w = idx → cmdWord op idx = w := by
    rintro op _ hop rfl
    rw [← BitVec.eq_of_toNat_eq hop, cmdWord_fields hrsv]
  rcases hrow with ⟨hop, hidx, rfl⟩ | ⟨hop, hidx, rfl⟩ | ⟨hop, hidx, rfl⟩ | ⟨hop, rfl⟩ | ⟨hop, rfl⟩
  · exact hw hop hidx
  · exact hw hop hidx
  · exact hw hop hidx
  · exact hw hop (indexOfReg_regOfIndex _).symm
  · exact hw hop (indexOfReg_regOfIndex _).symm

/-- The words that decode to a command are its encoding alone. -/
theorem decode_eq_ok_iff {w : Word32} {i : Instr} : decode w = .ok i ↔ encode i = w :=
  ⟨encode_of_decode, fun h => h ▸ decode_encode i⟩

theorem encode_injective : Function.Injective encode := fun i j h => by
  simpa [decode_encode] using congrArg decode h

/-! ### Counting the legal words (R74) -/

/-- The index map is one to one (R51, R55). -/
def regEquiv : StateReg ≃ BitVec 4 where
  toFun := indexOfReg
  invFun := regOfIndex
  left_inv := regOfIndex_indexOfReg
  right_inv := indexOfReg_regOfIndex

/-- The opcode table by its rows: three commands without an index, then RDST and WRST with one (R73). -/
def instrEquiv : Instr ≃ Fin 3 ⊕ StateReg ⊕ StateReg where
  toFun
    | .nop => .inl 0
    | .proc => .inl 1
    | .init => .inl 2
    | .rdst r => .inr (.inl r)
    | .wrst r => .inr (.inr r)
  invFun
    | .inl 0 => .nop
    | .inl 1 => .proc
    | .inl 2 => .init
    | .inr (.inl r) => .rdst r
    | .inr (.inr r) => .wrst r
  left_inv i := by cases i <;> rfl
  right_inv := by
    rintro (c | r | r)
    · fin_cases c <;> rfl
    · rfl
    · rfl

theorem card_bitVec (n : Nat) : Nat.card (BitVec n) = 2 ^ n := by
  rw [Nat.card_congr BitVec.equivFin.toEquiv, Nat.card_fin]

/-- 3 + 16 + 16 commands. -/
theorem card_instr : Nat.card Instr = 35 := by
  have hreg : Nat.card StateReg = 16 := (Nat.card_congr regEquiv).trans (card_bitVec 4)
  have : Finite StateReg := Finite.of_equiv _ regEquiv.symm
  rw [Nat.card_congr instrEquiv, Nat.card_sum, Nat.card_sum, hreg, Nat.card_fin]

/-- The legal words are as many as the commands. -/
theorem ncard_range_encode : (Set.range encode).ncard = 35 :=
  (Nat.card_range_of_injective encode_injective).trans card_instr

end Sys2Proof

namespace Sys2Proof.Machine

/-- A step with an illegal word raises IllegalCommand (R212). -/
theorem step_of_illegal {s : State} {p : Ports} {rest : List Ports} (hp : s.pending = p :: rest) (hr : p.rst = false)
    (hd : ∀ i, decode p.cmd ≠ .ok i) : step s = .next (raiseIllegalCommand (present p rest s)) := by
  cases he : decode p.cmd with
  | ok i => exact absurd he (hd i)
  | error e => simp [step, runNext, runCommand, hp, hr, he]

/-- Only STATUS shows ILL: any other register reads from ProcessorState alone (R53). -/
theorem stateRead_congr_of_ne_status {r : StateReg} {s t : State} (hr : r ≠ .status) (hc : s.core = t.core) :
    stateRead r s = stateRead r t := by
  cases r
  case status => exact absurd rfl hr
  all_goals simp only [stateRead, hc]

/-! ### The assembler's lines -/

/-- Each pseudo-command is assembled as the line it expands to (R80). -/
theorem assemble_expandLine (l : AsmLine) : assemble (expandLine l) = assemble l := by
  cases l <;> rfl

/-! ### The text of a line, by its mnemonic (R79, 30_encoding.md section 5) -/

theorem parseLine_without_operands : parseLine "NOP".toList = some .nop ∧ parseLine "INIT".toList = some .init ∧
    parseLine "CLRILL".toList = some .clrill := by
  decide

/-- RDST reads any register by its name (R51). -/
theorem parseLine_rdst (r : StateReg) : parseLine ("RDST " ++ regName r).toList = some (.rdst r) := by
  cases r <;> decide

/-- Each decimal operand is the nearest binary64 (R10); 0.99 is inexact. -/
theorem parseLine_decimals :
    parseLine "PROC 1.0, 44100.0, 0.5".toList = some (.proc 0x3FF0000000000000 0x40E5888000000000 0x3FE0000000000000) ∧
    parseLine "WRST LAST_OUT, 0.99".toList = some (.wrst .lastOut 0x3FEFAE147AE147AE) := by
  decide +kernel

/-- The word of an integer register, in hex and in decimal. -/
theorem parseLine_integers : parseLine "WRST DITHER, 0x3C00".toList = some (.wrst .dither 0x3C00) ∧
    parseLine "WRST STATUS, 1".toList = some (.wrst .status 1) := by
  decide

/-- Raw words are taken as they are, legal or not, and a comment is dropped. -/
theorem parseLine_raw_words : parseLine ".word 0x00000005".toList = some (.word 0x00000005) ∧
    parseLine ".word 0x00000011 ; PROC with IDX = 1".toList = some (.word 0x00000011) ∧
    parseLine ".word 0x00000100".toList = some (.word 0x00000100) := by
  decide

end Sys2Proof.Machine

open Sys2Proof Sys2Proof.Machine

/-- Settles O2: `decode_encode` and `encode_of_decode`, the two directions of `decode_eq_ok_iff`. -/
theorem decodeAndEncodeAgree : Obligations.DecodeAndEncodeAgree :=
  ⟨decode_encode, fun _ _ h => encode_of_decode h⟩

/-- Settles O3: the predicate is what the rows of the opcode table have in common, and the legal words are the range of the
encoder, which is one to one. -/
theorem legalWordsAreThirtyFive : Obligations.LegalWordsAreThirtyFive := by
  have hlegal : {w : Word32 | ∃ i, decode w = .ok i} = Set.range encode := by
    simp only [decode_eq_ok_iff]; rfl
  refine ⟨fun w => ?predicate, ?legal, ?illegal⟩
  case predicate =>
    simp only [decode_eq_ok_iff_fields, exists_and_left, exists_or, exists_eq', and_true]
    simp only [rsvField, opField, idxField]
    tauto
  case legal =>
    change {w : Word32 | ∃ i, decode w = .ok i}.ncard = 35
    rw [hlegal, ncard_range_encode]
  case illegal =>
    change {w : Word32 | ∃ i, decode w = .ok i}ᶜ.ncard = 2 ^ 32 - 35
    rw [hlegal, Set.ncard_compl, card_bitVec, ncard_range_encode]

/-- Settles O7: `raiseIllegalCommand` sets ILL, which only STATUS shows. -/
theorem illegalWordSetsOnlyIll : Obligations.IllegalWordSetsOnlyIll :=
  fun _ _ _ hp hr hd => ⟨_, step_of_illegal hp hr hd, rfl, fun _ hne => stateRead_congr_of_ne_status hne rfl, rfl, rfl, rfl⟩

/-- Settles O58: each pseudo-command is assembled as its expansion, and the words are those of the commands expanded to. -/
theorem pseudoCommandsExpand : Obligations.PseudoCommandsExpand :=
  ⟨assemble_expandLine .clrill, rfl, fun n => ⟨assemble_expandLine (.seed n), rfl⟩, assemble_expandLine (.setpath 0),
    assemble_expandLine (.setpath 1), fun rate control => ⟨assemble_expandLine (.proc0 rate control), rfl⟩⟩

/-- Settles O59: each line's text is read as its lemma says, and CLRILL is assembled as its expansion. -/
theorem assemblerReadsTheExamples : Obligations.AssemblerReadsTheExamples := by
  obtain ⟨hnop, hinit, hclrill⟩ := parseLine_without_operands
  obtain ⟨hproc, hlastOut⟩ := parseLine_decimals
  obtain ⟨hdither, hstatus⟩ := parseLine_integers
  refine ⟨hnop, hinit, hproc, parseLine_rdst .mrA, parseLine_rdst .lastOut, parseLine_rdst .pathSel, parseLine_rdst .dither,
    parseLine_rdst .status, hlastOut, hdither, ?sameAsWrst, ?ports, parseLine_raw_words⟩
  case sameAsWrst =>
    rw [hclrill, hstatus]
    exact congrArg some (assemble_expandLine .clrill).symm
  case ports =>
    rw [hclrill]
    rfl

end

section
/-!
PROOFS. NOP, RDST and WRST: their words, and what a register reads as after a WRST (R100, R112, R113).
-/
namespace Sys2Proof

/-- The words R112 and R113 write with an index are the encoder's (R70). -/
theorem or_shiftLeft_eq_cmdWord (op i : BitVec 4) : op.zeroExtend 32 ||| (i.zeroExtend 32 <<< 4) = cmdWord op i := by
  revert op i; decide

theorem decode_rdst_word (i : BitVec 4) : decode (0x00000003 ||| (i.zeroExtend 32 <<< 4)) = .ok (.rdst (regOfIndex i)) := by
  rw [decode_eq_ok_iff, encode, indexOfReg_regOfIndex]
  exact (or_shiftLeft_eq_cmdWord 3 i).symm

theorem decode_wrst_word (i : BitVec 4) : decode (0x00000004 ||| (i.zeroExtend 32 <<< 4)) = .ok (.wrst (regOfIndex i)) := by
  rw [decode_eq_ok_iff, encode, indexOfReg_regOfIndex]
  exact (or_shiftLeft_eq_cmdWord 4 i).symm

end Sys2Proof

namespace Sys2Proof.Machine

/-! ### Reading after writing (R52) -/

/-- STATUS after a write to it: cleared or as before. -/
theorem stateRead_writeStatus (w : Word64) (s : State) :
    stateRead .status (writeStatus w s) = if w.extractLsb' 0 1 = 1 then 0 else stateRead .status s := by
  unfold writeStatus
  split <;> rfl

/-- A register just written reads as the bits of the word it keeps. -/
theorem stateRead_stateWrite_same (r : StateReg) (w : Word64) (s : State) :
    stateRead r (stateWrite r w s) =
      if r = .pathSel then (w.extractLsb' 0 1).zeroExtend 64
      else if r = .dither then (w.extractLsb' 0 32).zeroExtend 64
      else if r = .status then (if w.extractLsb' 0 1 = 1 then 0 else stateRead .status s)
      else w := by
  cases r
  case status => exact stateRead_writeStatus w s
  all_goals rfl

/-- Every other register reads as before the write. -/
theorem stateRead_stateWrite_ne {q r : StateReg} (w : Word64) (s : State) (h : q ≠ r) :
    stateRead q (stateWrite r w s) = stateRead q s := by
  cases r
  case status => exact stateRead_congr_of_ne_status h (writeStatus_core w s)
  all_goals cases q <;> try rfl
  all_goals exact absurd rfl h

end Sys2Proof.Machine

open Sys2Proof Sys2Proof.Machine

/-- Settles O22: the word is the encoder's, and `stateWrite` is read back register by register. -/
theorem wrstWritesOneRegister : Obligations.WrstWritesOneRegister :=
  ⟨decode_wrst_word, fun r s => ⟨stateWrite r (wrstWord s.ports) s, rfl, stateRead_stateWrite_same r _ s,
    fun _ hne => stateRead_stateWrite_ne _ s hne, stateWrite_ports r _ s, stateWrite_pending r _ s,
    stateWrite_responses r _ s, stateWrite_faultLog r _ s⟩⟩

/-- Settles O19: the encoding of NOP is 0. -/
theorem nopChangesNothing : Obligations.NopChangesNothing :=
  ⟨fun _ => decode_eq_ok_iff.trans eq_comm, fun _ => rfl⟩

/-- Settles O20: RDST answers `respond`; the step from reset executes RDST DITHER, whose register holds the seed. -/
theorem rdstRespondsWithTheRegister : Obligations.RdstRespondsWithTheRegister := by
  refine ⟨decode_rdst_word, fun _ _ => rfl, ?afterReset⟩
  case afterReset =>
    have hd : decode 0x000000E3 = .ok (.rdst .dither) := decode_rdst_word 14
    exact ⟨_, step_of_decode (p := { Ports.idle with cmd := 0x000000E3 }) rfl rfl hd, rfl⟩

end

section
/-!
PROOFS. PROC's own stages around the sub-blocks: the near-zero floor (R105), the gain and where it is applied (R106, R107, R161),
and the output restore (R110).
-/
namespace Sys2Proof.Machine

/-! ### The near-zero floor (R105) -/

theorem nearZeroFloor_of_lt {x : F64} (d : Word32) (h : flt (fabs x) Config.floorThresh = true) :
    nearZeroFloor x d = fmul (toF64 d) Config.floorScale := if_pos h

theorem nearZeroFloor_of_not_lt {x : F64} (d : Word32) (h : flt (fabs x) Config.floorThresh = false) :
    nearZeroFloor x d = x := by
  rw [nearZeroFloor, h]; rfl

/-- A value at or above a bound is not below it. -/
theorem flt_eq_false_of_fge {a b : F64} (h : fge a b = true) : flt a b = false := by
  simp only [fge, fle, Bool.and_eq_true, decide_eq_true_eq] at h
  simp [flt, h.2]

/-- A rounded integer is negative only if the integer is. -/
theorem signBit_roundUnits_of_nonneg {u : Int} (h : 0 ≤ u) : signBit (roundUnits false u) = false := by
  unfold roundUnits
  split
  · exact signBit_ofSignMag _ (by norm_num)
  · rw [signBit_ofSignMag _ (roundMag_lt _ _), decide_eq_false_iff_not]
    exact not_lt.2 h

/-- `to_f64` of a `u32` is exact (R7). -/
theorem toF64_exact (d : Word32) : isFinite (toF64 d) = true ∧ units (toF64 d) = d.toNat * 2 ^ 1074 :=
  ofInt_exact (by have := d.isLt; omega)

theorem signBit_toF64 (d : Word32) : signBit (toF64 d) = false := by
  unfold toF64 ofInt
  exact signBit_roundUnits_of_nonneg (by positivity)

theorem orderKey_toF64_mono {c d : Word32} (h : c.toNat ≤ d.toNat) : orderKey (toF64 c) ≤ orderKey (toF64 d) := by
  rw [orderKey_le_iff, (toF64_exact c).2, (toF64_exact d).2]
  exact Int.mul_le_mul_of_nonneg_right (by exact_mod_cast h) (by positivity)

/-- The scale is a positive number. -/
theorem floorScale_pos : isFinite Config.floorScale = true ∧ signBit Config.floorScale = false ∧
    isZero Config.floorScale = false := by decide

/-- The replacement is largest for the largest DITHER. -/
theorem toF64_mul_floorScale_le (d : Word32) : fle (fmul (toF64 d) Config.floorScale) 0x39050D498B9A0919 = true := by
  obtain ⟨hk, hs, hz⟩ := floorScale_pos
  have hn (c : Word32) : isNaN (toF64 c) = false := isNaN_of_isFinite (toF64_exact c).1
  have htop : fmul (toF64 0xFFFFFFFF) Config.floorScale = 0x39050D498B9A0919 := by decide +kernel
  rw [← htop, fle_iff (isNaN_fmul_of_pos (hn d) hk hs hz) (isNaN_fmul_of_pos (hn _) hk hs hz)]
  exact orderKey_fmul_mono (hn d) (hn _) hk hs hz (orderKey_toF64_mono (Nat.le_of_lt_succ d.isLt))

theorem signBit_toF64_mul_floorScale (d : Word32) : signBit (fmul (toF64 d) Config.floorScale) = false := by
  obtain ⟨hk, hs, -⟩ := floorScale_pos
  rw [fmul_of_finite (toF64_exact d).1 hk, signBit_ofSignMag _ (roundMag_lt _ _), signBit_toF64, hs]
  rfl

/-! ### The gain (R106, R107, R161) -/

/-- The gain of a control is neither below 1 nor above it, so that it is applied nowhere. -/
def AppliesNoGain (L : Transcendentals) (ctl : F64) : Prop :=
  flt (inputGain L ctl) Config.one = false ∧ fgt (inputGain L ctl) Config.one = false

theorem appliesNoGain_of_isNaN {L : Transcendentals} {ctl : F64} (h : isNaN (inputGain L ctl) = true) : AppliesNoGain L ctl :=
  ⟨flt_nan_left _ h, flt_nan_right _ h⟩

theorem appliesNoGain_of_eq_one {L : Transcendentals} {ctl : F64} (h : inputGain L ctl = Config.one) :
    AppliesNoGain L ctl := by
  rw [AppliesNoGain, h]; decide

theorem preAttenuate_of_not_lt {x g : F64} (h : flt g Config.one = false) : preAttenuate x g = x := by
  rw [preAttenuate, h]; rfl

theorem deferredBoost_of_not_gt {y g : F64} (h : fgt g Config.one = false) : deferredBoost y g = y := by
  rw [deferredBoost, h]; rfl

/-- PROC reads its control through the two stages that apply the gain, so two controls that apply none are alike to it. -/
theorem process_congr_of_appliesNoGain {cfg : ProcConfig} {c c' : F64} (st : ProcessorState) (sample rate : F64)
    (h : AppliesNoGain cfg.lib c) (h' : AppliesNoGain cfg.lib c') :
    process cfg st { sample := sample, rate := rate, control := c } =
      process cfg st { sample := sample, rate := rate, control := c' } := by
  obtain ⟨hlt, hgt⟩ := h
  obtain ⟨hlt', hgt'⟩ := h'
  have hfront : frontEnd cfg st.dither { sample := sample, rate := rate, control := c } =
      frontEnd cfg st.dither { sample := sample, rate := rate, control := c' } := by
    simp only [frontEnd, preAttenuate_of_not_lt hlt, preAttenuate_of_not_lt hlt']
  have hsaturated (b : BankResult) : saturated cfg (inputGain cfg.lib c) b = saturated cfg (inputGain cfg.lib c') b := by
    rw [saturated, saturated, deferredBoost_of_not_gt hgt, deferredBoost_of_not_gt hgt']
  simp only [process, hfront, hsaturated]

theorem isNaN_inputGain {ctl : F64} (h : isNaN ctl = true) : isNaN (inputGain Transcendentals.configured ctl) = true :=
  isNaN_powOf_right _ _ (isNaN_fdiv_left _ (isNaN_fmul_left _ (isNaN_fsub_left _ h)))

/-- At the centre of the control the exponent is a zero (R106). -/
theorem inputGain_center : inputGain Transcendentals.configured Config.gainCenter = Config.one :=
  powOf_of_isZero_right _ (by decide) (by decide +kernel)

/-! ### Multiplying by a power of two -/

/-- A common factor of the quotient does not change its rounding. -/
theorem roundMag_mul_right (n : Nat) {d k : Nat} (hd : 0 < d) (hk : 0 < k) : roundMag (n * k) (d * k) = roundMag n d := by
  have hdk : 0 < d * k := by positivity
  exact le_antisymm (roundMag_mono hdk hd (by ring_nf; rfl)) (roundMag_mono hd hdk (by ring_nf; rfl))

/-- A magnitude is a number of 53 bits in units of its last place (R72). -/
theorem exists_unitsMag_eq (x : F64) : ∃ m e, m < 2 ^ 53 ∧ unitsMag x = m * 2 ^ e := by
  have hf : fracField x < 2 ^ 52 := Nat.mod_lt _ (by norm_num)
  unfold unitsMag
  split
  · exact ⟨fracField x, 0, by omega, by simp⟩
  · exact ⟨2 ^ 52 + fracField x, expField x - 1, by omega, rfl⟩

/-- The product with `2 ^ k` is exact while it stays below `2 ^ 2098` least subnormals. -/
theorem fmul_two_pow_exact {a b : F64} {k : Nat} (ha : isFinite a = true) (hb : isFinite b = true)
    (hs : signBit b = false) (hu : unitsMag b = 2 ^ k * 2 ^ 1074) (hlt : unitsMag a * 2 ^ k < 2 ^ 2098) :
    isFinite (fmul a b) = true ∧ units (fmul a b) = units a * 2 ^ k ∧ signBit (fmul a b) = signBit a := by
  have hmul : fmul a b = ofSignMag (signBit a) (roundMag (unitsMag a * 2 ^ k) 1) := by
    rw [fmul_of_finite ha hb, hu, hs, Bool.bne_false, ← Nat.mul_assoc,
      ← roundMag_mul_right (unitsMag a * 2 ^ k) one_pos (Nat.two_pow_pos 1074), Nat.one_mul]
  obtain ⟨m, e, hm, he⟩ := exists_unitsMag_eq a
  have hshift : unitsMag a * 2 ^ k = m * 2 ^ (e + k) := by rw [he, pow_add, Nat.mul_assoc]
  obtain ⟨hfin, hmag⟩ := roundMag_exact hm (hshift ▸ hlt) (signBit a)
  rw [← hshift] at hfin hmag
  have hsign : signBit (fmul a b) = signBit a := by rw [hmul, signBit_ofSignMag _ (roundMag_lt _ _)]
  refine ⟨?_, ?_, hsign⟩
  · rw [hmul]
    simpa [isFinite, magBits_ofSignMag _ (roundMag_lt _ _)] using hfin
  · rw [units, hsign, hmul, hmag, units]
    cases signBit a <;> simp

/-- A number at most 1 in magnitude, in least subnormals. -/
theorem unitsMag_le_of_fabs_le_one {y : F64} (h : fle (fabs y) Config.one = true) :
    isFinite y = true ∧ unitsMag y ≤ 2 ^ 1074 := by
  have hn : isNaN y = false := by
    by_contra hn
    rw [fle_nan_left _ (by simpa using hn)] at h
    cases h
  rw [fle_iff (by simpa using hn) (by decide), orderKey_fabs, orderKey_one, Nat.cast_le] at h
  have hone : unitsMag Config.one = 2 ^ 1074 := by decide +kernel
  have hfin : magBits Config.one < infMag := by decide
  exact ⟨by simpa [isFinite] using h.trans_lt hfin, hone ▸ unitsMag_le h⟩

end Sys2Proof.Machine

open Sys2Proof Sys2Proof.Machine

/-- Settles O35: the two branches of the floor; the product with DITHER rises with DITHER, so its largest value is that of
0xFFFFFFFF. -/
theorem floorReplacesNearZeroSamples : Obligations.FloorReplacesNearZeroSamples := by
  refine ⟨fun x d h => nearZeroFloor_of_not_lt d ?passes, fun x d h => ?replaced, by decide +kernel⟩
  case passes => exact h.elim (fun hn => flt_nan_left _ (by simpa using hn)) flt_eq_false_of_fge
  case replaced =>
    have hzero : fmul (toF64 0) Config.floorScale = Config.zero := by decide +kernel
    rw [nearZeroFloor_of_lt d h, nearZeroFloor_of_lt 0 h]
    exact ⟨rfl, signBit_toF64_mul_floorScale d, toF64_mul_floorScale_le d, hzero⟩

/-- Settles O34: the gain is a NaN, which is neither below 1 nor above, or it is 1. -/
theorem nanControlActsAsUnityGain : Obligations.NaNControlActsAsUnityGain :=
  ⟨inputGain_center, fun st sample rate _ h => process_congr_of_appliesNoGain st sample rate
    (appliesNoGain_of_isNaN (isNaN_inputGain h)) (appliesNoGain_of_eq_one inputGain_center)⟩

/-- Settles O36: GAIN_BOOST is 2¹⁶, and no result comes near the largest finite value. -/
theorem outputRestoreIsExact : Obligations.OutputRestoreIsExact := by
  intro y h
  obtain ⟨hfin, hle⟩ := unitsMag_le_of_fabs_le_one h
  have hlt : unitsMag y * 2 ^ 16 < 2 ^ 2098 := (Nat.mul_le_mul_right _ hle).trans_lt (by decide +kernel)
  exact fmul_two_pow_exact hfin (by decide) (by decide) (by decide +kernel) hlt
end

section
/-!
PROOFS. PROC as a whole: the values of its stages, in R101's order, make up what it answers (R101, R115).
-/
namespace Sys2Proof.Machine

theorem one_sub_ne_self (p : BitVec 1) : 1 - p ≠ p := by
  revert p; decide

/-- Path A's accumulator is the one written or that of the path not written. -/
theorem pathA_hb_setPathOf (st : ProcessorState) (p : BitVec 1) (v : PathState) :
    (setPathOf st p v).pathA.hb = if p = 0 then v.hb else (pathOf st (1 - p)).hb := by
  rcases bit_eq_zero_or_one p with rfl | rfl <;> rfl

/-- Path B's accumulator likewise. -/
theorem pathB_hb_setPathOf (st : ProcessorState) (p : BitVec 1) (v : PathState) :
    (setPathOf st p v).pathB.hb = if p = 0 then (pathOf st (1 - p)).hb else v.hb := by
  rcases bit_eq_zero_or_one p with rfl | rfl <;> rfl

/-- PROC from the values its stages give, up to the limiter's input. -/
theorem process_eq_of_stages {cfg : ProcConfig} {st : ProcessorState} {o : ProcOperands} {x y y' : F64} {b : BankResult}
    (hx : frontEnd cfg st.dither o = x) (hb : filterBank cfg o.rate x st = b)
    (hy : saturated cfg (inputGain cfg.lib o.control) b = y)
    (hy' : addBacks y (groundOf x b.y) (restrainHeadBump y b.st) = y') :
    process cfg st o =
      { out := outputRestore (dithered cfg (xorshift32 st.dither) (safetyClamp (hysteresis st.lastOut y')))
        st := { restrainHeadBump y b.st with lastOut := hysteresis st.lastOut y', dither := xorshift32 st.dither } } := by
  subst hx hb hy hy'
  rfl

/-! ### The state between the filter bank and the limiter -/

/-- What the filter bank leaves once it has made `v` of the active path (R127, R128). -/
def bankState (st : ProcessorState) (v : PathState) : ProcessorState := togglePath (setPathOf st st.pathSel v)

section
variable (st : ProcessorState) (v : PathState) (y : F64)

/-- The restraint reaches the active path's new accumulator (R165). -/
theorem pathOf_restrainHeadBump_active : pathOf (restrainHeadBump y (bankState st v)) st.pathSel =
    { v with hb := restrain (suppressOf y) v.hb } := by
  rw [pathOf_restrainHeadBump, bankState, pathOf_togglePath, pathOf_setPathOf_same]

/-- The restraint reaches the other path's accumulator too, and nothing else of that path has changed (R135, R165). -/
theorem pathOf_restrainHeadBump_other : pathOf (restrainHeadBump y (bankState st v)) (1 - st.pathSel) =
    { pathOf st (1 - st.pathSel) with hb := restrain (suppressOf y) (pathOf st (1 - st.pathSel)).hb } := by
  rw [pathOf_restrainHeadBump, bankState, pathOf_togglePath, pathOf_setPathOf_ne _ _ (one_sub_ne_self _)]

/-- The mix adds path A's accumulator and path B's, whichever is active (R167). -/
theorem addBacks_restrainHeadBump (ground : F64) : addBacks y ground (restrainHeadBump y (bankState st v)) =
    headBumpMix (groundAddBack y ground)
      (restrain (suppressOf y) (if st.pathSel = 0 then v.hb else (pathOf st (1 - st.pathSel)).hb))
      (restrain (suppressOf y) (if st.pathSel = 0 then (pathOf st (1 - st.pathSel)).hb else v.hb)) := by
  rw [← pathA_hb_setPathOf, ← pathB_hb_setPathOf]
  rfl

end

/-- Of two values sorted by path, the one of the path asked for. -/
theorem ite_apply_ite {α β : Type} (c : Prop) [Decidable c] (f : α → β) (a b : α) :
    (if c then f (if c then a else b) else f (if c then b else a)) = f a := by
  split <;> rfl

end Sys2Proof.Machine

open Sys2Proof Sys2Proof.Machine

/-- Settles O27: each stage of the model gives the value the statement names for it, and `process_eq_of_stages` puts the
stages together. -/
theorem procIsTheStageSequence : Obligations.ProcIsTheStageSequence := by
  intro s L xin sr ctl x1 x2 g x scale bqcoef mid high hbf roll p old mr highs h v t bqm hb u t' bqh y0 ground y1 a soft
    y2 y3 y4 ay y5 suppress restrained other hbA hbB y6 y7 S lim l0 l1 l2 c1 last y8 e d1 d2 d noise out
  have hfront : frontEnd ProcConfig.hardware s.core.dither (procOperands s.ports) = x := rfl
  have hbank : filterBank ProcConfig.hardware sr x s.core = ⟨highs, y0, bankState s.core ⟨mr, hb, bqm, bqh⟩⟩ := rfl
  have hsaturated : saturated ProcConfig.hardware g ⟨highs, y0, bankState s.core ⟨mr, hb, bqm, bqh⟩⟩ = y5 := rfl
  have hmix : addBacks y5 ground (restrainHeadBump y5 (bankState s.core ⟨mr, hb, bqm, bqh⟩)) = y7 :=
    addBacks_restrainHeadBump _ _ _ _
  have hlimiter : hysteresis s.core.lastOut y7 = last := rfl
  have hout : outputRestore (dithered ProcConfig.hardware d (safetyClamp last)) = out := rfl
  have hprocess := process_eq_of_stages hfront hbank hsaturated hmix
  have hactive : (if p = 0 then hbA else hbB) = restrained hb := ite_apply_ite (p = 0) restrained hb other.hb
  have hother : (if p = 0 then hbB else hbA) = restrained other.hb := ite_apply_ite (p = 0) restrained other.hb hb
  rw [hlimiter] at hprocess
  rw [hactive, hother]
  refine ⟨procCommand ProcConfig.hardware s, rfl, ?active, ?other, process_pathSel _ _ _, ?lastOut, process_dither _ _ _,
    ?response, rfl, rfl, rfl, rfl⟩
  case active =>
    rw [procCommand_core, hprocess]
    exact pathOf_restrainHeadBump_active _ _ _
  case other =>
    rw [procCommand_core, hprocess]
    exact pathOf_restrainHeadBump_other _ _ _
  case lastOut => rw [procCommand_core, hprocess]
  case response =>
    rw [procCommand_responses, hprocess]
    exact congrArg (fun v => s.responses ++ [.sample v]) hout

/-- Settles O31: PROC answers `procCommand`, whatever is on the ports, and that changes ProcessorState and adds one response. -/
theorem procFrame : Obligations.ProcFrame :=
  fun _ _ _ _ => ⟨_, _, rfl, procCommand_responses _ _, rfl, rfl, rfl, rfl, rfl⟩

end

section
/-!
PROOFS. The filter bank works on one path: PROC's mid-roller update of the active path (R129), the independence of the other
path's MR, BQM and BQH (R135), and the alternation of PATH_SEL (R128).
-/
namespace Sys2Proof.Machine

/-! ### The mid-roller (R129) -/

/-- A NaN sample or a NaN accumulator makes the new accumulator a NaN. -/
theorem isNaN_midRoller {mr x : F64} (roll : F64) (h : isNaN x = true ∨ isNaN mr = true) :
    isNaN (midRoller mr x roll) = true := by
  rcases h with hx | hmr
  · exact isNaN_fadd_right _ (isNaN_fmul_left _ hx)
  · exact isNaN_fadd_left _ (isNaN_fmul_left _ hmr)

/-- The stages after the mid-roller leave MR alone. -/
theorem process_mr_active (cfg : ProcConfig) (st : ProcessorState) (o : ProcOperands) :
    (pathOf (process cfg st o).st st.pathSel).mr =
      midRoller (pathOf st st.pathSel).mr (frontEnd cfg st.dither o) (coeffs cfg.lib cfg.form o.rate).roll := by
  rw [pathOf_process, filterBank_active]
  rfl

/-- Of the path that is not active PROC writes HB alone (R135, R165). -/
theorem pathOf_process_other (cfg : ProcConfig) (st : ProcessorState) (o : ProcOperands) :
    pathOf (process cfg st o).st (1 - st.pathSel) =
      { pathOf st (1 - st.pathSel) with
        hb := restrain (suppressOf (spiralOut cfg st o)) (pathOf st (1 - st.pathSel)).hb } := by
  rw [pathOf_process, filterBank_other _ _ _ _ (one_sub_ne_self _)]

/-! ### Replacing the other path's copies commutes with every stage (R135) -/

/-- Writes of the two paths' copies commute. -/
theorem setPathOf_comm (st : ProcessorState) {p q : BitVec 1} (v w : PathState) (h : q ≠ p) :
    setPathOf (setPathOf st p v) q w = setPathOf (setPathOf st q w) p v := by
  rcases bit_eq_zero_or_one p with rfl | rfl <;> rcases bit_eq_zero_or_one q with rfl | rfl
  · exact absurd rfl h
  · rfl
  · rfl
  · exact absurd rfl h

theorem togglePath_setPathOf (st : ProcessorState) (q : BitVec 1) (v : PathState) :
    togglePath (setPathOf st q v) = setPathOf (togglePath st) q v := by
  unfold setPathOf; split <;> rfl

/-- The filter bank reads the active path only, and carries the other along. -/
theorem filterBank_setPathOf_other (cfg : ProcConfig) (sr x : F64) (st : ProcessorState) (v : PathState) :
    filterBank cfg sr x (setPathOf st (1 - st.pathSel) v) =
      { filterBank cfg sr x st with st := setPathOf (filterBank cfg sr x st).st (1 - st.pathSel) v } := by
  have hne := one_sub_ne_self st.pathSel
  simp only [filterBank, setPathOf_pathSel, pathOf_setPathOf_ne st v hne.symm, setPathOf_comm st v _ hne.symm,
    togglePath_setPathOf]

/-- The restraint treats each path's accumulator by itself. -/
theorem restrainHeadBump_setPathOf (y : F64) (st : ProcessorState) (q : BitVec 1) (v : PathState) :
    restrainHeadBump y (setPathOf st q v) =
      setPathOf (restrainHeadBump y st) q { v with hb := restrain (suppressOf y) v.hb } := by
  rcases bit_eq_zero_or_one q with rfl | rfl <;> rfl

/-- The add-backs read no more of a path than its HB (R167). -/
theorem addBacks_setPathOf (y ground : F64) (st : ProcessorState) {q : BitVec 1} {v : PathState}
    (h : v.hb = (pathOf st q).hb) : addBacks y ground (setPathOf st q v) = addBacks y ground st := by
  rcases bit_eq_zero_or_one q with rfl | rfl
  · exact congrArg (fun hb => headBumpMix (groundAddBack y ground) hb st.pathB.hb) h
  · exact congrArg (fun hb => headBumpMix (groundAddBack y ground) st.pathA.hb hb) h

/-- So what the limiter receives does not depend on the rest of that path. -/
theorem addBacks_restrainHeadBump_setPathOf (y ground : F64) (st : ProcessorState) {q : BitVec 1} {v : PathState}
    (h : v.hb = (pathOf st q).hb) :
    addBacks y ground (restrainHeadBump y (setPathOf st q v)) = addBacks y ground (restrainHeadBump y st) := by
  rw [restrainHeadBump_setPathOf, addBacks_setPathOf]
  rw [pathOf_restrainHeadBump, h]

/-- The registers that the limiter and the generator write are not a path's. -/
theorem setPathOf_update (st : ProcessorState) (q : BitVec 1) (v : PathState) (lastOut : F64) (dither : Word32) :
    { setPathOf st q v with lastOut := lastOut, dither := dither } =
      setPathOf { st with lastOut := lastOut, dither := dither } q v := by
  unfold setPathOf; split <;> rfl

/-- PROC with another MR, BQM and BQH on the path that is not active: the same output, and the same ProcessorState but for
those registers. -/
theorem process_setPathOf_other (cfg : ProcConfig) (st : ProcessorState) (o : ProcOperands) {v : PathState}
    (h : v.hb = (pathOf st (1 - st.pathSel)).hb) :
    process cfg (setPathOf st (1 - st.pathSel) v) o =
      { out := (process cfg st o).out
        st := setPathOf (process cfg st o).st (1 - st.pathSel)
          { v with hb := (pathOf (process cfg st o).st (1 - st.pathSel)).hb } } := by
  have hx : frontEnd cfg (setPathOf st (1 - st.pathSel) v).dither o = frontEnd cfg st.dither o := by rw [setPathOf_dither]
  have hb := filterBank_setPathOf_other cfg o.rate (frontEnd cfg st.dither o) st v
  have hv : v.hb = (pathOf (filterBank cfg o.rate (frontEnd cfg st.dither o) st).st (1 - st.pathSel)).hb := by
    rw [filterBank_other _ _ _ _ (one_sub_ne_self _), h]
  have hrestrained : restrain (suppressOf (spiralOut cfg st o)) v.hb =
      (pathOf (process cfg st o).st (1 - st.pathSel)).hb := by
    rw [pathOf_process_other, h]
  rw [process_eq_of_stages (y := spiralOut cfg st o) hx hb rfl (addBacks_restrainHeadBump_setPathOf _ _ _ hv),
    restrainHeadBump_setPathOf, hrestrained, setPathOf_update, setPathOf_lastOut, setPathOf_dither]
  rfl

/-! ### The path toggle (R128) -/

theorem toNat_one_sub (p : BitVec 1) : (1 - p).toNat = (p.toNat + 1) % 2 := by
  revert p; decide

/-- A step with a PROC issued executes it (R58, R101). -/
theorem stepState_of_proc {s : State} {p : Ports} {rest : List Ports} (hp : s.pending = p :: rest) (hr : p.rst = false)
    (hd : decode p.cmd = .ok .proc) : stepState s = procCommand ProcConfig.hardware (present p rest s) :=
  stepState_of_step (step_of_decode hp hr hd)

/-- PATH_SEL counts the PROCs of a run modulo 2. -/
theorem pathSel_iterate_stepState {ps : List Ports} (hps : ∀ p ∈ ps, p.rst = false ∧ decode p.cmd = .ok .proc) {s : State}
    (hs : s.pending = ps) :
    (stepState^[ps.length] s).core.pathSel.toNat = (s.core.pathSel.toNat + ps.length) % 2 := by
  induction ps generalizing s with
  | nil => exact (Nat.mod_eq_of_lt s.core.pathSel.isLt).symm
  | cons p rest ih =>
    obtain ⟨⟨hr, hd⟩, hrest⟩ := List.forall_mem_cons.1 hps
    rw [List.length_cons, Function.iterate_succ_apply, stepState_of_proc hs hr hd, ih hrest rfl, procCommand_core,
      process_pathSel, toNat_one_sub, present_core]
    omega

end Sys2Proof.Machine

open Sys2Proof Sys2Proof.Machine

/-- Settles O28: `process_mr_active` is R129's formula, and the other path keeps its MR by `pathOf_process_other`. -/
theorem midRollerUpdatesTheActivePath : Obligations.MidRollerUpdatesTheActivePath := by
  intro s
  have hmr := process_mr_active ProcConfig.hardware s.core (procOperands s.ports)
  refine ⟨procCommand ProcConfig.hardware s, rfl, hmr, ?other, fun h => ?nan⟩
  case other => rw [procCommand_core, pathOf_process_other]
  case nan =>
    rw [procCommand_core, hmr]
    exact isNaN_midRoller _ h

/-- Settles O29: the frame is `pathOf_process_other`, and by `process_setPathOf_other` the replaced registers come through PROC
with nothing else changed. -/
theorem pathsAreIsolated : Obligations.PathsAreIsolated := by
  intro s mr bqm bqh p other s'
  have hother := pathOf_process_other ProcConfig.hardware s.core (procOperands s.ports)
  have hreplaced : process ProcConfig.hardware s'.core (procOperands s'.ports) = _ :=
    process_setPathOf_other ProcConfig.hardware s.core (procOperands s.ports) rfl
  refine ⟨procCommand ProcConfig.hardware s, procCommand ProcConfig.hardware s', rfl, rfl, ?_⟩
  rw [procCommand_core, procCommand_core, procCommand_responses, procCommand_responses, hreplaced, hother]
  exact ⟨rfl, rfl, rfl, pathOf_setPathOf_ne _ _ (one_sub_ne_self p).symm, by rw [pathOf_setPathOf_same], rfl,
    setPathOf_lastOut _ _ _, setPathOf_dither _ _ _, setPathOf_pathSel _ _ _⟩

/-- Settles O30: one PROC toggles PATH_SEL, and the run is an induction over the commands issued. -/
theorem pathSelAlternates : Obligations.PathSelAlternates :=
  ⟨fun _ => ⟨_, rfl, process_pathSel _ _ _⟩, fun _ h => pathSel_iterate_stepState h rfl⟩

end

section
/-!
PROOFS. SOFT_KNEE: the knee amount lies in [0, 1] because COS does so on [0, π/2], whatever the configured function is (R150,
R11); and the knee follows the sign of the highs (R151).
-/
namespace Sys2Proof.Machine

/-! ### Comparisons and CLAMP (R12) -/

theorem flt_asymm {a b : F64} (h : flt a b = true) : flt b a = false := by
  simp only [flt, Bool.and_eq_true, decide_eq_true_eq] at h
  simp [flt, h.2.le]

/-- A number that is not above a bound is at most the bound. -/
theorem fle_of_not_fgt {a b : F64} (ha : isNaN a = false) (hb : isNaN b = false) (h : fgt a b = false) : fle a b = true := by
  rw [fgt, Bool.eq_false_iff, Ne, flt_iff hb ha, not_lt] at h
  exact (fle_iff ha hb).2 h

theorem isNaN_of_fle {a b : F64} (h : fle a b = true) : isNaN a = false ∧ isNaN b = false := by
  simp only [fle, Bool.and_eq_true, Bool.not_eq_true'] at h
  exact h.1

/-- At least zero: a number with a key that is not negative. -/
theorem fle_zero_iff {a : F64} : fle Config.zero a = true ↔ isNaN a = false ∧ 0 ≤ orderKey a := by
  have hkey : orderKey Config.zero = 0 := by decide
  have hzero : isNaN Config.zero = false := by decide
  simp [fle, hkey, hzero]

/-- A number between two finite values is finite. -/
theorem isFinite_of_between {lo a hi : F64} (hlo : isFinite lo = true) (hhi : isFinite hi = true) (h1 : fle lo a = true)
    (h2 : fle a hi = true) : isFinite a = true := by
  rw [fle_iff (isNaN_of_isFinite hlo) (isNaN_of_fle h1).2] at h1
  rw [fle_iff (isNaN_of_fle h2).1 (isNaN_of_isFinite hhi)] at h2
  have := natAbs_orderKey lo
  have := natAbs_orderKey a
  have := natAbs_orderKey hi
  simp only [isFinite, decide_eq_true_eq] at *
  omega

/-- CLAMP keeps a lower bound that its upper limit meets too. -/
theorem fle_clamp {c v hi : F64} (lo : F64) (hv : fle c v = true) (hhi : fle c hi = true) : fle c (clamp v lo hi) = true := by
  have hr : fle c (if fgt v hi then hi else v) = true := by split <;> assumption
  unfold clamp
  generalize (if fgt v hi then hi else v) = r at hr
  simp only
  split
  · next hlt =>
    simp only [flt, fle, Bool.and_eq_true, Bool.not_eq_true', decide_eq_true_eq] at hlt hr ⊢
    exact ⟨⟨hr.1.1, hlt.1.2⟩, hr.2.trans hlt.2.le⟩
  · exact hr

/-- A difference of finite values falls as its second operand rises. -/
theorem orderKey_fsub_anti {a b c : F64} (ha : isFinite a = true) (hb : isFinite b = true) (hc : isFinite c = true)
    (h : orderKey b ≤ orderKey c) : orderKey (fsub a c) ≤ orderKey (fsub a b) := by
  rw [fsub_of_finite ha hb, fsub_of_finite ha hc]
  have := units_le_of_orderKey_le h
  exact orderKey_roundUnits_mono _ _ (by omega)

/-- What remains of 1 after a fraction is taken away is a fraction. -/
theorem fsub_one_bounds {c : F64} (h0 : fle Config.zero c = true) (h1 : fle c Config.one = true) :
    fle Config.zero (fsub Config.one c) = true ∧ fle (fsub Config.one c) Config.one = true := by
  have hone : isFinite Config.one = true := by decide
  have hzero : isFinite Config.zero = true := by decide
  have hc := isFinite_of_between hzero hone h0 h1
  have hnum : isNaN (fsub Config.one c) = false := by rw [fsub_of_finite hone hc, isNaN_roundUnits]
  have hsub1 : fsub Config.one Config.one = Config.zero := by decide +kernel
  have hsub0 : fsub Config.one Config.zero = Config.one := by decide +kernel
  rw [fle_iff (isNaN_of_isFinite hzero) (isNaN_of_isFinite hc)] at h0
  rw [fle_iff (isNaN_of_isFinite hc) (isNaN_of_isFinite hone)] at h1
  rw [fle_iff (isNaN_of_isFinite hzero) hnum, fle_iff hnum (isNaN_of_isFinite hone)]
  exact ⟨(congrArg orderKey hsub1).ge.trans (orderKey_fsub_anti hone hc hone h1),
    (orderKey_fsub_anti hone hzero hc h0).trans_eq (congrArg orderKey hsub0)⟩

/-! ### The approximation of COS on [0, π/2] -/

/-- Every later term of the series is subtracted from the first. -/
theorem altSeries_le (a fuel j z t : Nat) : altSeries a fuel j z t ≤ t := by
  cases fuel with
  | zero => exact Nat.zero_le _
  | succ fuel => exact Nat.sub_le _ _

/-- Up to `z = 1` the second term is at most half the first, so at least half the first term is left. -/
theorem le_two_mul_altSeries {z : Nat} (hz : z ≤ 2 ^ fixBits) (a fuel j t : Nat) :
    t ≤ 2 * altSeries a (fuel + 1) j z t := by
  have hterm : t * z / 2 ^ fixBits ≤ t := Nat.div_le_of_le_mul (by rw [Nat.mul_comm]; exact Nat.mul_le_mul_right t hz)
  have hdiv : 2 ≤ (2 * j + 1 + a) * (2 * j + 2 + a) := Nat.mul_le_mul (by omega : 1 ≤ _) (by omega : 2 ≤ _)
  have hhalf := (Nat.div_le_div_left hdiv two_pos).trans (Nat.div_le_div_right (c := 2) hterm)
  have hrest := altSeries_le a fuel (j + 1) z (t * z / 2 ^ fixBits / ((2 * j + 1 + a) * (2 * j + 2 + a)))
  unfold altSeries
  omega

section
variable {rho : Nat} (h : rho ≤ 2 ^ redBits)
include h

theorem redSquare_le : redSquare rho ≤ 2 ^ fixBits := by
  apply Nat.div_le_of_le_mul
  calc rho * rho ≤ 2 ^ redBits * 2 ^ redBits := Nat.mul_le_mul h h
    _ = 2 ^ (2 * redBits - fixBits) * 2 ^ fixBits := by rw [← pow_add, ← pow_add]; congr 1

/-- cos r is at least 1/2 for r up to 1. -/
theorem le_cosSmall : 2 ^ (fixBits - 1) * 2 ^ redBits ≤ cosSmall rho := by
  have : 2 ^ fixBits ≤ 2 * altSeries 0 32 0 (redSquare rho) (2 ^ fixBits) :=
    le_two_mul_altSeries (redSquare_le h) 0 31 0 (2 ^ fixBits)
  apply Nat.mul_le_mul_right
  unfold fixBits at *
  omega

/-- sin r is at least r/2 for r up to 1. -/
theorem le_sinSmall : rho * 2 ^ (fixBits - 1) ≤ sinSmall rho := by
  have : 2 ^ fixBits ≤ 2 * altSeries 1 32 0 (redSquare rho) (2 ^ fixBits) :=
    le_two_mul_altSeries (redSquare_le h) 1 31 0 (2 ^ fixBits)
  apply Nat.mul_le_mul_left
  unfold fixBits at *
  omega

end

/-- The first quadrant's half next to 0: the argument reduces to itself, and its cosine is positive. -/
theorem cosOfReduced_of_low {u r : Nat} (hr : u * 2 ^ (redBits - 1074) = r) (h : 2 * r < piFixed) :
    cosOfReduced (reduce u) = { neg := false, num := cosSmall r, den := 2 ^ (redBits + fixBits) } := by
  have hk : (2 * r + piFixed) / (2 * piFixed) = 0 := Nat.div_eq_of_lt (by omega)
  simp [reduce, cosOfReduced, hr, hk]

/-- The half next to π/2: the cosine is the sine of what is missing of π/2. -/
theorem cosOfReduced_of_high {u r : Nat} (hr : u * 2 ^ (redBits - 1074) = r) (h1 : piFixed ≤ 2 * r) (h2 : r < piFixed) :
    cosOfReduced (reduce u) = { neg := false, num := sinSmall (piFixed - r), den := 2 ^ (redBits + fixBits) } := by
  have hk : (2 * r + piFixed) / (2 * piFixed) = 1 := Nat.div_eq_of_lt_le (by omega) (by omega)
  simp [reduce, cosOfReduced, hr, hk, h2]

/-- The binary64 value HALF_PI lies below π/2, by at least two least subnormals. -/
theorem halfPi_below : unitsMag Config.halfPi * 2 ^ (redBits - 1074) + 2 ^ (redBits - 1073) ≤ piFixed := by decide +kernel

/-- COS up to HALF_PI is approximated by a positive number, no smaller than a least subnormal. -/
theorem cosApprox_pos {x : F64} (h : unitsMag x ≤ unitsMag Config.halfPi) :
    (cosApprox x).neg = false ∧ 0 < (cosApprox x).den ∧ (cosApprox x).den ≤ (cosApprox x).num * 2 ^ 1074 := by
  have hx := Nat.mul_le_mul_right (2 ^ (redBits - 1074)) h
  have hbelow := halfPi_below
  have hpi : piFixed ≤ 2 * 2 ^ redBits := by decide +kernel
  unfold cosApprox
  generalize hr : unitsMag x * 2 ^ (redBits - 1074) = r at hx
  rcases Nat.lt_or_ge (2 * r) piFixed with hlow | hhigh
  · rw [cosOfReduced_of_low hr hlow]
    refine ⟨rfl, Nat.two_pow_pos _, ?_⟩
    calc 2 ^ (redBits + fixBits) ≤ 2 ^ (fixBits - 1) * 2 ^ redBits * 2 ^ 1074 := by decide +kernel
      _ ≤ cosSmall r * 2 ^ 1074 := Nat.mul_le_mul_right _ (le_cosSmall (by omega))
  · rw [cosOfReduced_of_high hr hhigh (by have := Nat.two_pow_pos (redBits - 1073); omega)]
    refine ⟨rfl, Nat.two_pow_pos _, ?_⟩
    calc 2 ^ (redBits + fixBits) = 2 ^ (redBits - 1073) * 2 ^ (fixBits - 1) * 2 ^ 1074 := by decide +kernel
      _ ≤ (piFixed - r) * 2 ^ (fixBits - 1) * 2 ^ 1074 := Nat.mul_le_mul_right _ (Nat.mul_le_mul_right _ (by omega))
      _ ≤ sinSmall (piFixed - r) * 2 ^ 1074 := Nat.mul_le_mul_right _ (le_sinSmall (by omega))

/-! ### COS on [0, HALF_PI] is a fraction, whatever the free function (R11 (b)) -/

/-- A unit in the last place of a result of at least one least subnormal is at most that result. -/
theorem ulp_le {n d : Nat} (hd : 0 < d) (h : d ≤ n) : d * 2 ^ ulpExp n d ≤ n := by
  have hq : n / d ≠ 0 := (Nat.div_pos h hd).ne'
  calc d * 2 ^ ulpExp n d ≤ d * (n / d) :=
        Nat.mul_le_mul_left d ((Nat.pow_le_pow_right two_pos (Nat.sub_le _ _)).trans (Nat.log2_self_le hq))
    _ ≤ n := Nat.mul_div_le n d

/-- So a value kept near a positive result is not negative. -/
theorem keepWithin_nonneg {a : Approx} (v : F64) (hneg : a.neg = false) (hden : 0 < a.den)
    (hnum : a.den ≤ a.num * 2 ^ 1074) : fle Config.zero (keepWithin a v) = true := by
  refine fle_zero_iff.2 ⟨isNaN_keepWithin a v, ?_⟩
  rcases keepWithin_cases a v with hnear | hnear
  · have hulp := ulp_le hden hnum
    simp only [withinOneUlp, hneg, Bool.false_eq_true, if_false, Bool.and_eq_true, decide_eq_true_eq] at hnear
    have hunits : 0 ≤ units (keepWithin a v) := by
      apply nonneg_of_mul_nonneg_left _ (by exact_mod_cast hden : (0 : Int) < a.den)
      have := hnear.2
      generalize units (keepWithin a v) * (a.den : Int) = p at this ⊢
      omega
    exact (orderKey_le_iff (a := Config.zero)).2 hunits
  · rw [hnear, nearest, hneg, orderKey_ofSignMag _ (roundMag_lt _ _)]
    exact Int.natCast_nonneg _

theorem cosOf_bounds (free : F64 → F64) {x : F64} (h0 : fle Config.zero x = true) (h1 : fle x Config.halfPi = true) :
    fle Config.zero (cosOf free x) = true ∧ fle (cosOf free x) Config.one = true := by
  cases hz : isZero x with
  | true => rw [cosOf_of_isZero free hz]; decide
  | false =>
    have hunits : unitsMag x ≤ unitsMag Config.halfPi := by
      have hkey : orderKey Config.halfPi = magBits Config.halfPi := by decide
      have hle := (fle_iff (isNaN_of_fle h1).1 (by decide)).1 h1
      have hnn := (fle_zero_iff.1 h0).2
      have := natAbs_orderKey x
      exact unitsMag_le (by omega)
    obtain ⟨hneg, hden, hnum⟩ := cosApprox_pos hunits
    rw [cosOf_of_finite free (isFinite_of_between (by decide) (by decide) h0 h1) hz]
    exact ⟨fle_clamp _ (keepWithin_nonneg _ hneg hden hnum) (by decide), (clamp_bounds (isNaN_keepWithin _ _) (by decide)).2⟩

/-! ### The knee amount (R150) -/

/-- The argument of R150's COS, `min(|highs| × π/2, π/2)`. -/
def kneeAngle (highs : F64) : F64 :=
  if fgt (fmul (fabs highs) Config.halfPi) Config.halfPi then Config.halfPi else fmul (fabs highs) Config.halfPi

theorem kneeAmount_eq (L : Transcendentals) (highs : F64) :
    kneeAmount L highs = fsub Config.one (L.cos (kneeAngle highs)) := rfl

theorem kneeAngle_bounds {highs : F64} (h : isNaN highs = false) :
    fle Config.zero (kneeAngle highs) = true ∧ fle (kneeAngle highs) Config.halfPi = true := by
  have hpos : isFinite Config.halfPi = true ∧ signBit Config.halfPi = false ∧ isZero Config.halfPi = false := by decide
  obtain ⟨hfin, hsign, hnz⟩ := hpos
  have hfabs : isNaN (fabs highs) = false := by simpa using h
  have hnum := isNaN_fmul_of_pos hfabs hfin hsign hnz
  have hkey := orderKey_fmul_of_pos hfabs hfin hsign hnz
  simp only [signBit_fabs, Bool.false_eq_true, if_false] at hkey
  unfold kneeAngle
  split
  · decide
  · next hgt =>
    exact ⟨fle_zero_iff.2 ⟨hnum, by rw [hkey]; exact Int.natCast_nonneg _⟩,
      fle_of_not_fgt hnum (by decide) (Bool.eq_false_iff.2 hgt)⟩

theorem fabs_of_isZero {a : F64} (h : isZero a = true) : fabs a = Config.zero := by
  rw [fabs, magBits_of_isZero h]; rfl

theorem kneeAngle_of_isZero {highs : F64} (h : isZero highs = true) : kneeAngle highs = Config.zero := by
  rw [kneeAngle, fabs_of_isZero h]; decide +kernel

/-! ### The polarity of the knee (R151) -/

theorem applyKnee_of_pos {highs : F64} (y soft : F64) (h : fgt highs Config.zero = true) :
    applyKnee y highs soft = fsub y soft := by
  simp [applyKnee, h, flt_asymm h]

theorem applyKnee_of_neg {highs : F64} (y soft : F64) (h : flt highs Config.zero = true) :
    applyKnee y highs soft = fadd y soft := by
  simp [applyKnee, h, fgt, flt_asymm h]

/-- Highs on neither side of zero leave the sample as it is. -/
theorem applyKnee_of_neither {highs : F64} (y soft : F64) (hgt : fgt highs Config.zero = false)
    (hlt : flt highs Config.zero = false) : applyKnee y highs soft = y := by
  simp [applyKnee, hgt, hlt]

/-- ±0 and NaN lie on neither side of zero (R12). -/
theorem not_fgt_not_flt_zero {a : F64} (h : isZero a = true ∨ isNaN a = true) :
    fgt a Config.zero = false ∧ flt a Config.zero = false := by
  rcases h with hz | hn
  · have hkey : orderKey Config.zero = 0 := by decide
    simp [fgt, flt, orderKey_of_isZero hz, hkey]
  · exact ⟨flt_nan_right _ hn, flt_nan_left _ hn⟩

end Sys2Proof.Machine

open Sys2Proof Sys2Proof.Machine

/-- Settles O39: COS of an angle in [0, HALF_PI] is a fraction, and so is 1 less it; at ±0 the angle is zero and COS is 1. -/
theorem kneeAmountIsAFraction : Obligations.KneeAmountIsAFraction := by
  refine ⟨fun highs h => ?_, fun highs h => ?_⟩
  · obtain ⟨hlo, hhi⟩ := kneeAngle_bounds h
    obtain ⟨hcos0, hcos1⟩ := cosOf_bounds Config.freeCos hlo hhi
    rw [kneeAmount_eq]
    exact fsub_one_bounds hcos0 hcos1
  · have hcos : Transcendentals.configured.cos Config.zero = Config.one := cosOf_of_isZero Config.freeCos (by decide)
    rw [kneeAmount_eq, kneeAngle_of_isZero h, hcos]
    decide +kernel

/-- Settles O38: the three cases exclude each other, and the rule's example is its second case. -/
theorem kneeFollowsTheSignOfTheHighs : Obligations.KneeFollowsTheSignOfTheHighs := by
  refine ⟨fun y highs soft => ⟨applyKnee_of_pos y soft, applyKnee_of_neg y soft, fun h => ?_⟩, ?_⟩
  · obtain ⟨hgt, hlt⟩ := not_fgt_not_flt_zero h
    exact applyKnee_of_neither y soft hgt hlt
  · rw [applyKnee_of_neg _ _ (by decide)]
    decide +kernel

end

section
/-!
PROOFS. The saturator after the soft knee: what the spiral keeps (R163), the restraint of the head-bump accumulators (R164, R165),
and how a NaN accumulator reaches every output through the mix (R167, R238).
-/
namespace Sys2Proof.Machine

/-! ### The spiral (R163) -/

theorem roundMag_zero (d : Nat) : roundMag 0 d = 0 := by
  simp [roundMag, ulpExp, roundQuot]

theorem unitsMag_of_isZero {a : F64} (h : isZero a = true) : unitsMag a = 0 := by
  rw [unitsMag_eq_natAbs, units_of_isZero h, Int.natAbs_zero]

/-- A zero over a finite nonzero value is a zero with the exclusive or of the signs. -/
theorem fdiv_of_isZero_left {a b : F64} (ha : isZero a = true) (hb : isFinite b = true) (hz : isZero b = false) :
    fdiv a b = ofSignMag (signBit a != signBit b) 0 := by
  rw [fdiv_of_finite (isFinite_of_isZero ha) hb hz, unitsMag_of_isZero ha, Nat.zero_mul, roundMag_zero]

/-- The square of a finite value keeps the value's sign. -/
theorem signBit_fmul_fabs {y : F64} (h : isFinite y = true) : signBit (fmul y (fabs y)) = signBit y := by
  rw [fmul_of_finite h (by simpa using h), signBit_ofSignMag _ (roundMag_lt _ _), signBit_fabs, Bool.bne_false]

theorem isZero_fmul_fabs_of_isZero {y : F64} (h : isZero y = true) : isZero (fmul y (fabs y)) = true := by
  have hf := isFinite_of_isZero h
  rw [fmul_of_finite hf (by simpa using hf), unitsMag_of_isZero h, Nat.zero_mul, roundMag_zero]
  simp [isZero]

/-- The spiral's guarded divisor. -/
def spiralDivisor (y : F64) : F64 := if feq (fabs y) Config.zero then Config.one else fabs y

theorem spiral_eq (L : Transcendentals) (y : F64) : spiral L y = fdiv (L.sin (fmul y (fabs y))) (spiralDivisor y) := rfl

/-- The guard leaves a divisor that is finite and positive. -/
theorem spiralDivisor_pos {y : F64} (h : isFinite y = true) :
    isFinite (spiralDivisor y) = true ∧ isZero (spiralDivisor y) = false ∧ signBit (spiralDivisor y) = false := by
  unfold spiralDivisor
  split
  · decide
  · next hne =>
    have hkey : orderKey Config.zero = 0 := by decide
    rw [feq_iff (by simpa using isNaN_of_isFinite h) (by decide), orderKey_fabs, hkey] at hne
    exact ⟨by simpa using h, by simpa [isZero] using hne, signBit_fabs y⟩

/-- Where `y × |y|` is a zero SIN keeps it, and the quotient is the zero of y's sign. -/
theorem spiral_of_isZero_square {y : F64} (hf : isFinite y = true) (hz : isZero (fmul y (fabs y)) = true) :
    spiral Transcendentals.configured y = ofSignMag (signBit y) 0 := by
  have hsin : Transcendentals.configured.sin (fmul y (fabs y)) = fmul y (fabs y) := sinOf_of_isZero Config.freeSin hz
  obtain ⟨hdf, hdz, hds⟩ := spiralDivisor_pos hf
  rw [spiral_eq, hsin, fdiv_of_isZero_left hz hdf hdz, hds, Bool.bne_false, signBit_fmul_fabs hf]

theorem spiral_of_isZero {y : F64} (h : isZero y = true) : spiral Transcendentals.configured y = y := by
  rw [spiral_of_isZero_square (isFinite_of_isZero h) (isZero_fmul_fabs_of_isZero h), ← magBits_of_isZero h, ← eq_ofSignMag]

theorem isNaN_spiral {y : F64} (h : isNaN y = true) : isNaN (spiral Transcendentals.configured y) = true :=
  isNaN_fdiv_left _ (isNaN_sinOf _ (isNaN_fmul_left _ h))

/-! ### The sign of a sum (R8) -/

theorem orderKey_fneg (a : F64) : orderKey (fneg a) = -orderKey a := by
  unfold orderKey
  rw [signBit_fneg, magBits_fneg]
  cases signBit a <;> simp

/-- An infinite first operand carries over when the second is finite. -/
theorem fadd_of_inf_left {a b : F64} (ha : isInf a = true) (hb : isFinite b = true) : fadd a b = a := by
  simp [fadd, isNaN_of_isInf ha, isNaN_of_isFinite hb, isInf_of_isFinite hb, ha]

/-- Subtracting a finite value is adding its negation. -/
theorem fsub_eq_fadd_fneg {a b : F64} (ha : isNaN a = false) (hb : isFinite b = true) : fsub a b = fadd a (fneg b) := by
  simp [fsub, ha, isNaN_of_isFinite hb, isInf_of_isFinite hb]

/-- A sum with a finite value is a number, and has the sign of the operand of larger magnitude unless it is zero. -/
theorem orderKey_fadd_sign {a b : F64} (ha : isNaN a = false) (hb : isFinite b = true) :
    isNaN (fadd a b) = false ∧ (0 ≤ orderKey a + orderKey b → 0 ≤ orderKey (fadd a b)) ∧
      (orderKey a + orderKey b ≤ 0 → orderKey (fadd a b) ≤ 0) := by
  cases hi : isInf a with
  | true =>
    have hlt : magBits b < infMag := by simpa [isFinite] using hb
    have := natAbs_orderKey a
    have := natAbs_orderKey b
    have := magBits_of_isInf hi
    rw [fadd_of_inf_left hi hb]
    exact ⟨ha, by omega, by omega⟩
  | false =>
    have hnonneg : 0 ≤ orderKey a + orderKey b ↔ 0 ≤ units a + units b := by
      have := orderKey_le_iff (a := fneg b) (b := a)
      rw [orderKey_fneg, units_fneg] at this
      omega
    have hnonpos : orderKey a + orderKey b ≤ 0 ↔ units a + units b ≤ 0 := by
      have := orderKey_le_iff (a := a) (b := fneg b)
      rw [orderKey_fneg, units_fneg] at this
      omega
    rw [fadd_of_finite (isFinite_of_not ha hi) hb, orderKey_roundUnits, hnonneg, hnonpos]
    refine ⟨isNaN_roundUnits _ _, fun h => ?_, fun h => ?_⟩
    · rw [if_neg (by omega)]; omega
    · split
      · omega
      · rw [show units a + units b = 0 by omega, Int.natAbs_zero, roundMag_zero]; rfl

/-! ### The restraint (R164, R165) -/

/-- Only numbers are ordered. -/
theorem isNaN_of_flt {a b : F64} (h : flt a b = true) : isNaN a = false ∧ isNaN b = false := by
  simp only [flt, Bool.and_eq_true, Bool.not_eq_true'] at h
  exact h.1

theorem isFinite_of_orderKey_lt {a : F64} (h0 : 0 ≤ orderKey a) (h : orderKey a < infMag) : isFinite a = true := by
  have := natAbs_orderKey a
  simp only [isFinite, decide_eq_true_eq]
  omega

section
variable {suppress hb : F64}

/-- An accumulator on neither side is left as it is. -/
theorem restrain_of_neither (hgt : fgt hb suppress = false) (hlt : flt hb (fneg suppress) = false) :
    restrain suppress hb = hb := by
  simp [restrain, hgt, hlt]

/-- Above suppress the accumulator loses suppress and stays on its side of zero, so the second test does not take it up again. -/
theorem restrain_of_above (h0 : fle Config.zero suppress = true) (hgt : fgt hb suppress = true) :
    restrain suppress hb = fsub hb suppress ∧ fle Config.zero (restrain suppress hb) = true := by
  obtain ⟨hs, hnonneg⟩ := fle_zero_iff.1 h0
  obtain ⟨-, hn⟩ := isNaN_of_flt hgt
  have hlt := (flt_iff hs hn).1 hgt
  have hfin := isFinite_of_orderKey_lt hnonneg (hlt.trans_le (orderKey_le_infMag hn).2)
  have hsub : isNaN (fsub hb suppress) = false ∧ 0 ≤ orderKey (fsub hb suppress) := by
    obtain ⟨hnum, hsign, -⟩ := orderKey_fadd_sign hn (b := fneg suppress) (by simpa using hfin)
    rw [orderKey_fneg] at hsign
    rw [fsub_eq_fadd_fneg hn hfin]
    exact ⟨hnum, hsign (by omega)⟩
  have hstop : flt (fsub hb suppress) (fneg suppress) = false := by
    rw [Bool.eq_false_iff, Ne, flt_iff hsub.1 (by simpa using hs), orderKey_fneg]
    omega
  have heq : restrain suppress hb = fsub hb suppress := by simp [restrain, hgt, hstop]
  exact ⟨heq, heq ▸ fle_zero_iff.2 hsub⟩

/-- Below −suppress it gains suppress and stays on its side of zero; the first test has left it alone. -/
theorem restrain_of_below (h0 : fle Config.zero suppress = true) (hlt : flt hb (fneg suppress) = true) :
    restrain suppress hb = fadd hb suppress ∧ fle (restrain suppress hb) Config.zero = true := by
  obtain ⟨hs, hnonneg⟩ := fle_zero_iff.1 h0
  obtain ⟨hn, hsneg⟩ := isNaN_of_flt hlt
  have hbelow := (flt_iff hn hsneg).1 hlt
  rw [orderKey_fneg] at hbelow
  have hlow := (orderKey_le_infMag hn).1
  have hfin := isFinite_of_orderKey_lt hnonneg (by omega)
  obtain ⟨hnum, -, hsign⟩ := orderKey_fadd_sign hn hfin
  have hskip : fgt hb suppress = false := by
    rw [fgt, Bool.eq_false_iff, Ne, flt_iff hs hn]
    omega
  have heq : restrain suppress hb = fadd hb suppress := by simp [restrain, hskip, hlt]
  rw [heq]
  exact ⟨rfl, (fle_iff hnum (by decide)).2 (hsign (by omega))⟩

end

theorem isNaN_suppressOf {y : F64} (h : isNaN y = true) : isNaN (suppressOf y) = true :=
  isNaN_fmul_left _ (isNaN_fsub_right _ (by simpa using h))

/-! ### A NaN accumulator through one PROC (R167, R238) -/

theorem isNaN_headBumpDrive {hb : F64} (x hbf : F64) (h : isNaN hb = true) :
    isNaN (headBumpDrive Transcendentals.configured hb x hbf) = true :=
  isNaN_sinOf Config.freeSin (isNaN_fsub_left _ (isNaN_fadd_left _ h))

theorem isNaN_bqtick {v : F64} (c : Coefs) (h : History) (hv : isNaN v = true) : isNaN (bqtick v c h).1 = true :=
  isNaN_fadd_left _ (isNaN_fmul_left _ hv)

theorem isNaN_clampedAsin {t : F64} (h : isNaN t = true) : isNaN (clampedAsin Transcendentals.configured t) = true := by
  rw [clampedAsin, clamp_nan _ _ h]
  exact isNaN_asinOf Config.freeAsin h

/-- The filter bank carries a NaN accumulator of the active path through the head bump, and leaves the other's (R132, R133). -/
theorem isNaN_filterBank_hb {st : ProcessorState} {q : BitVec 1} (sr x : F64) (h : isNaN (pathOf st q).hb = true) :
    isNaN (pathOf (filterBank ProcConfig.hardware sr x st).st q).hb = true := by
  by_cases hq : q = st.pathSel
  · subst hq
    rw [filterBank_active]
    exact isNaN_clampedAsin (isNaN_bqtick _ _ (isNaN_headBumpDrive _ _ h))
  · rwa [filterBank_other _ _ _ _ hq]

/-- The mix adds both accumulators (R167). -/
theorem isNaN_addBacks {st : ProcessorState} {q : BitVec 1} (y ground : F64) (h : isNaN (pathOf st q).hb = true) :
    isNaN (addBacks y ground st) = true := by
  apply isNaN_fadd_right
  apply isNaN_fmul_left
  rcases bit_eq_zero_or_one q with rfl | rfl
  · exact isNaN_fadd_left _ h
  · exact isNaN_fadd_right _ h

/-- A NaN sample passes the limiter's comparisons (R182, R183). -/
theorem hysteresis_nan (l : F64) {y : F64} (h : isNaN y = true) : hysteresis l y = y := by
  simp [hysteresis, upperCeiling, lowerCeiling, fgt, flt_nan_left _ h, flt_nan_right _ h]

/-- After the limiter every stage computes with the sample (R185, R193, R110). -/
theorem isNaN_outputRestore_dithered (cfg : ProcConfig) (s : Word32) {y : F64} (h : isNaN y = true) :
    isNaN (outputRestore (dithered cfg s (safetyClamp y))) = true := by
  rw [safetyClamp, clamp_nan _ _ h]
  exact isNaN_fmul_left _ (isNaN_fadd_left _ h)

/-- PROC's output is a NaN if the limiter's input is. -/
theorem isNaN_process_out {cfg : ProcConfig} {st : ProcessorState} {o : ProcOperands} {x y : F64} {b : BankResult}
    (hx : frontEnd cfg st.dither o = x) (hb : filterBank cfg o.rate x st = b)
    (hy : saturated cfg (inputGain cfg.lib o.control) b = y)
    (h : isNaN (addBacks y (groundOf x b.y) (restrainHeadBump y b.st)) = true) : isNaN (process cfg st o).out = true := by
  rw [process_eq_of_stages hx hb hy rfl, hysteresis_nan _ h]
  exact isNaN_outputRestore_dithered _ _ h

/-- One PROC with a NaN accumulator, on either path. -/
theorem process_of_nan_hb {st : ProcessorState} {q : BitVec 1} (o : ProcOperands) (h : isNaN (pathOf st q).hb = true) :
    isNaN (process ProcConfig.hardware st o).out = true ∧
      isNaN (pathOf (process ProcConfig.hardware st o).st q).hb = true := by
  have hbank := isNaN_filterBank_hb o.rate (frontEnd ProcConfig.hardware st.dither o) h
  refine ⟨isNaN_process_out rfl rfl rfl (isNaN_addBacks (q := q) _ _ ?_), ?_⟩
  · rwa [pathOf_restrainHeadBump, restrain_nan _ hbank]
  · rwa [pathOf_process, restrain_nan _ hbank]

end Sys2Proof.Machine

open Sys2Proof Sys2Proof.Machine

/-- Settles O40: where y × |y| is a zero, which it is for ±0, the spiral is the zero of y's sign. -/
theorem spiralKeepsZerosAndNaN : Obligations.SpiralKeepsZerosAndNaN := by
  refine ⟨fun y => spiral_of_isZero, fun y => isNaN_spiral, fun y hf hz => ?_⟩
  rw [spiral_of_isZero_square hf hz]
  simp [isZero]

/-- Settles O41: the two tests exclude each other, and what is taken off an accumulator is less than its magnitude. -/
theorem restraintNeverCrossesZero : Obligations.RestraintNeverCrossesZero :=
  ⟨fun _ _ h0 => ⟨restrain_of_above h0, restrain_of_below h0, restrain_of_neither⟩, fun _ => restrain_nan_suppress,
    fun _ => isNaN_suppressOf⟩

/-- Settles O33: the accumulator stays NaN through the filter bank and the restraint, and the mix adds it to the sample. -/
theorem nanHeadBumpPoisonsEveryOutput : Obligations.NaNHeadBumpPoisonsEveryOutput :=
  fun _ _ h => ⟨_, _, rfl, procCommand_responses _ _, process_of_nan_hb _ h⟩

end

section
/-!
PROOFS. The limiter (R180 to R186): the blend of its four steps rises with its second operand, so every branch ends within ±LIMIT;
each step of the block keeps LAST_OUT there (R184); and with the bound on the noise of R192 so is the output bounded (C7).
-/
namespace Sys2Proof.Machine

/-! ### The blend of R180 to R183 -/

theorem fle_trans {a b c : F64} (hab : fle a b = true) (hbc : fle b c = true) : fle a c = true := by
  obtain ⟨ha, hb⟩ := isNaN_of_fle hab
  obtain ⟨-, hc⟩ := isNaN_of_fle hbc
  rw [fle_iff ha hb] at hab
  rw [fle_iff hb hc] at hbc
  exact (fle_iff ha hc).2 (hab.trans hbc)

theorem fle_of_flt {a b : F64} (h : flt a b = true) : fle a b = true := by
  obtain ⟨ha, hb⟩ := isNaN_of_flt h
  exact (fle_iff ha hb).2 ((flt_iff ha hb).1 h).le

/-- The blend rises with its second operand: `1 − S` is a positive number, and `a × S` is finite for both limits. -/
theorem fle_blend {a b c : F64} (ha : isFinite (fmul a Config.softness) = true) (h : fle b c = true) :
    fle (blend a b) (blend a c) = true := by
  have hweight : isFinite (fsub Config.one Config.softness) = true ∧ signBit (fsub Config.one Config.softness) = false ∧
      isZero (fsub Config.one Config.softness) = false := by decide +kernel
  obtain ⟨hfin, hsign, hnz⟩ := hweight
  obtain ⟨hb, hc⟩ := isNaN_of_fle h
  have hb' := isNaN_fmul_of_pos hb hfin hsign hnz
  have hc' := isNaN_fmul_of_pos hc hfin hsign hnz
  have hmul := orderKey_fmul_mono hb hc hfin hsign hnz ((fle_iff hb hc).1 h)
  exact (fle_iff (isNaN_fadd_of_finite ha hb') (isNaN_fadd_of_finite ha hc')).2 (orderKey_fadd_mono ha hb' hc' hmul)

/-- LIMIT blended with itself is LIMIT. -/
theorem blend_limit_le {v : F64} (h : fle v Config.limit = true) : fle (blend Config.limit v) Config.limit = true := by
  have hself : blend Config.limit Config.limit = Config.limit := by decide +kernel
  have hle := fle_blend (a := Config.limit) (by decide +kernel) h
  rwa [hself] at hle

/-- And so is −LIMIT. -/
theorem le_blend_negLimit {v : F64} (h : fle negLimit v = true) : fle negLimit (blend negLimit v) = true := by
  have hself : blend negLimit negLimit = negLimit := by decide +kernel
  have hle := fle_blend (a := negLimit) (by decide +kernel) h
  rwa [hself] at hle

theorem blend_negLimit_le {v : F64} (h : fle v Config.limit = true) : fle (blend negLimit v) Config.limit = true :=
  fle_trans (fle_blend (by decide +kernel) h) (by decide +kernel)

/-! ### The look-back value (R180, R181) -/

/-- After R180 a number is at most LIMIT. -/
theorem upperRelease_le {l y : F64} (h : isNaN (upperRelease l y) = false) : fle (upperRelease l y) Config.limit = true := by
  by_cases hl : fge l Config.limit = true
  · rw [upperRelease, if_pos hl]
    split
    · next hy => exact blend_limit_le (fle_of_flt hy)
    · decide
  · have hkeep : upperRelease l y = l := if_neg hl
    rw [hkeep] at h ⊢
    rw [fge, fle_iff (by decide) h, not_le] at hl
    exact (fle_iff h (by decide)).2 hl.le

/-- So it is after R181 for a sample below −LIMIT, where R181 can only set −LIMIT. -/
theorem lookBack_le {l y : F64} (hy : flt y negLimit = true) (h : isNaN (lookBack l y) = false) :
    fle (lookBack l y) Config.limit = true := by
  have hlower : lookBack l y = if fle (upperRelease l y) negLimit then negLimit else upperRelease l y := by
    simp [lookBack, lowerRelease, fgt, flt_asymm hy]
  rw [hlower] at h ⊢
  split
  · decide +kernel
  · next hlow =>
    rw [if_neg hlow] at h
    exact upperRelease_le h

/-! ### The ceilings (R182, R183) -/

theorem upperCeiling_le (l : F64) {y : F64} (hy : isNaN y = false) : fle (upperCeiling l y) Config.limit = true := by
  unfold upperCeiling
  split
  · split
    · next hl => exact blend_limit_le (fle_of_flt hl)
    · decide
  · next hgt => exact fle_of_not_fgt hy (by decide) (Bool.eq_false_iff.2 hgt)

theorem le_lowerCeiling (l : F64) {y : F64} (hy : isNaN y = false) : fle negLimit (lowerCeiling l y) = true := by
  unfold lowerCeiling
  split
  · split
    · next hl => exact le_blend_negLimit (fle_of_flt hl)
    · decide +kernel
  · next hlt => exact fle_of_not_fgt (by decide +kernel) hy (Bool.eq_false_iff.2 hlt)

/-- R183 stays at most LIMIT where the look-back value it blends in is. -/
theorem lowerCeiling_le {l y : F64} (hy : fle y Config.limit = true)
    (hl : flt y negLimit = true → isNaN l = false → fle l Config.limit = true) :
    fle (lowerCeiling l y) Config.limit = true := by
  unfold lowerCeiling
  split
  · next hlt =>
    split
    · next hgt => exact blend_negLimit_le (hl hlt (isNaN_of_flt hgt).2)
    · decide +kernel
  · exact hy

/-- R183 acts after R182 for a sample below −LIMIT, or for a blend with a look-back value below LIMIT. -/
theorem lookBack_le_of_upperCeiling_lt {l y : F64} (h : flt (upperCeiling (lookBack l y) y) negLimit = true)
    (hn : isNaN (lookBack l y) = false) : fle (lookBack l y) Config.limit = true := by
  unfold upperCeiling at h
  split at h
  · split at h
    · next hl => exact fle_of_flt hl
    · have hlimit : flt Config.limit negLimit = false := by decide +kernel
      exact absurd h (by simp [hlimit])
  · exact lookBack_le h hn

/-- R186 (a). -/
theorem hysteresis_bounds (l : F64) {y : F64} (hy : isNaN y = false) :
    fle negLimit (hysteresis l y) = true ∧ fle (hysteresis l y) Config.limit = true := by
  have hupper := upperCeiling_le (lookBack l y) hy
  exact ⟨le_lowerCeiling _ (isNaN_of_fle hupper).1, lowerCeiling_le hupper lookBack_le_of_upperCeiling_lt⟩

/-! ### LAST_OUT (R184, R186) -/

theorem boundedOrNaN_iff {y : F64} :
    boundedOrNaN y = true ↔ isNaN y = true ∨ fle negLimit y = true ∧ fle y Config.limit = true := by
  simp [boundedOrNaN]

/-- What the limiter stores, whatever it receives. -/
theorem boundedOrNaN_hysteresis (l y : F64) : boundedOrNaN (hysteresis l y) = true := by
  rw [boundedOrNaN_iff]
  cases hy : isNaN y with
  | true => exact .inl (by rwa [hysteresis_nan l hy])
  | false => exact .inr (hysteresis_bounds l hy)

theorem boundedOrNaN_resetRegisters (s : State) : boundedOrNaN (resetRegisters s).core.lastOut = true := by
  rw [resetRegisters_core]
  decide +kernel

/-- A command keeps LAST_OUT in range, unless it is a WRST that writes it out of range. -/
theorem exec_keeps_boundedOrNaN {i : Instr} {s t : State} (h : exec i s = .next t) (hs : boundedOrNaN s.core.lastOut = true)
    (hw : i = .wrst .lastOut → boundedOrNaN s.ports.dinWdata = true) : boundedOrNaN t.core.lastOut = true := by
  rcases exec_cases h with ⟨-, rfl⟩ | ⟨-, rfl⟩ | ⟨-, rfl⟩ | ⟨r, -, rfl⟩ | ⟨r, hi, rfl⟩
  case inr.inl => exact boundedOrNaN_hysteresis _ _
  case inr.inr.inl => exact boundedOrNaN_resetRegisters s
  case inr.inr.inr.inr =>
    rw [stateWrite_lastOut]
    split
    · next hr => exact hw (hr ▸ hi)
    · exact hs
  all_goals exact hs

/-- What `keepsLastOut` asks of a command that is executed. -/
theorem boundedOrNaN_of_keepsLastOut {p : Ports} (h : keepsLastOut p = true) (hr : p.rst = false)
    (hd : decode p.cmd = .ok (.wrst .lastOut)) : boundedOrNaN p.dinWdata = true := by
  have hcmd : p.cmd = encode (.wrst .lastOut) := (decode_eq_ok_iff.1 hd).symm
  simpa [keepsLastOut, hr, hcmd] using h

/-! ### Magnitudes (R8) -/

theorem isFinite_of_magBits_le {a b : F64} (hb : isFinite b = true) (h : magBits a ≤ magBits b) : isFinite a = true := by
  simp only [isFinite, decide_eq_true_eq] at *
  omega

theorem magBits_roundUnits (z : Bool) (u : Int) : magBits (roundUnits z u) = roundMag u.natAbs 1 := by
  rw [← natAbs_orderKey, orderKey_roundUnits]
  split <;> omega

/-- A sum is largest in magnitude for operands of one sign and largest magnitude. -/
theorem magBits_fadd_le {a b c d : F64} (hc : isFinite c = true) (hd : isFinite d = true) (sc : signBit c = false)
    (sd : signBit d = false) (hac : magBits a ≤ magBits c) (hbd : magBits b ≤ magBits d) :
    magBits (fadd a b) ≤ magBits (fadd c d) := by
  have huac := unitsMag_le hac
  have hubd := unitsMag_le hbd
  have huc : units c = unitsMag c := by simp [units, sc]
  have hud : units d = unitsMag d := by simp [units, sd]
  rw [fadd_of_finite (isFinite_of_magBits_le hc hac) (isFinite_of_magBits_le hd hbd), fadd_of_finite hc hd,
    magBits_roundUnits, magBits_roundUnits, huc, hud]
  apply roundMag_mono one_pos one_pos
  rw [unitsMag_eq_natAbs a] at huac
  rw [unitsMag_eq_natAbs b] at hubd
  omega

/-- A product is largest in magnitude for factors of largest magnitude. -/
theorem magBits_fmul_le {a b c d : F64} (hc : isFinite c = true) (hd : isFinite d = true)
    (hac : magBits a ≤ magBits c) (hbd : magBits b ≤ magBits d) : magBits (fmul a b) ≤ magBits (fmul c d) := by
  rw [fmul_of_finite (isFinite_of_magBits_le hc hac) (isFinite_of_magBits_le hd hbd), fmul_of_finite hc hd,
    magBits_ofSignMag _ (roundMag_lt _ _), magBits_ofSignMag _ (roundMag_lt _ _)]
  exact roundMag_mono (Nat.two_pow_pos 1074) (Nat.two_pow_pos 1074)
    (Nat.mul_le_mul_right _ (Nat.mul_le_mul (unitsMag_le hac) (unitsMag_le hbd)))

/-! ### The noise (R190, R192) -/

/-- The generator's value less 0x7fffffff is at most 2³¹ in magnitude. -/
theorem magBits_toF64_sub_offset_le (s : Word32) :
    magBits (fsub (toF64 s) Config.ditherOffset) ≤ magBits (0x41E0000000000000 : F64) := by
  have htop : magBits (0x41E0000000000000 : F64) = roundMag (2 ^ 31 * 2 ^ 1074) 1 := by decide +kernel
  have hoffset : units Config.ditherOffset = (2 ^ 31 - 1) * 2 ^ 1074 := by decide +kernel
  obtain ⟨hfin, hunits⟩ := toF64_exact s
  rw [fsub_of_finite hfin (by decide), magBits_roundUnits, htop, hunits, hoffset, ← sub_mul, natAbs_mul_two_pow]
  apply roundMag_mono one_pos one_pos
  rw [Nat.mul_one, Nat.mul_one]
  apply Nat.mul_le_mul_right
  have := s.isLt
  omega

/-- POW(2, e + 62) is at most 2⁶², for every exponent FREXP_EXP gives of a number below 1. -/
theorem magBits_powTwo_le {e : Int} (hlo : -1073 ≤ e) (hhi : e ≤ 0) :
    magBits (powTwo (e + Config.ditherExpBias)) ≤ magBits (powTwo 62) := by
  have hbias : Config.ditherExpBias = 62 := rfl
  obtain ⟨-, hunits⟩ := powTwo_exact (n := e + Config.ditherExpBias) (by omega) (by omega)
  obtain ⟨-, htop⟩ := powTwo_exact (n := 62) (by norm_num) (by norm_num)
  by_contra hlt
  have hmag := unitsMag_lt (not_le.1 hlt)
  rw [unitsMag_eq_natAbs, unitsMag_eq_natAbs, hunits, htop, Int.natAbs_pow, Int.natAbs_pow] at hmag
  have hexp := (Nat.pow_lt_pow_iff_right (by norm_num)).1 hmag
  omega

/-- The noise is at most 1.0893872345711347e-16 in magnitude (R192). -/
theorem magBits_noiseOf_le (s : Word32) {e : Int} (hlo : -1073 ≤ e) (hhi : e ≤ 0) :
    magBits (noiseOf Transcendentals.configured s e) ≤ magBits (0x3C9F66424E2C32BF : F64) := by
  have hpow : Transcendentals.configured.pow Config.two (ofInt (e + Config.ditherExpBias)) = _ :=
    powOf_two_ofInt Config.freePow (by rw [Config.ditherExpBias]; omega)
  have htop : fmul (fmul 0x41E0000000000000 Config.ditherK) (powTwo 62) = 0x3C9F66424E2C32BF := by decide +kernel
  rw [noiseOf, hpow, ← htop]
  exact magBits_fmul_le (by decide +kernel) (by decide +kernel)
    (magBits_fmul_le (by decide) (by decide) (magBits_toF64_sub_offset_le s) le_rfl) (magBits_powTwo_le hlo hhi)

/-! ### The output (C7) -/

theorem magBits_le_limit {y : F64} (hlo : fle negLimit y = true) (hhi : fle y Config.limit = true) :
    magBits y ≤ magBits Config.limit := by
  obtain ⟨hn, hlimit⟩ := isNaN_of_fle hhi
  have hneg : orderKey negLimit = -(magBits Config.limit : Int) := by decide +kernel
  have hpos : orderKey Config.limit = magBits Config.limit := by decide
  rw [fle_iff (by decide +kernel) hn, hneg] at hlo
  rw [fle_iff hn hlimit, hpos] at hhi
  have := natAbs_orderKey y
  omega

/-- FREXP_EXP of a number within ±LIMIT (R190). -/
theorem frexpExp_of_le_limit {y : F64} (h : magBits y ≤ magBits Config.limit) :
    -1073 ≤ frexpExp y ∧ frexpExp y ≤ 0 := by
  cases hz : isZero y with
  | true =>
    rw [frexpExp_of_special (.inl hz)]
    norm_num
  | false =>
    obtain ⟨hlo, hbinade, -⟩ := frexpExp_binade (isFinite_of_magBits_le (by decide) h) hz
    have hlimit : unitsMag Config.limit < 2 ^ 1074 := by decide +kernel
    have hlt := (Nat.pow_lt_pow_iff_right (by norm_num)).1 (hbinade.trans_lt ((unitsMag_le h).trans_lt hlimit))
    exact ⟨hlo, by omega⟩

/-- The dither takes a sample within ±LIMIT at most one unit in the last place beyond, and the restore multiplies by 2¹⁶. -/
theorem magBits_output_le (s : Word32) {y : F64} (h : magBits y ≤ magBits Config.limit) :
    magBits (outputRestore (dithered ProcConfig.hardware s y)) ≤ magBits (0x40EFAE147AE147AF : F64) := by
  have htop : fmul (fadd Config.limit 0x3C9F66424E2C32BF) Config.gainBoost = 0x40EFAE147AE147AF := by decide +kernel
  obtain ⟨hlo, hhi⟩ := frexpExp_of_le_limit h
  rw [← htop]
  exact magBits_fmul_le (by decide +kernel) (by decide)
    (magBits_fadd_le (by decide) (by decide) (by decide) (by decide) h (magBits_noiseOf_le s hlo hhi)) le_rfl

/-- What PROC answers, by the two things LAST_OUT can be. -/
theorem output_of_boundedOrNaN (s : Word32) {y : F64} (h : boundedOrNaN y = true) :
    isNaN (outputRestore (dithered ProcConfig.hardware s (safetyClamp y))) = true ∨
      fle (fabs (outputRestore (dithered ProcConfig.hardware s (safetyClamp y)))) 0x40EFAE147AE147AF = true := by
  rcases boundedOrNaN_iff.1 h with hn | ⟨hlo, hhi⟩
  · exact .inl (isNaN_outputRestore_dithered _ s hn)
  · right
    have htop : orderKey (0x40EFAE147AE147AF : F64) = magBits (0x40EFAE147AE147AF : F64) := by decide
    have hle := magBits_output_le s (magBits_le_limit hlo hhi)
    rw [safetyClamp, clamp_eq_self hlo hhi,
      fle_iff (by simpa using isNaN_of_isFinite (isFinite_of_magBits_le (by decide) hle)) (by decide), orderKey_fabs, htop]
    exact_mod_cast hle

end Sys2Proof.Machine

open Sys2Proof Sys2Proof.Machine

/-- Settles O14: PROC stores what the limiter gives, reset stores 0, a WRST of LAST_OUT meets `keepsLastOut`, and nothing else
writes the register. -/
theorem lastOutStaysBounded : Obligations.LastOutStaysBounded := by
  intro s t hs h
  obtain ⟨hlast, hall⟩ : boundedOrNaN s.core.lastOut = true ∧ ∀ p ∈ s.pending, keepsLastOut p = true := by
    simpa [lastOutBounded] using hs
  have hpending : t.pending = s.pending.tail := (stepTakesTheOldestCommand s t h).1
  have hrest : ∀ p ∈ t.pending, keepsLastOut p = true := fun p hp => hall p (List.mem_of_mem_tail (hpending ▸ hp))
  suffices hcore : boundedOrNaN t.core.lastOut = true by simpa [lastOutBounded, hcore] using hrest
  rcases step_cases h with ⟨-, rfl⟩ | ⟨p, rest, hp, ⟨-, rfl⟩ | ⟨-, -, rfl⟩ | ⟨hr, i, hd, hexec⟩⟩
  · exact hlast
  · exact boundedOrNaN_resetRegisters _
  · exact hlast
  · refine exec_keeps_boundedOrNaN hexec hlast ?_
    rintro rfl
    exact boundedOrNaN_of_keepsLastOut (hall p (by simp [hp])) hr hd

/-- Settles O42: what lies in [−LIMIT, LIMIT] is a fixed point of the clamp. -/
theorem limiterBoundsEverySample : Obligations.LimiterBoundsEverySample := by
  intro l y hy
  obtain ⟨hlo, hhi⟩ := hysteresis_bounds l hy
  exact ⟨hlo, hhi, clamp_eq_self hlo hhi⟩

/-- Settles O37: the output is made of what the limiter stores, which is a NaN or within ±LIMIT. -/
theorem outputIsBounded : Obligations.OutputIsBounded :=
  fun _ => ⟨_, _, rfl, procCommand_responses _ _, output_of_boundedOrNaN _ (boundedOrNaN_hysteresis _ _)⟩

/-- Settles O43: the chain is the model's steps written out, and each row of the table is evaluated. -/
theorem limiterFollowsTheBranchTable : Obligations.LimiterFollowsTheBranchTable := by
  refine ⟨fun L y => ⟨rfl, rfl⟩, ?rows⟩
  case rows => decide +kernel

end

section
/-!
PROOFS. The generator's map on 32-bit words (R191, R194): it is linear over exclusive or, has no kernel, and its states from 17
are one cycle through every nonzero word. The states at large indices are found by a second linear map, which takes the state
at index n to the state at 2n, so that an index of 32 binary digits costs 32 of its applications.
-/
namespace Sys2Proof.Machine

-- One theorem at a time, as in the tests: each kernel evaluation waits for the theorems before it, and keeps a stack meanwhile.
set_option Elab.async false

/-! ### Linear maps on 32-bit words -/

/-- The map sends an exclusive or to the exclusive or of the images. -/
def XorLinear (f : Word32 → Word32) : Prop := ∀ a b, f (a ^^^ b) = f a ^^^ f b

theorem XorLinear.map_zero {f : Word32 → Word32} (hf : XorLinear f) : f 0 = 0 := by
  simpa using hf 0 0

theorem XorLinear.comp {f g : Word32 → Word32} (hf : XorLinear f) (hg : XorLinear g) : XorLinear (f ∘ g) := fun a b => by
  simp only [Function.comp_apply, hg a b, hf (g a)]

/-- A linear map with no kernel is injective. -/
theorem XorLinear.injective {f : Word32 → Word32} (hf : XorLinear f) (hker : ∀ s, f s = 0 → s = 0) :
    Function.Injective f := fun a b h =>
  BitVec.xor_eq_zero_iff.1 (hker _ (by rw [hf, h, BitVec.xor_self]; rfl))

theorem xor_xor_xor_comm (a b c d : Word32) : (a ^^^ b) ^^^ (c ^^^ d) = (a ^^^ c) ^^^ (b ^^^ d) := by
  rw [BitVec.xor_assoc, BitVec.xor_assoc, ← BitVec.xor_assoc b, BitVec.xor_comm b, BitVec.xor_assoc c]

/-- The exclusive or of two linear maps is linear. -/
theorem XorLinear.xor {f g : Word32 → Word32} (hf : XorLinear f) (hg : XorLinear g) : XorLinear fun s => f s ^^^ g s :=
  fun a b => by simp only [hf a b, hg a b, xor_xor_xor_comm]

/-- The low `k + 1` bits of a word are the low `k` bits and bit `k`. -/
theorem setWidth_succ_eq_xor (s : Word32) (k : Nat) :
    (s.setWidth (k + 1)).setWidth 32 =
      (s.setWidth k).setWidth 32 ^^^ (if s.getLsbD k then BitVec.twoPow 32 k else 0) := by
  cases hs : s.getLsbD k with
  | false => simp [BitVec.setWidth_setWidth_succ_eq_setWidth_setWidth_of_getLsbD_false hs]
  | true =>
    rw [BitVec.setWidth_setWidth_succ_eq_setWidth_setWidth_or_twoPow_of_getLsbD_true hs, if_pos rfl]
    ext i hi
    rcases eq_or_ne i k with rfl | hne <;> simp [*]

/-- Linear maps that agree on the 32 single bits are equal. -/
theorem XorLinear.ext {f g : Word32 → Word32} (hf : XorLinear f) (hg : XorLinear g)
    (h : ∀ k < 32, f (BitVec.twoPow 32 k) = g (BitVec.twoPow 32 k)) (s : Word32) : f s = g s := by
  have hlow : ∀ k ≤ 32, f ((s.setWidth k).setWidth 32) = g ((s.setWidth k).setWidth 32) := by
    intro k hk
    induction k with
    | zero => rw [BitVec.eq_nil (s.setWidth 0)]; exact hf.map_zero.trans hg.map_zero.symm
    | succ k ih =>
      rw [setWidth_succ_eq_xor, hf, hg, ih (by omega)]
      split
      · rw [h k (by omega)]
      · rw [hf.map_zero, hg.map_zero]
  simpa using hlow 32 le_rfl

/-- The linear map whose value at bit `k` alone is the `k`-th column. -/
def ofColumns : List Word32 → Word32 → Word32
  | [], _ => 0
  | c :: cs, s => (if s.getLsbD 0 then c else 0) ^^^ ofColumns cs (s >>> 1)

theorem xorLinear_ofColumns (cs : List Word32) : XorLinear (ofColumns cs) := by
  induction cs with
  | nil => exact fun _ _ => (BitVec.xor_self (x := 0#32)).symm
  | cons c cs ih =>
    have hbit : XorLinear fun s => if s.getLsbD 0 then c else 0 := by
      intro a b
      simp only [BitVec.getLsbD_xor]
      cases a.getLsbD 0 <;> cases b.getLsbD 0 <;> simp
    have hshift : XorLinear fun s => s >>> 1 := fun a b => BitVec.ushiftRight_xor_distrib a b 1
    exact hbit.xor (ih.comp hshift)

/-! ### The generator is linear and has no kernel (R191, R194) -/

theorem xorLinear_shiftLeft (k : Nat) : XorLinear fun s => s ^^^ (s <<< k) :=
  XorLinear.xor (fun _ _ => rfl) fun a b => BitVec.shiftLeft_xor_distrib a b k

theorem xorLinear_ushiftRight (k : Nat) : XorLinear fun s => s ^^^ (s >>> k) :=
  XorLinear.xor (fun _ _ => rfl) fun a b => BitVec.ushiftRight_xor_distrib a b k

/-- The generator is its three stages, each linear. -/
theorem xorLinear_xorshift32 : XorLinear xorshift32 :=
  (xorLinear_shiftLeft 5).comp ((xorLinear_ushiftRight 17).comp (xorLinear_shiftLeft 13))

/-- A word that a shift leaves as it is, is left as it is by the shift over all 32 places. -/
theorem eq_zero_of_eq_shift {shift : Word32 → Nat → Word32} (hadd : ∀ s m n, shift s (m + n) = shift (shift s m) n)
    (hout : ∀ s n, 32 ≤ n → shift s n = 0) {s : Word32} {k : Nat} (hk : 0 < k) (h : s = shift s k) : s = 0 := by
  have hn : ∀ n, s = shift s ((n + 1) * k) := by
    intro n
    induction n with
    | zero => simpa using h
    | succ n ih => rw [Nat.succ_mul, hadd, ← ih, ← h]
  rw [hn 31, hout s _ (Nat.le_mul_of_pos_right 32 hk)]

theorem eq_zero_of_eq_shiftLeft {s : Word32} {k : Nat} (hk : 0 < k) (h : s = s <<< k) : s = 0 :=
  eq_zero_of_eq_shift (fun s m n => BitVec.shiftLeft_add s m n) (fun _ _ hn => BitVec.shiftLeft_eq_zero hn) hk h

theorem eq_zero_of_eq_ushiftRight {s : Word32} {k : Nat} (hk : 0 < k) (h : s = s >>> k) : s = 0 :=
  eq_zero_of_eq_shift (fun s m n => BitVec.shiftRight_add s m n) (fun _ _ hn => BitVec.ushiftRight_eq_zero hn) hk h

/-- Each of the three stages maps only 0 to 0. -/
theorem eq_zero_of_xorshift32_eq_zero {s : Word32} (h : xorshift32 s = 0) : s = 0 := by
  have h1 := eq_zero_of_eq_shiftLeft (by norm_num) (BitVec.xor_eq_zero_iff.1 h)
  have h2 := eq_zero_of_eq_ushiftRight (by norm_num) (BitVec.xor_eq_zero_iff.1 h1)
  exact eq_zero_of_eq_shiftLeft (by norm_num) (BitVec.xor_eq_zero_iff.1 h2)

theorem xorshift32_zero : xorshift32 0 = 0 := by decide

theorem xorshift32_injective : Function.Injective xorshift32 :=
  xorLinear_xorshift32.injective fun _ => eq_zero_of_xorshift32_eq_zero

/-! ### The generator's states from 17, by index -/

/-- The linear map that takes the generator's state at index n to its state at 2n, counted from 17: with a state written as
p(T) 17, for T the generator and p a polynomial, it is p(T²) 17. `doubleIndex_iterate` says so. -/
def doubleIndex : Word32 → Word32 :=
  ofColumns [
    0x45991B01, 0xFFBE664D, 0x7CF02683, 0x47CC529F, 0x45991B10, 0x5F90F570, 0x92592B54, 0xE89535FB,
    0xE461BF23, 0xB1EEFA61, 0x45C540B4, 0x5F3D6B7C, 0xEF429574, 0x27A71B5B, 0x97552468, 0xE1E63452,
    0x4E5804B5, 0x985FE788, 0xA0F267E6, 0x164958F2, 0xCA92AE21, 0x8DBC4D6E, 0xAFF13816, 0x401ADD66,
    0x2F2FDF5F, 0xB05406BC, 0xB9039B13, 0xB3AA6EA7, 0xD2137658, 0xF9461623, 0x4037F1F4, 0xF1E98014]

/-- One step before doubling the index is two steps after it. -/
theorem doubleIndex_semiconj : Function.Semiconj doubleIndex xorshift32 xorshift32^[2] := by
  have hd : XorLinear doubleIndex := xorLinear_ofColumns _
  have hx := xorLinear_xorshift32
  exact (hd.comp hx).ext ((hx.comp hx).comp hd) (by decide +kernel)

theorem doubleIndex_iterate (n : Nat) : doubleIndex (xorshift32^[n] 17) = xorshift32^[2 * n] 17 := by
  have h17 : doubleIndex 17 = 17 := by decide
  rw [(doubleIndex_semiconj.iterate_right n).eq, h17, Function.iterate_mul]

/-- The generator's n-th state from 17, one binary digit of n at a time. -/
def cycleState : Nat → Nat → Word32
  | 0, _ => 17
  | fuel + 1, n => xorshift32^[n % 2] (doubleIndex (cycleState fuel (n / 2)))

theorem cycleState_eq {fuel n : Nat} (h : n < 2 ^ fuel) : cycleState fuel n = xorshift32^[n] 17 := by
  induction fuel generalizing n with
  | zero =>
    obtain rfl : n = 0 := by omega
    rfl
  | succ fuel ih =>
    rw [cycleState, ih (by omega), doubleIndex_iterate, ← Function.iterate_add_apply, Nat.mod_add_div]

/-! ### The period (R194 (b)) -/

/-- A point of period n that has no quotient of n by a prime as a period has the minimal period n. -/
theorem minimalPeriod_eq_of_prime_quotients {α : Type} {f : α → α} {x : α} {n : Nat}
    (hper : Function.IsPeriodicPt f n x) (hq : ∀ p, p.Prime → p ∣ n → ¬ Function.IsPeriodicPt f (n / p) x) :
    Function.minimalPeriod f x = n := by
  obtain ⟨k, hk⟩ := hper.minimalPeriod_dvd
  suffices h1 : k = 1 by rw [hk, h1, Nat.mul_one]
  by_contra hne
  obtain ⟨p, hp, m, rfl⟩ := Nat.exists_prime_and_dvd hne
  have hn' : n = p * (Function.minimalPeriod f x * m) := hk.trans (Nat.mul_left_comm _ _ _)
  refine hq p hp ⟨_, hn'⟩ ?_
  rw [Nat.div_eq_of_eq_mul_right hp.pos hn']
  exact (Function.isPeriodicPt_minimalPeriod f x).mul_const m

/-- The primes of 2³² − 1 are the five Fermat primes. -/
theorem prime_dvd_period {p : Nat} (hp : p.Prime) (h : p ∣ 2 ^ 32 - 1) : p ∈ [3, 5, 17, 257, 65537] := by
  rw [show 2 ^ 32 - 1 = 3 * 5 * 17 * 257 * 65537 by norm_num] at h
  simp only [hp.dvd_mul] at h
  have heq {q : Nat} (hq : q.Prime) (hdvd : p ∣ q) : p = q := (Nat.prime_dvd_prime_iff_eq hp hq).1 hdvd
  rcases h with (((h | h) | h) | h) | h <;> simp [heq (by norm_num) h]

/-- Index 2³² − 1 is 17 again, and its quotients by the five primes are not. -/
theorem cycleState_period : cycleState 32 (2 ^ 32 - 1) = 17 ∧
    ∀ p ∈ [3, 5, 17, 257, 65537], cycleState 32 ((2 ^ 32 - 1) / p) ≠ 17 := by decide +kernel

theorem minimalPeriod_xorshift32 : Function.minimalPeriod xorshift32 17 = 2 ^ 32 - 1 := by
  obtain ⟨hall, hquot⟩ := cycleState_period
  refine minimalPeriod_eq_of_prime_quotients ((cycleState_eq (by norm_num)).symm.trans hall) ?_
  intro p hp hdvd hper
  have hlt : (2 ^ 32 - 1) / p < 2 ^ 32 := (Nat.div_le_self _ p).trans_lt (by norm_num)
  exact hquot p (prime_dvd_period hp hdvd) ((cycleState_eq hlt).trans hper)

/-! ### The cycle and the fixed point (R194 (a), (b)) -/

theorem xorshift32_iterate_ne_zero (n : Nat) : xorshift32^[n] 17 ≠ 0 := by
  rw [← Function.iterate_fixed xorshift32_zero n]
  exact (xorshift32_injective.iterate n).ne (by decide)

/-- The cycle of 17 has as many states as there are nonzero words, so it is all of them. -/
theorem exists_iterate_eq {s : Word32} (hs : s ≠ 0) : ∃ n, xorshift32^[n] 17 = s := by
  have hsub : (xorshift32^[·] 17) '' Set.Iio (2 ^ 32 - 1) ⊆ {0}ᶜ := by
    rintro _ ⟨n, -, rfl⟩
    exact xorshift32_iterate_ne_zero n
  have hcycle : ((xorshift32^[·] 17) '' Set.Iio (2 ^ 32 - 1)).ncard = 2 ^ 32 - 1 := by
    rw [← minimalPeriod_xorshift32, Function.iterate_injOn_Iio_minimalPeriod.ncard_image, Set.ncard_Iio_nat]
  have hnonzero : ({0}ᶜ : Set Word32).ncard = 2 ^ 32 - 1 := by
    rw [Set.ncard_compl, Set.ncard_singleton, card_bitVec]
  have hall := Set.eq_of_subset_of_ncard_le hsub (by rw [hcycle, hnonzero])
  obtain ⟨n, -, hn⟩ := hall.symm ▸ Set.mem_compl_singleton_iff.2 hs
  exact ⟨n, hn⟩

/-- A fixed point other than 0 would lie on the cycle, and 17 is none. -/
theorem xorshift32_eq_self_iff {s : Word32} : xorshift32 s = s ↔ s = 0 := by
  refine ⟨fun hfix => ?_, fun h => h ▸ xorshift32_zero⟩
  by_contra hs
  obtain ⟨n, rfl⟩ := exists_iterate_eq hs
  rw [← Function.iterate_succ_apply' xorshift32, Function.iterate_succ_apply] at hfix
  exact absurd (xorshift32_injective.iterate n hfix) (by decide)

end Sys2Proof.Machine

open Sys2Proof Sys2Proof.Machine

/-- Settles O46: 17 has a period of 2³² − 1 that no quotient by a prime shares, and a cycle that long holds every nonzero
word. -/
theorem xorshiftHasFullPeriod : Obligations.XorshiftHasFullPeriod :=
  ⟨minimalPeriod_xorshift32, fun _ => exists_iterate_eq⟩

/-- Settles O45: a linear map with no kernel is injective, on finitely many words also surjective; and no state of the cycle is
fixed. -/
theorem xorshiftIsABijection : Obligations.XorshiftIsABijection :=
  ⟨Finite.injective_iff_bijective.1 xorshift32_injective, fun _ => xorshift32_eq_self_iff⟩
end

section
/-!
PROOFS. The register DITHER: what a command and a step do to it, that the generator stays alive (P-SEED, R233) or stays locked
at zero (R194 (c), R237), and the values R191 gives.
-/
namespace Sys2Proof.Machine

/-! ### The three shifts in integers modulo 2³² (R191) -/

theorem toNat_xorshift32 (s : Word32) :
    (xorshift32 s).toNat =
      (let a := s.toNat
       let b := a ^^^ (a * 2 ^ 13 % 2 ^ 32)
       let c := b ^^^ (b / 2 ^ 17)
       c ^^^ (c * 2 ^ 5 % 2 ^ 32)) := by
  simp only [xorshift32, BitVec.toNat_xor, BitVec.toNat_shiftLeft, BitVec.toNat_ushiftRight, Nat.shiftLeft_eq,
    Nat.shiftRight_eq_div_pow]

/-! ### What a command and a step do to DITHER (R27, R111, R113, R191) -/

/-- DITHER after a command. -/
theorem exec_dither_cases {i : Instr} {s t : State} (h : exec i s = .next t) :
    t.core.dither = s.core.dither ∨ (i = .proc ∧ t.core.dither = xorshift32 s.core.dither) ∨
      (i = .init ∧ t.core.dither = Config.ditherSeed) ∨
      (i = .wrst .dither ∧ t.core.dither = s.ports.dinWdata.extractLsb' 0 32) := by
  rcases exec_cases h with ⟨-, rfl⟩ | ⟨hi, rfl⟩ | ⟨hi, rfl⟩ | ⟨r, -, rfl⟩ | ⟨r, rfl, rfl⟩
  · exact .inl rfl
  · exact .inr (.inl ⟨hi, process_dither _ _ _⟩)
  · exact .inr (.inr (.inl ⟨hi, rfl⟩))
  · exact .inl rfl
  · rw [stateWrite_dither]
    split
    · next hr => exact .inr (.inr (.inr ⟨by rw [hr], rfl⟩))
    · exact .inl rfl

/-- DITHER after a step: kept, advanced, reset to the seed, or written. -/
theorem step_dither_cases {s t : State} (h : step s = .next t) :
    t.core.dither = s.core.dither ∨ t.core.dither = xorshift32 s.core.dither ∨
      ∃ p ∈ s.pending,
        ((p.rst = true ∨ decode p.cmd = .ok .init) ∧ t.core.dither = Config.ditherSeed) ∨
        (p.rst = false ∧ decode p.cmd = .ok (.wrst .dither) ∧ t.core.dither = p.dinWdata.extractLsb' 0 32) := by
  rcases step_cases h with ⟨-, rfl⟩ | ⟨p, rest, hp, ⟨hr, rfl⟩ | ⟨-, -, rfl⟩ | ⟨hr, i, hd, hexec⟩⟩
  · exact .inl rfl
  · exact .inr (.inr ⟨p, by simp [hp], .inl ⟨.inl hr, rfl⟩⟩)
  · exact .inl rfl
  · rcases exec_dither_cases hexec with hkeep | ⟨-, hstep⟩ | ⟨rfl, hseed⟩ | ⟨rfl, hwrite⟩
    · exact .inl hkeep
    · exact .inr (.inl hstep)
    · exact .inr (.inr ⟨p, by simp [hp], .inl ⟨.inr hd, hseed⟩⟩)
    · exact .inr (.inr ⟨p, by simp [hp], .inr ⟨hr, hd, hwrite⟩⟩)

/-- Every state has a next one: no command stops the block (R210, R241). -/
theorem exists_step (s : State) : ∃ t, step s = .next t := by
  cases hp : s.pending with
  | nil => exact ⟨s, by simp [step, runNext, hp]⟩
  | cons p rest =>
    cases hr : p.rst with
    | true => exact ⟨_, step_of_rst hp hr⟩
    | false =>
      cases hd : decode p.cmd with
      | error e => exact ⟨_, step_of_illegal hp hr (by simp [hd])⟩
      | ok i =>
        rw [step_of_decode hp hr hd]
        cases i <;> exact ⟨_, rfl⟩

/-- A step leaves only commands that were issued before it. -/
theorem mem_pending_of_step {s t : State} {p : Ports} (h : step s = .next t) (hp : p ∈ t.pending) : p ∈ s.pending := by
  obtain ⟨hpending, -⟩ := stepTakesTheOldestCommand s t h
  exact List.mem_of_mem_tail (hpending ▸ hp)

/-! ### The generator kept alive (P-SEED, R233) -/

/-- What P-SEED asks of a WRST of DITHER that is executed (R233). -/
theorem wdata_ne_zero_of_dutySeed {p : Ports} (h : dutySeed p = true) (hr : p.rst = false)
    (hd : decode p.cmd = .ok (.wrst .dither)) : p.dinWdata.extractLsb' 0 32 ≠ 0 := by
  have hcmd : p.cmd = encode (.wrst .dither) := (decode_eq_ok_iff.1 hd).symm
  simpa [dutySeed, hr, hcmd] using h

theorem seedAlive_iff {s : State} : seedAlive s = true ↔ s.core.dither ≠ 0 ∧ ∀ p ∈ s.pending, dutySeed p = true := by
  simp [seedAlive]

/-! ### The lock at zero (R194 (c), R237) -/

/-- The command would not take the generator out of its lock: no `rst`, no INIT, no WRST of a nonzero value to DITHER. -/
def KeepsLock (p : Ports) : Prop :=
  p.rst = false ∧ decode p.cmd ≠ .ok .init ∧ (decode p.cmd = .ok (.wrst .dither) → p.dinWdata.extractLsb' 0 32 = 0)

/-- Of the four things a step can do to DITHER, keeping and advancing leave 0 at 0; the other two are ruled out or write 0. -/
theorem step_keeps_lock {s t : State} (h : step s = .next t) (h0 : s.core.dither = 0)
    (hall : ∀ p ∈ s.pending, KeepsLock p) : t.core.dither = 0 := by
  rcases step_dither_cases h with hkeep | hstep | ⟨p, hp, ⟨hreset, -⟩ | ⟨-, hd, hwrite⟩⟩
  · rw [hkeep, h0]
  · rw [hstep, h0, xorshift32_zero]
  · obtain ⟨hr, hinit, -⟩ := hall p hp
    rcases hreset with hrst | hi
    · rw [hr] at hrst; cases hrst
    · exact absurd hi hinit
  · obtain ⟨-, -, hzero⟩ := hall p hp
    rw [hwrite, hzero hd]

/-- The lock holds over any run. -/
theorem iterate_stepState_keeps_lock (n : Nat) {s : State} (h0 : s.core.dither = 0) (hall : ∀ p ∈ s.pending, KeepsLock p) :
    (stepState^[n] s).core.dither = 0 := by
  induction n generalizing s with
  | zero => exact h0
  | succ n ih =>
    obtain ⟨t, ht⟩ := exists_step s
    rw [Function.iterate_succ_apply, stepState_of_step ht]
    exact ih (step_keeps_lock ht h0 hall) fun p hp => hall p (mem_pending_of_step ht hp)

end Sys2Proof.Machine

open Sys2Proof Sys2Proof.Machine

/-- Settles O13: DITHER is kept, advanced by a map with no kernel, reset to 17, or written with a value that P-SEED keeps from
being 0. -/
theorem generatorStaysAlive : Obligations.GeneratorStaysAlive := by
  intro s t hs h
  rw [seedAlive_iff] at hs ⊢
  obtain ⟨hne, hall⟩ := hs
  refine ⟨?_, fun p hp => hall p (mem_pending_of_step h hp)⟩
  rcases step_dither_cases h with hkeep | hstep | ⟨p, hp, ⟨-, hseed⟩ | ⟨hr, hd, hwrite⟩⟩
  · rwa [hkeep]
  · rw [hstep]
    exact fun h0 => hne (eq_zero_of_xorshift32_eq_zero h0)
  · rw [hseed]
    decide
  · rw [hwrite]
    exact wdata_ne_zero_of_dutySeed (hall p hp) hr hd

/-- Settles O44: PROC's DITHER is `xorshift32`, written out by `toNat_xorshift32`; the other commands are those of
`exec_dither_cases`. -/
theorem generatorStepsOncePerProc : Obligations.GeneratorStepsOncePerProc := by
  refine ⟨fun s => ⟨_, rfl, toNat_xorshift32 s.core.dither⟩, fun i s t h hproc hinit hwrst => ?others, by decide⟩
  case others =>
    rcases exec_dither_cases h with hkeep | ⟨hi, -⟩ | ⟨hi, -⟩ | ⟨hi, -⟩
    · exact hkeep
    · exact absurd hi hproc
    · exact absurd hi hinit
    · exact absurd hi hwrst

/-- Settles O47: the lock is an invariant of the run, the generator maps 0 to 0, and the floor's product with 0 is +0.0. -/
theorem zeroLockIsForGood : Obligations.ZeroLockIsForGood := by
  refine ⟨fun n s h0 hall => iterate_stepState_keeps_lock n h0 hall, fun s h0 => ⟨_, rfl, ?proc⟩, fun x h => ?floor⟩
  case proc => rw [procCommand_core, process_dither, h0, xorshift32_zero]
  case floor =>
    obtain ⟨-, hreplaced, -⟩ := floorReplacesNearZeroSamples
    obtain ⟨-, -, -, hzero⟩ := hreplaced x 0 h
    exact hzero
end

section
/-!
PROOFS. The dither noise (R192): its two factors before the scale take the sign of s − 0x7fffffff, and the scale is a power of
two, exact whatever the configured POW.
-/
namespace Sys2Proof.Machine

/-! ### Signs and zeros of products (R8) -/

/-- A product with a positive factor keeps the sign. -/
theorem signBit_fmul_of_pos {a k : F64} (ha : isFinite a = true) (hk : isFinite k = true) (hs : signBit k = false) :
    signBit (fmul a k) = signBit a := by
  rw [fmul_of_finite ha hk, signBit_ofSignMag _ (roundMag_lt _ _), hs, Bool.bne_false]

theorem fmul_zero_of_pos {k : F64} (hk : isFinite k = true) (hs : signBit k = false) : fmul Config.zero k = Config.zero := by
  have hzero : unitsMag Config.zero = 0 := by decide
  rw [fmul_of_finite (by decide) hk, hzero, Nat.zero_mul, roundMag_zero, hs]
  decide

theorem signBit_roundUnits_false (u : Int) : signBit (roundUnits false u) = decide (u < 0) := by
  rcases lt_or_ge u 0 with hneg | hnonneg
  · rw [roundUnits, if_neg hneg.ne, signBit_ofSignMag _ (roundMag_lt _ _)]
  · rw [signBit_roundUnits_of_nonneg hnonneg, eq_comm, decide_eq_false_iff_not]
    exact not_lt.2 hnonneg

theorem signBit_powTwo (n : Int) : signBit (powTwo n) = false := by
  unfold powTwo
  split
  · decide
  · split
    · exact signBit_ofSignMag _ (by decide)
    · exact signBit_ofSignMag _ (roundMag_lt _ _)

/-! ### The noise, factor by factor (R192) -/

/-- The generator's value less 0x7fffffff. -/
def ditherCentred (s : Word32) : F64 := fsub (toF64 s) Config.ditherOffset

theorem isFinite_ditherCentred (s : Word32) : isFinite (ditherCentred s) = true :=
  isFinite_of_magBits_le (by decide) (magBits_toF64_sub_offset_le s)

theorem signBit_ditherCentred (s : Word32) : signBit (ditherCentred s) = decide (s.toNat < 0x7FFFFFFF) := by
  obtain ⟨hfin, hunits⟩ := toF64_exact s
  have hoffset : units Config.ditherOffset = 0x7FFFFFFF * 2 ^ 1074 := by decide +kernel
  rw [ditherCentred, fsub_of_finite hfin (by decide), signBit_toF64, hunits, hoffset, ← sub_mul, Bool.false_and,
    signBit_roundUnits_false, decide_eq_decide, ← not_le, mul_nonneg_iff_of_pos_right (by positivity)]
  omega

/-- The centred value times 1.1e-44. -/
def ditherScaled (s : Word32) : F64 := fmul (ditherCentred s) Config.ditherK

theorem isFinite_ditherScaled (s : Word32) : isFinite (ditherScaled s) = true :=
  isFinite_of_magBits_le (b := fmul 0x41E0000000000000 Config.ditherK) (by decide +kernel)
    (magBits_fmul_le (by decide) (by decide) (magBits_toF64_sub_offset_le s) le_rfl)

theorem signBit_ditherScaled (s : Word32) : signBit (ditherScaled s) = decide (s.toNat < 0x7FFFFFFF) := by
  rw [ditherScaled, signBit_fmul_of_pos (isFinite_ditherCentred s) (by decide) (by decide), signBit_ditherCentred]

/-- POW(2, n) is exact, so the noise does not depend on the configuration (R11 (e)). -/
theorem noiseOf_configured (s : Word32) {e : Int} (hlo : -1073 ≤ e) (hhi : e ≤ 0) :
    noiseOf Transcendentals.configured s e = fmul (ditherScaled s) (powTwo (e + Config.ditherExpBias)) := by
  have hpow : Transcendentals.configured.pow Config.two (ofInt (e + Config.ditherExpBias)) = _ :=
    powOf_two_ofInt Config.freePow (by rw [Config.ditherExpBias]; omega)
  rw [noiseOf, hpow]
  rfl

/-- The scale of every exponent FREXP_EXP gives of a number below 1 is a finite power of two. -/
theorem isFinite_noiseScale {e : Int} (hlo : -1073 ≤ e) (hhi : e ≤ 0) :
    isFinite (powTwo (e + Config.ditherExpBias)) = true :=
  isFinite_of_magBits_le (by decide +kernel) (magBits_powTwo_le hlo hhi)

theorem signBit_noiseOf (s : Word32) {e : Int} (hlo : -1073 ≤ e) (hhi : e ≤ 0) :
    signBit (noiseOf Transcendentals.configured s e) = decide (s.toNat < 0x7FFFFFFF) := by
  rw [noiseOf_configured s hlo hhi,
    signBit_fmul_of_pos (isFinite_ditherScaled s) (isFinite_noiseScale hlo hhi) (signBit_powTwo _), signBit_ditherScaled]

/-- The centre of the generator's range gives no noise. -/
theorem noiseOf_centre {e : Int} (hlo : -1073 ≤ e) (hhi : e ≤ 0) :
    noiseOf Transcendentals.configured 0x7FFFFFFF e = Config.zero := by
  have hzero : ditherScaled 0x7FFFFFFF = Config.zero := by decide +kernel
  rw [noiseOf_configured _ hlo hhi, hzero, fmul_zero_of_pos (isFinite_noiseScale hlo hhi) (signBit_powTwo _)]

theorem fle_fabs_of_magBits_le {a b : F64} (hb : isFinite b = true) (hs : signBit b = false) (h : magBits a ≤ magBits b) :
    fle (fabs a) b = true := by
  have ha : isNaN (fabs a) = false := by simpa using isNaN_of_isFinite (isFinite_of_magBits_le hb h)
  have hkey : orderKey b = magBits b := by simp [orderKey, hs]
  rw [fle_iff ha (isNaN_of_isFinite hb), orderKey_fabs, hkey]
  exact_mod_cast h

end Sys2Proof.Machine

open Sys2Proof Sys2Proof.Machine

/-- Settles O49: the sign is that of the centred value, the magnitude is `magBits_noiseOf_le`, and the examples are evaluated
with the exact power of two. -/
theorem noiseFollowsTheGenerator : Obligations.NoiseFollowsTheGenerator := by
  refine ⟨fun s e hlo hhi => ?general, ?examples⟩
  case general =>
    have hmag := magBits_noiseOf_le s hlo hhi
    refine ⟨isNaN_of_isFinite (isFinite_of_magBits_le (by decide) hmag), fle_fabs_of_magBits_le (by decide) (by decide) hmag,
      signBit_noiseOf s hlo hhi, ?_⟩
    rintro rfl
    exact noiseOf_centre hlo hhi
  case examples =>
    simp (disch := norm_num) only [noiseOf_configured]
    decide +kernel
end

section
/-!
PROOFS. What stops, holds, resets and restores the block: no state is stuck (R210, R241), an idle step holds the state (R224,
R243), `rst` takes the place of the command (R215, R230), and the words StateRead gives are a saved state (R223, R234).
-/
namespace Sys2Proof.Machine

/-- With nothing issued the block holds its state (R224, R243). -/
theorem step_of_idle {s : State} (hp : s.pending = []) : step s = .next s := by
  simp [step, runNext, hp]

/-! ### A saved state written back (R223, R234) -/

/-- ProcessorState is what the fifteen registers other than STATUS show. -/
theorem core_eq_of_stateRead {s t : State} (h : ∀ r, r ≠ .status → stateRead r s = stateRead r t) : s.core = t.core := by
  have hall : ∀ r, stateRead r { s with ill := t.ill } = stateRead r t := fun r => by
    by_cases hr : r = .status
    · rw [hr]
      rfl
    · rw [← h r hr]
      exact stateRead_congr_of_ne_status hr rfl
  exact (registers_eq_of_stateRead hall).1

/-- The low bits of a zero-extended value are the value (R53). -/
theorem extractLsb'_zero_zeroExtend {k n : Nat} (h : k ≤ n) (b : BitVec k) : (b.zeroExtend n).extractLsb' 0 k = b := by
  rw [← BitVec.setWidth_eq_extractLsb' h, BitVec.setWidth_setWidth_of_le _ h, BitVec.setWidth_eq]

/-- Writes one register with the word read from a saved state. -/
def restoreRegister (saved u : State) (r : StateReg) : State := stateWrite r (stateRead r saved) u

/-- A register just restored reads as in the saved state: the narrow ones keep all the bits StateRead gave. STATUS is not
restored, for its write only clears. -/
theorem stateRead_restoreRegister_same {r : StateReg} (saved u : State) (hr : r ≠ .status) :
    stateRead r (restoreRegister saved u r) = stateRead r saved := by
  rw [restoreRegister, stateRead_stateWrite_same]
  cases r
  case pathSel => exact congrArg (BitVec.zeroExtend 64) (extractLsb'_zero_zeroExtend (by decide) saved.core.pathSel)
  case dither => exact congrArg (BitVec.zeroExtend 64) (extractLsb'_zero_zeroExtend (by decide) saved.core.dither)
  case status => exact absurd rfl hr
  all_goals rfl

/-- Restoring registers one after another, in any order and any number of times: the restored ones read as in the saved state,
the others as before. -/
theorem stateRead_foldl_restoreRegister (saved : State) {q : StateReg} (hq : q ≠ .status) (rs : List StateReg) (u : State) :
    stateRead q (rs.foldl (restoreRegister saved) u) = if q ∈ rs then stateRead q saved else stateRead q u := by
  induction rs generalizing u with
  | nil => rfl
  | cons r rs ih =>
    rw [List.foldl_cons, ih]
    by_cases hqr : q = r
    · subst hqr
      simp [stateRead_restoreRegister_same saved u hq]
    · simp [hqr, restoreRegister, stateRead_stateWrite_ne _ u hqr]

/-- R51 lists every register. -/
theorem mem_allRegs (r : StateReg) : r ∈ allRegs := by
  cases r <;> decide

end Sys2Proof.Machine

open Sys2Proof Sys2Proof.Machine

/-- Settles O5: nothing issued, nothing done. -/
theorem idleStepHoldsTheState : Obligations.IdleStepHoldsTheState :=
  fun _ hp => step_of_idle hp

/-- Settles O6: the step is `resetRegisters` on the presented ports, which leaves the host's lists alone. -/
theorem resetSkipsTheCommand : Obligations.ResetSkipsTheCommand :=
  fun _ _ _ hp hr => ⟨_, step_of_rst hp hr, fun r => stateRead_congr r (resetRegisters_core _) (resetRegisters_ill _),
    resetRegisters_pending _, resetRegisters_responses _, resetRegisters_faultLog _⟩

/-- Settles O8: `rst` and an illegal word give a next state, and so does each command. -/
theorem stepNeverStops : Obligations.StepNeverStops := exists_step

/-- Settles O26: every register but STATUS reads as in the saved state after the sixteen writes, and these fifteen words
determine ProcessorState. -/
theorem savedStateIsRestored : Obligations.SavedStateIsRestored := fun saved s =>
  core_eq_of_stateRead fun q hq =>
    (stateRead_foldl_restoreRegister saved hq allRegs s).trans (if_pos (mem_allRegs q))

end

section
/-!
PROOFS. What a NaN or infinite sample and a NaN or zero rate do to one PROC (R238): an infinity or a NaN in stays one through the
sums and products, SIN and TAN turn it into a NaN, and the two biquads carry that NaN into the active path's registers.
-/
namespace Sys2Proof.Machine

/-! ### Infinities and NaN through the operations (R8) -/

theorem isFinite_eq_false_iff {a : F64} : isFinite a = false ↔ isInf a = true ∨ isNaN a = true := by
  simp only [isFinite, isInf, isNaN, decide_eq_true_eq, decide_eq_false_iff_not]
  omega

/-- A sum with an operand that is not finite is not finite. -/
theorem isFinite_fadd_eq_false {a b : F64} (h : isFinite a = false ∨ isFinite b = false) : isFinite (fadd a b) = false := by
  unfold fadd
  split
  · exact isFinite_eq_false_of_isNaN (isNaN_producedNaN _ _ _)
  · next hnum =>
    split
    · next ha => exact isFinite_eq_false_iff.2 (.inl ha)
    · next ha =>
      split
      · next hb => exact isFinite_eq_false_iff.2 (.inl hb)
      · next hb =>
        simp only [isFinite_eq_false_iff, Bool.or_eq_true] at h hnum
        tauto

theorem isFinite_fsub_eq_false {a b : F64} (h : isFinite a = false ∨ isFinite b = false) : isFinite (fsub a b) = false := by
  unfold fsub
  split
  · exact isFinite_eq_false_of_isNaN (isNaN_producedNaN _ _ _)
  · exact isFinite_fadd_eq_false (by rwa [isFinite_fneg])

/-- A product with a factor that is not finite is not finite: an infinity times a zero is a NaN. -/
theorem isFinite_fmul_eq_false {a b : F64} (h : isFinite a = false ∨ isFinite b = false) : isFinite (fmul a b) = false := by
  unfold fmul
  split
  · exact isFinite_eq_false_of_isNaN (isNaN_producedNaN _ _ _)
  · next hnum =>
    split
    · exact isFinite_eq_false_iff.2 (.inl (isInf_ofSignMag_infMag _))
    · next hinf =>
      simp only [isFinite_eq_false_iff, Bool.or_eq_true] at h hnum hinf
      tauto

/-- An infinite second operand carries over when the first is finite, its sign flipped. -/
theorem isInf_fsub_of_inf_right {a b : F64} (ha : isFinite a = true) (hb : isInf b = true) : isInf (fsub a b) = true := by
  have hneg : isInf (fneg b) = true := by rwa [isInf_fneg]
  have hsub : fsub a b = fadd a (fneg b) := by
    simp [fsub, isNaN_of_isFinite ha, isNaN_of_isInf hb, isInf_of_isFinite ha]
  rwa [hsub, fadd_of_inf_right ha hneg]

/-- An infinity times a number that is not zero is an infinity. -/
theorem isInf_fmul {a b : F64} (ha : isInf a = true) (hb : isNaN b = false) (hz : isZero b = false) :
    isInf (fmul a b) = true := by
  have haz : isZero a = false := by
    simp [isZero, magBits_of_isInf ha, infMag]
  simp [fmul, isNaN_of_isInf ha, ha, hb, hz, haz]

/-! ### The front end (R103 to R107) -/

/-- The guard is off and the floor is far below an infinity, so what the floor gives is not finite either. -/
theorem floored_of_nonfinite {a : F64} (dither : Word32) (h : isFinite a = false) :
    nearZeroFloor (headroomCut (inputGuard ProcConfig.hardware.guard a)) dither = headroomCut a := by
  have hcut : isFinite (headroomCut a) = false := isFinite_fmul_eq_false (.inl h)
  refine nearZeroFloor_of_not_lt dither ?_
  have hthresh : orderKey Config.floorThresh < infMag := by decide
  have hmag : infMag ≤ magBits (headroomCut a) := by simpa [isFinite] using hcut
  change flt (fabs (headroomCut a)) Config.floorThresh = false
  simp only [flt, orderKey_fabs, Bool.and_eq_false_iff, decide_eq_false_iff_not]
  exact .inr (by omega)

/-- PRE_ATTENUATE multiplies by the gain, which is then a number, or does nothing (R107). -/
theorem preAttenuate_cases (x g : F64) : preAttenuate x g = x ∨ isNaN g = false ∧ preAttenuate x g = fmul x g := by
  unfold preAttenuate
  split
  · next hlt => exact .inr ⟨(isNaN_of_flt hlt).1, rfl⟩
  · exact .inl rfl

section
variable {o : ProcOperands} (dither : Word32)

theorem frontEnd_of_nonfinite (h : isFinite o.sample = false) :
    frontEnd ProcConfig.hardware dither o =
      preAttenuate (headroomCut o.sample) (inputGain Transcendentals.configured o.control) := by
  rw [frontEnd, floored_of_nonfinite dither h]
  rfl

theorem isFinite_frontEnd_eq_false (h : isFinite o.sample = false) :
    isFinite (frontEnd ProcConfig.hardware dither o) = false := by
  have hcut : isFinite (headroomCut o.sample) = false := isFinite_fmul_eq_false (.inl h)
  rw [frontEnd_of_nonfinite dither h]
  rcases preAttenuate_cases (headroomCut o.sample) (inputGain Transcendentals.configured o.control) with heq | ⟨-, heq⟩
  · rwa [heq]
  · exact heq ▸ isFinite_fmul_eq_false (.inl hcut)

theorem isNaN_frontEnd (h : isNaN o.sample = true) : isNaN (frontEnd ProcConfig.hardware dither o) = true := by
  have hcut : isNaN (headroomCut o.sample) = true := isNaN_fmul_left _ h
  rw [frontEnd_of_nonfinite dither (isFinite_eq_false_of_isNaN h)]
  rcases preAttenuate_cases (headroomCut o.sample) (inputGain Transcendentals.configured o.control) with heq | ⟨-, heq⟩
  · rwa [heq]
  · exact heq ▸ isNaN_fmul_left _ hcut

/-- Only a gain of zero makes a NaN of an infinite sample. -/
theorem isInf_frontEnd (h : isInf o.sample = true) (hgain : isZero (inputGain Transcendentals.configured o.control) = false) :
    isInf (frontEnd ProcConfig.hardware dither o) = true := by
  have hcut : isInf (headroomCut o.sample) = true := isInf_fmul h (by decide) (by decide)
  rw [frontEnd_of_nonfinite dither (isFinite_eq_false_iff.2 (.inl h))]
  rcases preAttenuate_cases (headroomCut o.sample) (inputGain Transcendentals.configured o.control) with heq | ⟨hnum, heq⟩
  · rwa [heq]
  · exact heq ▸ isInf_fmul hcut hnum hgain

end

/-! ### The coefficients (R120 to R125) -/

theorem isZero_fdiv_of_isZero_left {a b : F64} (ha : isZero a = true) (hb : isFinite b = true) (hz : isZero b = false) :
    isZero (fdiv a b) = true := by
  rw [fdiv_of_isZero_left ha hb hz]
  simp [isZero]

/-- A finite nonzero frequency over the scale of a NaN or zero rate is not finite. -/
theorem isFinite_fdiv_scale_eq_false {a sr : F64} (ha : isFinite a = true) (hz : isZero a = false)
    (h : isNaN sr = true ∨ isZero sr = true) : isFinite (fdiv a (fdiv sr Config.refRate)) = false := by
  rcases h with hnan | hzero
  · exact isFinite_eq_false_of_isNaN (isNaN_fdiv_right _ (isNaN_fdiv_left _ hnan))
  · rw [fdiv_by_zero ha hz (isZero_fdiv_of_isZero_left hzero (by decide) (by decide))]
    exact isFinite_eq_false_iff.2 (.inl (isInf_ofSignMag_infMag _))

/-- A frequency that is not finite has a NaN tangent, and b0 with it (R121). -/
theorem isNaN_bqcoef_b0 (form : NumeratorForm) {f : F64} (q : F64) (h : isFinite f = false) :
    isNaN (bqcoef Transcendentals.configured form f q).b0 = true := by
  have htan : isNaN (Transcendentals.configured.tan (fmul Config.pi f)) = true :=
    isNaN_tanOf_of_nonfinite Config.freeTan (isFinite_fmul_eq_false (.inr h))
  cases form <;> exact isNaN_fmul_left _ (isNaN_fdiv_left _ htan)

theorem isNaN_coeffs_b0 (form : NumeratorForm) {sr : F64} (h : isNaN sr = true ∨ isZero sr = true) :
    isNaN (coeffs Transcendentals.configured form sr).mid.b0 = true ∧
      isNaN (coeffs Transcendentals.configured form sr).high.b0 = true :=
  ⟨isNaN_bqcoef_b0 form _ (isFinite_fdiv_scale_eq_false (by decide) (by decide) h),
    isNaN_bqcoef_b0 form _ (isFinite_fdiv_scale_eq_false (by decide) (by decide) h)⟩

theorem isNaN_coeffs_roll (L : Transcendentals) (form : NumeratorForm) {sr : F64} (h : isNaN sr = true) :
    isNaN (coeffs L form sr).roll = true :=
  isNaN_fdiv_right _ (isNaN_fdiv_left _ h)

/-- A zero rate makes RollAmount an infinity (R125). -/
theorem isInf_coeffs_roll (L : Transcendentals) (form : NumeratorForm) {sr : F64} (h : isZero sr = true) :
    isInf (coeffs L form sr).roll = true := by
  have hscale := isZero_fdiv_of_isZero_left (b := Config.refRate) h (by decide) (by decide)
  have hroll : (coeffs L form sr).roll = _ := fdiv_by_zero (by decide +kernel) (by decide +kernel) hscale
  rw [hroll]
  exact isInf_ofSignMag_infMag _

/-! ### The biquads and their registers (R131 to R134) -/

theorem isNaN_bqtick_of_b0 (v : F64) {c : Coefs} (h : History) (hb0 : isNaN c.b0 = true) : isNaN (bqtick v c h).1 = true :=
  isNaN_fadd_left _ (isNaN_fmul_right _ hb0)

/-- A NaN output of the tick goes into both history values. -/
theorem isNaN_bqtick_history {v : F64} {c : Coefs} {h : History} (ht : isNaN (bqtick v c h).1 = true) :
    isNaN (bqtick v c h).2.s1 = true ∧ isNaN (bqtick v c h).2.s2 = true :=
  ⟨isNaN_fadd_left _ (isNaN_fsub_right _ (isNaN_fmul_left _ ht)), isNaN_fsub_right _ (isNaN_fmul_left _ ht)⟩

/-- The drive adds the sample to the accumulator and takes the sine (R132). -/
theorem isNaN_headBumpDrive_of_nonfinite (hb hbf : F64) {x : F64} (h : isFinite x = false) :
    isNaN (headBumpDrive Transcendentals.configured hb x hbf) = true :=
  isNaN_sinOf_of_nonfinite Config.freeSin
    (isFinite_fsub_eq_false (.inl (isFinite_fadd_eq_false (.inr (isFinite_fmul_eq_false (.inl h))))))

/-- HB, BQM and BQH of a path are NaN: what R238 calls poisoned. -/
def Poisoned (p : PathState) : Prop :=
  isNaN p.hb = true ∧ isNaN p.bqm.s1 = true ∧ isNaN p.bqm.s2 = true ∧ isNaN p.bqh.s1 = true ∧ isNaN p.bqh.s2 = true

/-- A sample that is not finite, or a NaN b0 in both biquads, poisons the active path in the filter bank. -/
theorem poisoned_filterBank {sr x : F64} (st : ProcessorState)
    (h : isFinite x = false ∨ isNaN sr = true ∨ isZero sr = true) :
    Poisoned (pathOf (filterBank ProcConfig.hardware sr x st).st st.pathSel) := by
  set c := coeffs Transcendentals.configured Config.numeratorForm sr
  have hmid (hb : F64) (hist : History) :
      isNaN (bqtick (headBumpDrive Transcendentals.configured hb x c.hbf) c.mid hist).1 = true :=
    h.elim (fun hx => isNaN_bqtick _ _ (isNaN_headBumpDrive_of_nonfinite _ _ hx))
      fun hsr => isNaN_bqtick_of_b0 _ _ (isNaN_coeffs_b0 _ hsr).1
  have hhigh (hist : History) : isNaN (bqtick (Transcendentals.configured.sin x) c.high hist).1 = true :=
    h.elim (fun hx => isNaN_bqtick _ _ (isNaN_sinOf_of_nonfinite Config.freeSin hx))
      fun hsr => isNaN_bqtick_of_b0 _ _ (isNaN_coeffs_b0 _ hsr).2
  obtain ⟨hm1, hm2⟩ := isNaN_bqtick_history (hmid (pathOf st st.pathSel).hb (pathOf st st.pathSel).bqm)
  obtain ⟨hh1, hh2⟩ := isNaN_bqtick_history (hhigh (pathOf st st.pathSel).bqh)
  rw [filterBank_active]
  exact ⟨isNaN_clampedAsin (hmid _ _), hm1, hm2, hh1, hh2⟩

/-- A poisoned path stays so through the restraint, and makes LAST_OUT and the output NaN (R167, R184). -/
theorem process_of_poisoned {st : ProcessorState} {o : ProcOperands} {q : BitVec 1}
    (h : Poisoned (pathOf (filterBank ProcConfig.hardware o.rate (frontEnd ProcConfig.hardware st.dither o) st).st q)) :
    isNaN (process ProcConfig.hardware st o).out = true ∧ isNaN (process ProcConfig.hardware st o).st.lastOut = true ∧
      Poisoned (pathOf (process ProcConfig.hardware st o).st q) := by
  obtain ⟨hhb, hhistories⟩ := h
  have hmix (y ground : F64) : isNaN (addBacks y ground (restrainHeadBump y
      (filterBank ProcConfig.hardware o.rate (frontEnd ProcConfig.hardware st.dither o) st).st)) = true := by
    refine isNaN_addBacks (q := q) y ground ?_
    rwa [pathOf_restrainHeadBump, restrain_nan _ hhb]
  refine ⟨isNaN_process_out rfl rfl rfl (hmix _ _), ?lastOut, ?path⟩
  case lastOut =>
    rw [process_eq_of_stages rfl rfl rfl rfl, hysteresis_nan _ (hmix _ _)]
    exact hmix _ _
  case path =>
    rw [pathOf_process, restrain_nan _ hhb]
    exact ⟨hhb, hhistories⟩

/-! ### MR (R129) -/

/-- An infinite RollAmount makes a NaN of a zero accumulator. -/
theorem isNaN_midRoller_of_zero {mr roll : F64} (x : F64) (hmr : isZero mr = true) (hroll : isInf roll = true) :
    isNaN (midRoller mr x roll) = true := by
  have hrest : isInf (fsub Config.one roll) = true := isInf_fsub_of_inf_right (by decide) hroll
  exact isNaN_fadd_left _ (isNaN_fmul_zero_inf hrest hmr)

/-- 1 less a number in (0, 2] lies in [−1, 1]. -/
theorem magBits_one_sub_le {a : F64} (h0 : flt Config.zero a = true) (h2 : fle a Config.two = true) :
    magBits (fsub Config.one a) ≤ magBits Config.one := by
  have hfin := isFinite_of_between (by decide) (by decide) (fle_of_flt h0) h2
  have hsub0 : orderKey (fsub Config.one Config.zero) = magBits Config.one := by decide +kernel
  have hsub2 : orderKey (fsub Config.one Config.two) = -(magBits Config.one : Int) := by decide +kernel
  have hn := isNaN_of_isFinite hfin
  have hlo := orderKey_fsub_anti (a := Config.one) (by decide) hfin (by decide) ((fle_iff hn (by decide)).1 h2)
  have hhi := orderKey_fsub_anti (a := Config.one) (by decide) (by decide) hfin
    ((fle_iff (by decide) hn).1 (fle_of_flt h0))
  have := natAbs_orderKey (fsub Config.one a)
  omega

/-- A factor of magnitude at most 1 keeps a finite value finite. -/
theorem isFinite_fmul_of_le_one {a b : F64} (ha : isFinite a = true) (hb : magBits b ≤ magBits Config.one) :
    isFinite (fmul a b) = true := by
  have hone : unitsMag Config.one = 2 ^ 0 * 2 ^ 1074 := by decide +kernel
  have hinf : unitsMag (0x7FF0000000000000 : F64) = 2 ^ 2098 := by decide +kernel
  have hbelow : magBits a < magBits (0x7FF0000000000000 : F64) := of_decide_eq_true ha
  have hlt : unitsMag a < 2 ^ 2098 := hinf ▸ unitsMag_lt hbelow
  have hfin := (fmul_two_pow_exact ha (by decide) (by decide) hone (by rwa [pow_zero, Nat.mul_one])).1
  exact isFinite_of_magBits_le hfin (magBits_fmul_le ha (by decide) le_rfl hb)

/-- A number above zero is not zero. -/
theorem isZero_of_pos {a : F64} (h : flt Config.zero a = true) : isZero a = false := by
  cases hz : isZero a with
  | false => rfl
  | true =>
    have hnot := (not_fgt_not_flt_zero (.inl hz)).1
    rw [fgt, h] at hnot
    exact absurd hnot (by decide)

theorem isInf_midRoller {mr x roll : F64} (hx : isInf x = true) (hmr : isFinite mr = true)
    (h0 : flt Config.zero roll = true) (h2 : fle roll Config.two = true) : isInf (midRoller mr x roll) = true := by
  have hkept : isFinite (fmul mr (fsub Config.one roll)) = true := isFinite_fmul_of_le_one hmr (magBits_one_sub_le h0 h2)
  have hin : isInf (fmul x roll) = true := isInf_fmul hx (isNaN_of_flt h0).2 (isZero_of_pos h0)
  rwa [midRoller, fadd_of_inf_right hkept hin]

/-- An infinite sample leaves no finite accumulator. -/
theorem isFinite_midRoller_eq_false (mr roll : F64) {x : F64} (h : isFinite x = false) :
    isFinite (midRoller mr x roll) = false :=
  isFinite_fadd_eq_false (.inr (isFinite_fmul_eq_false (.inl h)))

end Sys2Proof.Machine

open Sys2Proof Sys2Proof.Machine

/-- Settles O32: the filter bank poisons the active path, the mix carries its accumulator to LAST_OUT and the output, and the
clauses on MR are R129's formula for a NaN, a zero or an infinite operand. -/
theorem nanSamplePoisonsTheActivePath : Obligations.NaNSamplePoisonsTheActivePath := by
  intro s o old roll
  have hmr : (pathOf (procCommand ProcConfig.hardware s).core s.core.pathSel).mr =
      midRoller old.mr (frontEnd ProcConfig.hardware s.core.dither o) roll := process_mr_active _ _ _
  refine ⟨procCommand ProcConfig.hardware s, _, rfl, procCommand_responses _ _, fun h => ?poisoned, fun h => ?nan,
    fun hrate hold => ?zeroRate, fun h => ?infinite, fun hx hold hgain h0 h2 => ?infinity⟩
  case poisoned =>
    exact process_of_poisoned (poisoned_filterBank s.core (h.imp_left (isFinite_frontEnd_eq_false s.core.dither)))
  case nan =>
    rw [hmr]
    rcases h with hsample | hrate
    · exact isNaN_midRoller _ (.inl (isNaN_frontEnd _ hsample))
    · exact isNaN_fadd_right _ (isNaN_fmul_right _ (isNaN_coeffs_roll _ _ hrate))
  case zeroRate =>
    rw [hmr]
    exact isNaN_midRoller_of_zero _ hold (isInf_coeffs_roll _ _ hrate)
  case infinite =>
    rw [hmr, ← isFinite_eq_false_iff]
    exact isFinite_midRoller_eq_false _ _ (isFinite_frontEnd_eq_false _ (isFinite_eq_false_iff.2 (.inl h)))
  case infinity =>
    rw [hmr]
    exact isInf_midRoller (isInf_frontEnd _ hx hgain) hold h0 h2

end

section
/-!
PROOFS. The zero lock of R237: with every register and the sample zero the filter bank stays at zero, because its coefficients are
finite whatever TAN gives within one unit in the last place, and the output is the noise of a generator at 0.
-/
namespace Sys2Proof.Machine

/-! ### Magnitudes of quotients and differences (R8) -/

/-- A quotient is largest in magnitude for the largest dividend and the smallest divisor. -/
theorem magBits_fdiv_le {a b c d : F64} (hc : isFinite c = true) (hb : isFinite b = true) (hd : isZero d = false)
    (hac : magBits a ≤ magBits c) (hdb : magBits d ≤ magBits b) : magBits (fdiv a b) ≤ magBits (fdiv c d) := by
  have hdpos : 0 < magBits d := by simpa [isZero, Nat.pos_iff_ne_zero] using hd
  have hbz : isZero b = false := by simpa [isZero, Nat.pos_iff_ne_zero] using hdpos.trans_le hdb
  rw [fdiv_of_finite (isFinite_of_magBits_le hc hac) hb hbz, fdiv_of_finite hc (isFinite_of_magBits_le hb hdb) hd,
    magBits_ofSignMag _ (roundMag_lt _ _), magBits_ofSignMag _ (roundMag_lt _ _)]
  apply roundMag_mono (unitsMag_pos (hdpos.trans_le hdb)) (unitsMag_pos hdpos)
  exact Nat.mul_le_mul (Nat.mul_le_mul_right _ (unitsMag_le hac)) (unitsMag_le hdb)

/-- A difference is at most the sum of larger magnitudes. -/
theorem magBits_fsub_le {a b c d : F64} (hc : isFinite c = true) (hd : isFinite d = true) (sc : signBit c = false)
    (sd : signBit d = false) (hac : magBits a ≤ magBits c) (hbd : magBits b ≤ magBits d) :
    magBits (fsub a b) ≤ magBits (fadd c d) := by
  rw [fsub_eq_fadd_fneg (isNaN_of_isFinite (isFinite_of_magBits_le hc hac)) (isFinite_of_magBits_le hd hbd)]
  exact magBits_fadd_le hc hd sc sd hac (by rwa [magBits_fneg])

/-- Adding what is not negative to what is at least 1 gives at least 1. -/
theorem one_le_fadd {a b : F64} (ha : isFinite a = true) (hb : isFinite b = true)
    (ha1 : orderKey Config.one ≤ orderKey a) (hb0 : 0 ≤ orderKey b) : orderKey Config.one ≤ orderKey (fadd a b) := by
  have hone : orderKey (roundUnits false (units Config.one)) = orderKey Config.one := by decide +kernel
  have hua := units_le_of_orderKey_le ha1
  have hub : 0 ≤ units b := units_le_of_orderKey_le (a := Config.zero) hb0
  rw [fadd_of_finite ha hb, ← hone]
  exact orderKey_roundUnits_mono _ _ (by omega)

theorem orderKey_fmul_self_nonneg {a : F64} (ha : isFinite a = true) : 0 ≤ orderKey (fmul a a) := by
  rw [fmul_of_finite ha ha, orderKey_ofSignMag _ (roundMag_lt _ _), bne_self_eq_false]
  exact Int.natCast_nonneg _

/-- A quotient by a positive number is not negative where the dividend is not. -/
theorem orderKey_fdiv_nonneg {a b : F64} (ha : isFinite a = true) (hb : isFinite b = true) (hs : signBit b = false)
    (hz : isZero b = false) (h0 : 0 ≤ orderKey a) : 0 ≤ orderKey (fdiv a b) := by
  cases hsa : signBit a with
  | false =>
    rw [fdiv_of_finite ha hb hz, orderKey_ofSignMag _ (roundMag_lt _ _), hsa, hs]
    exact Int.natCast_nonneg _
  | true =>
    have hza : isZero a = true := by
      have : orderKey a = -(magBits a : Int) := by simp [orderKey, hsa]
      simp only [isZero, decide_eq_true_eq]
      omega
    rw [fdiv_of_isZero_left hza hb hz, orderKey_ofSignMag _ (by norm_num)]
    simp

/-! ### The tangent of a small frequency (R121) -/

/-- One unit in the last place added to a result of at most 1/2 leaves it at most 1. -/
theorem units_keepWithin_le {a : Approx} {v : F64} (hneg : a.neg = false) (hden : 0 < a.den)
    (hnum : a.den ≤ a.num * 2 ^ 1074) (hhalf : 2 * a.num ≤ a.den) (hnear : withinOneUlp a v = true) :
    units v ≤ units Config.one := by
  have hone : units Config.one = ((2 ^ 1074 : Nat) : Int) := by decide +kernel
  have hulp := ulp_le hden hnum
  simp only [withinOneUlp, hneg, Bool.false_eq_true, if_false, Bool.and_eq_true, decide_eq_true_eq] at hnear
  obtain ⟨-, hdist⟩ := hnear
  rw [hone]
  generalize 2 ^ 1074 = scale at hulp hdist ⊢
  have hbound : 2 * (a.num * scale) ≤ scale * a.den := by
    rw [Nat.mul_comm a.num, Nat.mul_left_comm]
    exact Nat.mul_le_mul_left scale hhalf
  refine le_of_mul_le_mul_right ?_ (by exact_mod_cast hden : (0 : Int) < a.den)
  generalize units v * (a.den : Int) = p at hdist ⊢
  rw [← Nat.cast_mul]
  omega

/-- A value kept near a positive result of at most 1/2 is at most 1. -/
theorem keepWithin_le_one {a : Approx} (v : F64) (hneg : a.neg = false) (hden : 0 < a.den)
    (hnum : a.den ≤ a.num * 2 ^ 1074) (hhalf : 2 * a.num ≤ a.den) : fle (keepWithin a v) Config.one = true := by
  refine (fle_iff (isNaN_keepWithin a v) (by decide)).2 ?_
  rcases keepWithin_cases a v with hnear | hnear
  · exact orderKey_le_iff.2 (units_keepWithin_le hneg hden hnum hhalf hnear)
  · have hone : magBits Config.one = roundMag (1 * 2 ^ 1074) 1 := by decide +kernel
    rw [hnear, nearest, hneg, orderKey_ofSignMag _ (roundMag_lt _ _), orderKey_one, hone]
    refine Int.ofNat_le.2 (roundMag_mono hden one_pos ?_)
    rw [Nat.mul_one, Nat.mul_right_comm]
    exact Nat.mul_le_mul_right _ (by omega)

/-- Where the approximation of TAN lies in (0, 1/2], TAN lies in [0, 1] whatever the free function. -/
theorem tanOf_fraction (free : F64 → F64) {x : F64} (hf : isFinite x = true) (hz : isZero x = false)
    (h : (tanApprox x).neg = false ∧ 0 < (tanApprox x).den ∧ (tanApprox x).den ≤ (tanApprox x).num * 2 ^ 1074 ∧
      2 * (tanApprox x).num ≤ (tanApprox x).den) :
    fle Config.zero (tanOf free x) = true ∧ fle (tanOf free x) Config.one = true := by
  obtain ⟨hneg, hden, hnum, hhalf⟩ := h
  rw [tanOf_of_finite free hf hz]
  exact ⟨keepWithin_nonneg _ hneg hden hnum, keepWithin_le_one _ hneg hden hnum hhalf⟩

/-- Every coefficient is a finite number. -/
def FiniteCoefs (c : Coefs) : Prop :=
  isFinite c.b0 = true ∧ isFinite c.b1 = true ∧ isFinite c.b2 = true ∧ isFinite c.a1 = true ∧ isFinite c.a2 = true

/-- 2²⁰, a bound on 1/Q of both biquads (R122, R123). -/
def maxInverseQ : F64 := 0x4130000000000000

section
variable {k q : F64}

/-- The denominator of R121's norm is at least 1, and so the norm is at most 1 in magnitude. -/
theorem magBits_norm_le (hk0 : 0 ≤ orderKey k) (hk1 : magBits k ≤ magBits Config.one) (hq : isFinite q = true)
    (hqs : signBit q = false) (hqz : isZero q = false) (hkq : magBits (fdiv k q) ≤ magBits maxInverseQ) :
    magBits (fdiv Config.one (fadd (fadd Config.one (fdiv k q)) (fmul k k))) ≤ magBits Config.one := by
  have hone : isFinite Config.one = true := by decide
  have hk := isFinite_of_magBits_le hone hk1
  have hsquare : magBits (fmul k k) ≤ magBits (fmul Config.one Config.one) := magBits_fmul_le hone hone hk1 hk1
  have hsum : magBits (fadd Config.one (fdiv k q)) ≤ magBits (fadd Config.one maxInverseQ) :=
    magBits_fadd_le hone (by decide) (by decide) (by decide) le_rfl hkq
  have hfin : isFinite (fadd (fadd Config.one (fdiv k q)) (fmul k k)) = true :=
    isFinite_of_magBits_le (b := fadd (fadd Config.one maxInverseQ) (fmul Config.one Config.one)) (by decide +kernel)
      (magBits_fadd_le (by decide +kernel) (by decide +kernel) (by decide +kernel) (by decide +kernel) hsum hsquare)
  have hge : orderKey Config.one ≤ orderKey (fadd (fadd Config.one (fdiv k q)) (fmul k k)) :=
    one_le_fadd (isFinite_of_magBits_le (by decide +kernel) hsum) (isFinite_of_magBits_le (by decide +kernel) hsquare)
      (one_le_fadd hone (isFinite_of_magBits_le (by decide) hkq) le_rfl (orderKey_fdiv_nonneg hk hq hqs hqz hk0))
      (orderKey_fmul_self_nonneg hk)
  have hmag : magBits Config.one ≤ magBits (fadd (fadd Config.one (fdiv k q)) (fmul k k)) := by
    have := natAbs_orderKey (fadd (fadd Config.one (fdiv k q)) (fmul k k))
    rw [orderKey_one] at hge
    omega
  have hself : magBits (fdiv Config.one Config.one) = magBits Config.one := by decide +kernel
  exact hself ▸ magBits_fdiv_le hone hfin (by decide) le_rfl hmag

/-- A tangent in [0, 1] gives finite coefficients (R121). -/
theorem finiteCoefs_bqcoef {L : Transcendentals} {f : F64}
    (hk : fle Config.zero (L.tan (fmul Config.pi f)) = true ∧ fle (L.tan (fmul Config.pi f)) Config.one = true)
    (hq : isFinite q = true) (hqs : signBit q = false) (hqz : isZero q = false)
    (hinv : magBits (fdiv Config.one q) ≤ magBits maxInverseQ) :
    FiniteCoefs (bqcoef L .doc f q) := by
  obtain ⟨hk0, hk1⟩ := hk
  obtain ⟨hkn, hkey⟩ := fle_zero_iff.1 hk0
  have hmag : magBits (L.tan (fmul Config.pi f)) ≤ magBits Config.one := by
    have hle := (fle_iff hkn (by decide)).1 hk1
    have := natAbs_orderKey (L.tan (fmul Config.pi f))
    rw [orderKey_one] at hle
    omega
  unfold bqcoef
  generalize L.tan (fmul Config.pi f) = k at hkey hmag
  have hone : isFinite Config.one = true := by decide
  have hkq : magBits (fdiv k q) ≤ magBits maxInverseQ := (magBits_fdiv_le hone hq hqz hmag le_rfl).trans hinv
  have hnorm := magBits_norm_le hkey hmag hq hqs hqz hkq
  have hsquare : magBits (fmul k k) ≤ magBits (fmul Config.one Config.one) := magBits_fmul_le hone hone hmag hmag
  have hb0 := magBits_fmul_le (by decide) hone hkq hnorm
  have hb0fin := isFinite_of_magBits_le (by decide +kernel) hb0
  have hb2fin : isFinite Config.zero = true := by decide
  refine ⟨hb0fin, (isFinite_fneg _).trans hb0fin, hb2fin, ?a1, ?a2⟩
  case a1 =>
    have hsub : magBits (fsub (fmul k k) Config.one) ≤ magBits (fadd (fmul Config.one Config.one) Config.one) :=
      magBits_fsub_le (by decide +kernel) hone (by decide +kernel) (by decide) hsquare le_rfl
    have htwice := magBits_fmul_le (a := Config.two) (c := Config.two) (by decide) (by decide +kernel) le_rfl hsub
    exact isFinite_of_magBits_le (by decide +kernel) (magBits_fmul_le (by decide +kernel) hone htwice hnorm)
  case a2 =>
    have hsub : magBits (fsub Config.one (fdiv k q)) ≤ magBits (fadd Config.one maxInverseQ) :=
      magBits_fsub_le hone (by decide) (by decide) (by decide) le_rfl hkq
    have hsum := magBits_fadd_le (by decide +kernel) (by decide +kernel) (by decide +kernel) (by decide +kernel) hsub hsquare
    exact isFinite_of_magBits_le (by decide +kernel) (magBits_fmul_le (by decide +kernel) hone hsum hnorm)

end

/-- At 44100 Hz the scale is 1 and changes nothing (R120). -/
theorem coeffs_refRate (L : Transcendentals) (form : NumeratorForm) : coeffs L form Config.refRate =
    { mid := bqcoef L form Config.midFreq Config.midQ, high := bqcoef L form Config.highFreq Config.highQ,
      hbf := Config.headBumpBase, roll := fsub Config.one Config.softness } := by
  have hscale : fdiv Config.refRate Config.refRate = Config.one := by decide +kernel
  have hmid : fdiv Config.midFreq Config.one = Config.midFreq := by decide +kernel
  have hhigh : fdiv Config.highFreq Config.one = Config.highFreq := by decide +kernel
  have hhbf : fdiv Config.headBumpBase Config.one = Config.headBumpBase := by decide +kernel
  have hroll : fdiv (fsub Config.one Config.softness) Config.one = fsub Config.one Config.softness := by decide +kernel
  simp only [coeffs, hscale, hmid, hhigh, hhbf, hroll]

theorem finiteCoefs_mid : FiniteCoefs (bqcoef Transcendentals.configured .doc Config.midFreq Config.midQ) :=
  finiteCoefs_bqcoef (tanOf_fraction Config.freeTan (by decide +kernel) (by decide +kernel) (by decide +kernel)) (by decide)
    (by decide) (by decide) (by decide +kernel)

theorem finiteCoefs_high : FiniteCoefs (bqcoef Transcendentals.configured .doc Config.highFreq Config.highQ) :=
  finiteCoefs_bqcoef (tanOf_fraction Config.freeTan (by decide +kernel) (by decide +kernel) (by decide +kernel)) (by decide)
    (by decide) (by decide) (by decide +kernel)

/-! ### One PROC at zero (R237) -/

/-- A zero times a finite coefficient is a zero. -/
theorem fmul_zero_left {b : F64} (h : isFinite b = true) : fmul Config.zero b = ofSignMag (signBit b) 0 := by
  have hzero : unitsMag Config.zero = 0 := by decide
  have hsign : signBit Config.zero = false := by decide
  rw [fmul_of_finite (by decide) h, hzero, Nat.zero_mul, roundMag_zero, hsign, Bool.false_bne]

/-- Zeros of either sign keep a biquad at +0.0 (R131). -/
theorem bqtick_zero {c : Coefs} (h : FiniteCoefs c) (hb2 : c.b2 = Config.zero) :
    bqtick Config.zero c History.reset = (Config.zero, History.reset) := by
  obtain ⟨h0, h1, -, ha1, ha2⟩ := h
  have hout (b : Bool) : fadd (ofSignMag b 0) Config.zero = Config.zero := by cases b <;> decide +kernel
  have hs1 (a b : Bool) : fadd (fsub (ofSignMag a 0) (ofSignMag b 0)) Config.zero = Config.zero := by
    cases a <;> cases b <;> decide +kernel
  have hs2 (b : Bool) : fsub (fmul Config.zero Config.zero) (ofSignMag b 0) = Config.zero := by
    cases b <;> decide +kernel
  have ht : fadd (fmul Config.zero c.b0) History.reset.s1 = Config.zero := by
    rw [fmul_zero_left h0]
    exact hout _
  unfold bqtick
  simp only [ht, hb2, fmul_zero_left h1, fmul_zero_left ha1, fmul_zero_left ha2, hs2]
  exact congrArg (fun s1 => (Config.zero, ({ s1 := s1, s2 := Config.zero } : History))) (hs1 _ _)

theorem clampedAsin_zero : clampedAsin Transcendentals.configured Config.zero = Config.zero := by
  have hclamp : clamp Config.zero (fneg Config.one) Config.one = Config.zero := by decide
  rw [clampedAsin, hclamp]
  exact asinOf_of_isZero Config.freeAsin (by decide)

theorem headBumpDrive_zero : headBumpDrive Transcendentals.configured Config.zero Config.zero Config.headBumpBase =
    Config.zero := by
  have harg : (let h := fadd Config.zero (fmul Config.zero Config.bumpDrive)
      fsub h (fmul (fmul (fmul h h) h) Config.headBumpBase)) = Config.zero := by decide +kernel
  refine (congrArg Transcendentals.configured.sin harg).trans ?_
  exact sinOf_of_isZero Config.freeSin (by decide)

/-- ProcessorState in the zero lock. -/
def lockedState (p : BitVec 1) : ProcessorState :=
  { pathA := PathState.reset, pathB := PathState.reset, lastOut := 0, pathSel := p, dither := 0 }

theorem eq_lockedState {st : ProcessorState} (ha : st.pathA = PathState.reset) (hb : st.pathB = PathState.reset)
    (hlast : st.lastOut = 0) (hdither : st.dither = 0) : st = lockedState st.pathSel := by
  obtain ⟨pathA, pathB, lastOut, pathSel, dither⟩ := st
  subst ha hb hlast hdither
  rfl

theorem pathOf_lockedState (p q : BitVec 1) : pathOf (lockedState p) q = PathState.reset := ite_self _

theorem setPathOf_lockedState (p q : BitVec 1) : setPathOf (lockedState p) q PathState.reset = lockedState p := ite_self _

theorem midRollerStage_zero : midRollerStage (coeffs Transcendentals.configured .doc Config.refRate) Config.zero
    PathState.reset = PathState.reset := by
  have hmr : midRoller 0 Config.zero (fsub Config.one Config.softness) = 0 := by decide +kernel
  rw [coeffs_refRate]
  exact congrArg (fun mr => { PathState.reset with mr := mr }) hmr

theorem headBumpStage_zero : headBumpStage Transcendentals.configured (coeffs Transcendentals.configured .doc Config.refRate)
    Config.zero PathState.reset = PathState.reset := by
  have hdrive : headBumpDrive Transcendentals.configured PathState.reset.hb Config.zero Config.headBumpBase = Config.zero :=
    headBumpDrive_zero
  have htick : bqtick Config.zero _ PathState.reset.bqm = _ := bqtick_zero finiteCoefs_mid rfl
  simp only [coeffs_refRate, headBumpStage, hdrive, htick, clampedAsin_zero]
  rfl

theorem inputBiquadStage_zero : inputBiquadStage Transcendentals.configured
    (coeffs Transcendentals.configured .doc Config.refRate) Config.zero PathState.reset = (Config.zero, PathState.reset) := by
  have hsin : Transcendentals.configured.sin Config.zero = Config.zero := sinOf_of_isZero Config.freeSin (by decide)
  have htick : bqtick Config.zero _ PathState.reset.bqh = _ := bqtick_zero finiteCoefs_high rfl
  simp only [coeffs_refRate, inputBiquadStage, hsin, htick, clampedAsin_zero]
  rfl

/-- The filter bank from the values its stages give (R127 to R134). -/
theorem filterBank_eq_of_stages {cfg : ProcConfig} {sr x : F64} {st : ProcessorState} {rolled bumped : PathState}
    {r : F64 × PathState} (hrolled : midRollerStage (coeffs cfg.lib cfg.form sr) x (pathOf st st.pathSel) = rolled)
    (hbumped : headBumpStage cfg.lib (coeffs cfg.lib cfg.form sr) x rolled = bumped)
    (hr : inputBiquadStage cfg.lib (coeffs cfg.lib cfg.form sr) x bumped = r) :
    filterBank cfg sr x st = { highs := highsOf x rolled, y := r.1, st := togglePath (setPathOf st st.pathSel r.2) } := by
  subst hrolled hbumped hr
  rfl

/-- The filter bank keeps a zero path at zero, and gives zeros. -/
theorem filterBank_lockedState (p : BitVec 1) :
    filterBank ProcConfig.hardware Config.refRate Config.zero (lockedState p) =
      { highs := Config.zero, y := Config.zero, st := lockedState (1 - p) } := by
  have hrolled : midRollerStage (coeffs Transcendentals.configured .doc Config.refRate) Config.zero
      (pathOf (lockedState p) p) = PathState.reset := by
    rw [pathOf_lockedState, midRollerStage_zero]
  have hhighs : highsOf Config.zero PathState.reset = Config.zero := by decide +kernel
  rw [filterBank_eq_of_stages hrolled headBumpStage_zero inputBiquadStage_zero, hhighs, setPathOf_lockedState]
  rfl

/-- The operands of the zero lock: +0.0 at 44100 Hz and control 0.5. -/
def zeroOperands : ProcOperands := { sample := Config.zero, rate := Config.refRate, control := Config.gainCenter }

theorem frontEnd_zeroOperands : frontEnd ProcConfig.hardware 0 zeroOperands = Config.zero := by
  have hgain : inputGain ProcConfig.hardware.lib zeroOperands.control = Config.one := inputGain_center
  rw [frontEnd, hgain]
  decide +kernel

/-- Zeros go through the saturator as zeros. -/
theorem saturated_zero (st : ProcessorState) :
    saturated ProcConfig.hardware Config.one { highs := Config.zero, y := Config.zero, st := st } = Config.zero := by
  have hneither := not_fgt_not_flt_zero (a := Config.zero) (.inl (by decide))
  have hboost : deferredBoost Config.zero Config.one = Config.zero := by decide
  have hclamp : spiralClamp Config.zero = Config.zero := by decide
  rw [saturated, hboost, softKnee, applyKnee_of_neither _ _ hneither.1 hneither.2, hclamp]
  exact spiral_of_isZero (by decide)

/-- The restraint leaves zero accumulators alone. -/
theorem restrainHeadBump_lockedState (p : BitVec 1) : restrainHeadBump Config.zero (lockedState p) = lockedState p := by
  have hrestrain : restrain (suppressOf Config.zero) 0 = 0 := by decide +kernel
  exact congrArg (fun hb => { lockedState p with
    pathA := { PathState.reset with hb := hb }, pathB := { PathState.reset with hb := hb } }) hrestrain

/-- The limiter's input is the noise of a generator at 0. -/
theorem dithered_zero : outputRestore (dithered ProcConfig.hardware 0 Config.zero) = 0xBD9F66424DED663A := by
  have hexp : frexpExp Config.zero = 0 := frexpExp_of_special (.inl (by decide))
  obtain ⟨-, -, -, -, hzero⟩ := noiseFollowsTheGenerator
  have hnoise : noiseOf ProcConfig.hardware.lib 0 0 = 0xBC9F66424DED663A := hzero
  rw [dithered, hexp, hnoise]
  decide +kernel

/-- One PROC in the zero lock (R237). -/
theorem process_lockedState (p : BitVec 1) : process ProcConfig.hardware (lockedState p) zeroOperands =
    { out := 0xBD9F66424DED663A, st := lockedState (1 - p) } := by
  have hgain : inputGain ProcConfig.hardware.lib zeroOperands.control = Config.one := inputGain_center
  have hsat := saturated_zero (lockedState (1 - p))
  rw [← hgain] at hsat
  have hmix : addBacks Config.zero (groundOf Config.zero Config.zero)
      (restrainHeadBump Config.zero (lockedState (1 - p))) = Config.zero := by
    rw [restrainHeadBump_lockedState]
    change headBumpMix (groundAddBack Config.zero (groundOf Config.zero Config.zero)) 0 0 = Config.zero
    decide +kernel
  have hlimiter : hysteresis (lockedState p).lastOut Config.zero = Config.zero := by
    change hysteresis 0 Config.zero = Config.zero
    decide +kernel
  have hclamp : safetyClamp Config.zero = Config.zero := by decide +kernel
  have hdither : xorshift32 (lockedState p).dither = 0 := xorshift32_zero
  rw [process_eq_of_stages frontEnd_zeroOperands (filterBank_lockedState p) hsat hmix, hlimiter, hclamp, hdither,
    dithered_zero, restrainHeadBump_lockedState]
  rfl

end Sys2Proof.Machine

open Sys2Proof Sys2Proof.Machine

/-- Settles O48: the hypotheses fix ProcessorState and the operands, and `process_lockedState` is PROC on them. -/
theorem zeroLockOutputIsConstant : Obligations.ZeroLockOutputIsConstant := by
  intro s ha hb hlast hdither hsample hrate hcontrol
  have hcore := eq_lockedState ha hb hlast hdither
  have hports : procOperands s.ports = zeroOperands := by
    rw [procOperands, hsample, hrate, hcontrol]
    rfl
  have hprocess := process_lockedState s.core.pathSel
  rw [← hcore, ← hports] at hprocess
  refine ⟨procCommand ProcConfig.hardware s, rfl, ?_⟩
  rw [procCommand_responses, procCommand_core, hprocess]
  exact ⟨rfl, rfl, rfl, rfl, rfl, rfl, rfl⟩

end

section
/-!
PROOFS. Reset and the accesses once more: INIT and `rst` (R111, R231), writes of different registers (R234), and the spec's example
words, of which the illegal ones fail the check the model names (R75).
-/
namespace Sys2Proof

/-! ### Illegal words, by the check they fail (R74, R75) -/

section
variable {w : Word32}

theorem decode_of_rsv (h : rsvField w ≠ 0) : decode w = .error .nonzeroRsv := if_pos h

theorem decode_of_reserved_op (hrsv : rsvField w = 0) (hop : 5 ≤ (opField w).toNat) : decode w = .error .reservedOp := by
  unfold decode
  rw [if_neg (not_not.2 hrsv)]
  split
  case h_6 => rfl
  all_goals omega

/-- NOP, PROC and INIT take no index. -/
theorem decode_of_idx (hrsv : rsvField w = 0) (hop : (opField w).toNat < 3) (hidx : idxField w ≠ 0) :
    decode w = .error .nonzeroIdx := by
  have hrow : (opField w).toNat = 0 ∨ (opField w).toNat = 1 ∨ (opField w).toNat = 2 := by omega
  rcases hrow with h | h | h <;> simpa [decode, withoutIdx, hrsv, h] using hidx

end

end Sys2Proof

namespace Sys2Proof.Machine

/-! ### Writes of different registers (R234) -/

/-- A state is its registers, as StateRead shows them, and its host interface. -/
theorem state_eq_of_stateRead {s t : State} (h : ∀ r, stateRead r s = stateRead r t) (hports : s.ports = t.ports)
    (hpending : s.pending = t.pending) (hresponses : s.responses = t.responses) (hlog : s.faultLog = t.faultLog) : s = t := by
  obtain ⟨hcore, hill⟩ := registers_eq_of_stateRead h
  cases s
  cases t
  simp_all

/-- What a written register reads as depends on the state only through that register. -/
theorem stateRead_stateWrite_same_congr {r : StateReg} {s t : State} (w : Word64) (h : stateRead r s = stateRead r t) :
    stateRead r (stateWrite r w s) = stateRead r (stateWrite r w t) := by
  rw [stateRead_stateWrite_same, stateRead_stateWrite_same]
  split_ifs with hps hdi hst
  · rfl
  · rfl
  · rfl
  · exact hst ▸ h
  · rfl

/-- A write of another register in between is not seen. -/
theorem stateRead_stateWrite_comm {r q : StateReg} (x : StateReg) (w v : Word64) (s : State) (h : r ≠ q) :
    stateRead x (stateWrite r w (stateWrite q v s)) = stateRead x (stateWrite q v (stateWrite r w s)) := by
  by_cases hr : x = r
  · subst hr
    rw [stateRead_stateWrite_ne v _ h]
    exact stateRead_stateWrite_same_congr w (stateRead_stateWrite_ne v s h)
  · rw [stateRead_stateWrite_ne w _ hr]
    by_cases hq : x = q
    · subst hq
      exact stateRead_stateWrite_same_congr v (stateRead_stateWrite_ne w s hr).symm
    · rw [stateRead_stateWrite_ne v _ hq, stateRead_stateWrite_ne v _ hq, stateRead_stateWrite_ne w _ hr]

theorem stateWrite_comm {r q : StateReg} (w v : Word64) (s : State) (h : r ≠ q) :
    stateWrite r w (stateWrite q v s) = stateWrite q v (stateWrite r w s) :=
  state_eq_of_stateRead (fun x => stateRead_stateWrite_comm x w v s h) (by simp) (by simp) (by simp) (by simp)

end Sys2Proof.Machine

open Sys2Proof Sys2Proof.Machine

/-- Settles O18: both are `resetRegisters`, the one on the state as it is, the other on the presented ports. -/
theorem initIsEquivalentToReset : Obligations.InitIsEquivalentToReset :=
  fun s _ _ _ hp hr => ⟨resetRegisters s, _, rfl, step_of_rst hp hr, rfl, rfl, resetRegisters_responses s,
    resetRegisters_responses _, resetRegisters_ports s, resetRegisters_pending s, resetRegisters_faultLog s⟩

/-- Settles O25: each register reads alike in either order, and a write touches nothing but registers. -/
theorem writesOfDifferentRegistersCommute : Obligations.WritesOfDifferentRegistersCommute :=
  fun _ _ w v s h => stateWrite_comm w v s h

/-- Settles O1: the legal words are the encodings of their commands, and each illegal word fails one check. -/
theorem exampleWordsDecode : Obligations.ExampleWordsDecode :=
  ⟨decode_encode .nop, decode_encode .proc, decode_encode .init, decode_encode (.rdst .mrA), decode_encode (.rdst .lastOut),
    decode_encode (.rdst .pathSel), decode_encode (.rdst .dither), decode_encode (.rdst .status),
    decode_encode (.wrst .lastOut), decode_encode (.wrst .dither), decode_encode (.wrst .status),
    decode_of_reserved_op (by decide) (by decide), decode_of_reserved_op (by decide) (by decide),
    decode_of_idx (by decide) (by decide) (by decide), decode_of_idx (by decide) (by decide) (by decide),
    decode_of_idx (by decide) (by decide) (by decide), decode_of_rsv (by decide), decode_of_rsv (by decide),
    decode_of_rsv (by decide)⟩

end
